-- ==== Sys2Proof/Word.lean ====
section
/-! DEFINITION. The fixed-width values of the core (00_scope.md rule R6) and the names of the two line values
(rule R8). -/

namespace Sys2Proof

/-- A command word, a response word or a register read value: 32 bits (R6). -/
abbrev Word := BitVec 32

/-- An 8-bit character code (R6, R60). -/
abbrev Char8 := BitVec 8

/-- A 5-bit Baudot code (R6, R61). -/
abbrev Code := BitVec 5

/-- The bits of one audio sample as the interface carries them: `SAMPLE_BITS` of these 32 bits are used, the low
ones, in two's complement (R5, R63). -/
abbrev SampleBits := BitVec 32

/-- One audio sample as the core reads it: a signed integer (R63). -/
abbrev Sample := Int

/-- One bit of the line, of tone meaning `mark` (1) or `space` (0) (R8, R62). -/
abbrev LineBit := Bool

/-- The line value 1. -/
abbrev LineBit.mark : LineBit := true

/-- The line value 0. -/
abbrev LineBit.space : LineBit := false

end Sys2Proof
end

