-- ==== Sys2Proof/Syntax.lean ====
section
/-! DEFINITION. The commands of 30_encoding.md rule R58, one constructor per row of spec/opcode_table.json, with the
operands of rules R59 to R63, and the items the host's command stream is made of. -/

namespace Sys2Proof

/-- One whole value of the command stream (R56, R63): a 32-bit command word or one payload sample. -/
inductive Item where
  | word (w : Word)
  | sample (x : SampleBits)
deriving DecidableEq, Repr

/-- A command of the core. The payload of `slice` and `push` is the list of `LEN` samples that follows the word,
oldest first; `LEN` is its length (R63, R71). -/
inductive Instr where
  /-- NOP: do nothing (R148). -/
  | nop
  /-- CFG.WR: write register `reg` with `data` (R142). -/
  | cfgWr (reg : BitVec 4) (data : BitVec 24)
  /-- CFG.RD: read register `reg` (R143). -/
  | cfgRd (reg : BitVec 4)
  /-- ENC: Baudot encode one character (R82). -/
  | enc (char : Char8)
  /-- DEC: Baudot decode one code (R83). -/
  | dec (code : Code)
  /-- FRAME: build the frame of one character (R88). -/
  | frame (char : Char8)
  /-- TX.BIT: synthesize one bit of tone (R98). -/
  | txBit (bit : LineBit)
  /-- TX.CHAR: frame one character and synthesize the frame (R99). -/
  | txChar (char : Char8)
  /-- SLICE: slice one window to one bit (R111). -/
  | slice (payload : List SampleBits)
  /-- RX.BIT: feed one bit to the frame recovery state machine (R122). -/
  | rxBit (bit : LineBit)
  /-- PUSH: enqueue one captured chunk (R129). -/
  | push (payload : List SampleBits)
  /-- CLOSE: enqueue the close sentinel (R135). -/
  | close
  /-- SYNC: wait until the consumer has nothing left to do (R150). -/
  | sync
  /-- RESET: reset the core (R172). -/
  | reset
deriving DecidableEq, Repr

/-- The samples that follow the command's word in the stream (R63, R69). -/
def Instr.payload : Instr → List SampleBits
  | .nop => []
  | .cfgWr _ _ => []
  | .cfgRd _ => []
  | .enc _ => []
  | .dec _ => []
  | .frame _ => []
  | .txBit _ => []
  | .txChar _ => []
  | .slice payload => payload
  | .rxBit _ => []
  | .push payload => payload
  | .close => []
  | .sync => []
  | .reset => []

end Sys2Proof
end

