-- ==== Sys2Proof/WellFormed.lean ====
section
/-! DEFINITION. Which commands an encoding exists for: the operands that a type does not already bound fit their
fields (R63, R71). -/

namespace Sys2Proof

/-- A sample's bits fit `SAMPLE_BITS = bits`: no bit above them is set (R63). -/
def sampleFits (bits : Nat) (x : SampleBits) : Bool :=
  decide (x.toNat < 2 ^ bits)

/-- The payload's length fits the 24-bit `LEN` field and every sample fits the sample width (R63, R71). -/
def payloadFits (bits : Nat) (payload : List SampleBits) : Bool :=
  decide (payload.length < 2 ^ 24) && payload.all (sampleFits bits)

/-- The command can be encoded in an instance whose `SAMPLE_BITS` is `bits`. -/
def Instr.wellFormed (bits : Nat) : Instr → Bool
  | .nop => true
  | .cfgWr _ _ => true
  | .cfgRd _ => true
  | .enc _ => true
  | .dec _ => true
  | .frame _ => true
  | .txBit _ => true
  | .txChar _ => true
  | .slice payload => payloadFits bits payload
  | .rxBit _ => true
  | .push payload => payloadFits bits payload
  | .close => true
  | .sync => true
  | .reset => true

end Sys2Proof
end

