-- ==== Sys2Proof/Decode.lean ====
section
/-! DEFINITION. The decoder of 30_encoding.md rules R65 to R69, total on every 32-bit word, and the encoder of the
formats of rule R57. -/

namespace Sys2Proof

/-- Why a command word is illegal (R65, R66). -/
inductive DecodeError where
  /-- OP 0xE or 0xF (R66). -/
  | reservedOpcode
  /-- A reserved bit of the format is 1; no payload follows (R65). -/
  | reservedBits
  /-- A reserved bit of a SLICE or PUSH word is 1; its payload is consumed and discarded (R65). -/
  | reservedBitsWithPayload
deriving DecidableEq, Repr

/-- `OP`, bits 31:28 (R56). -/
def opField (w : Word) : BitVec 4 := w.extractLsb' 28 4

/-- `REG`, bits 27:24 (R59). -/
def regField (w : Word) : BitVec 4 := w.extractLsb' 24 4

/-- `DATA` or `LEN`, bits 23:0 (R59, R63). -/
def dataField (w : Word) : BitVec 24 := w.extractLsb' 0 24

/-- `CHAR`, bits 7:0 (R60). -/
def charField (w : Word) : Char8 := w.extractLsb' 0 8

/-- `CODE`, bits 4:0 (R61). -/
def codeField (w : Word) : Code := w.extractLsb' 0 5

/-- `BIT`, bit 0 (R62). -/
def bitField (w : Word) : LineBit := w.getLsbD 0

/-- Bits 27:`lo` of the word are 0: the reserved bits of formats N, C, K, B and L (R57, R65). -/
def bodyZeroFrom (lo : Nat) (w : Word) : Bool :=
  w.extractLsb' lo (28 - lo) == 0

/-- How many payload samples follow the word, from `OP` and `LEN` alone, reserved bits or not (R65, R69). -/
def payloadLen (w : Word) : Nat :=
  if opField w = 0x8#4 ∨ opField w = 0xA#4 then (dataField w).toNat else 0

/-- The command if the word's reserved bits are 0, otherwise the error. -/
def ifReserved (ok : Bool) (e : DecodeError) (i : Instr) : Except DecodeError Instr :=
  if ok then .ok i else .error e

/-- The decoder (R68). `payload` is the list of the `payloadLen w` samples that follow the word. -/
def decode (w : Word) (payload : List SampleBits) : Except DecodeError Instr :=
  match (opField w).toNat with
  | 0x0 => ifReserved (bodyZeroFrom 0 w) .reservedBits .nop
  | 0x1 => .ok (.cfgWr (regField w) (dataField w))
  | 0x2 => ifReserved (dataField w == 0) .reservedBits (.cfgRd (regField w))
  | 0x3 => ifReserved (bodyZeroFrom 8 w) .reservedBits (.enc (charField w))
  | 0x4 => ifReserved (bodyZeroFrom 5 w) .reservedBits (.dec (codeField w))
  | 0x5 => ifReserved (bodyZeroFrom 8 w) .reservedBits (.frame (charField w))
  | 0x6 => ifReserved (bodyZeroFrom 1 w) .reservedBits (.txBit (bitField w))
  | 0x7 => ifReserved (bodyZeroFrom 8 w) .reservedBits (.txChar (charField w))
  | 0x8 => ifReserved (bodyZeroFrom 24 w) .reservedBitsWithPayload (.slice payload)
  | 0x9 => ifReserved (bodyZeroFrom 1 w) .reservedBits (.rxBit (bitField w))
  | 0xA => ifReserved (bodyZeroFrom 24 w) .reservedBitsWithPayload (.push payload)
  | 0xB => ifReserved (bodyZeroFrom 0 w) .reservedBits .close
  | 0xC => ifReserved (bodyZeroFrom 0 w) .reservedBits .sync
  | 0xD => ifReserved (bodyZeroFrom 0 w) .reservedBits .reset
  | _ => .error .reservedOpcode

/-- A word of format N, C, K, B or L: `OP`, four zero bits, and a field in bits 23:0 (R57). -/
def plainWord (op : BitVec 4) (field : BitVec 24) : Word := op ++ 0x0#4 ++ field

/-- The command word (R57, R58, R71). -/
def encodeWord : Instr → Word
  | .nop => plainWord 0x0 0
  | .cfgWr reg data => 0x1#4 ++ reg ++ data
  | .cfgRd reg => 0x2#4 ++ reg ++ 0#24
  | .enc char => plainWord 0x3 (char.setWidth 24)
  | .dec code => plainWord 0x4 (code.setWidth 24)
  | .frame char => plainWord 0x5 (char.setWidth 24)
  | .txBit bit => plainWord 0x6 ((BitVec.ofBool bit).setWidth 24)
  | .txChar char => plainWord 0x7 (char.setWidth 24)
  | .slice payload => plainWord 0x8 (BitVec.ofNat 24 payload.length)
  | .rxBit bit => plainWord 0x9 ((BitVec.ofBool bit).setWidth 24)
  | .push payload => plainWord 0xA (BitVec.ofNat 24 payload.length)
  | .close => plainWord 0xB 0
  | .sync => plainWord 0xC 0
  | .reset => plainWord 0xD 0

/-- The command as the host sends it: its word, then its payload, oldest sample first (R56, R63). -/
def encode (i : Instr) : List Item := .word (encodeWord i) :: i.payload.map .sample

/-- The command word whose bits are `w` (the opcode table's numbering: bit 0 the least significant). -/
def tableWord (nbits w : Nat) : Word := BitVec.ofNat 32 (w % 2 ^ nbits)

/-- The stream items of that word: the word, and a payload of zeros as long as the word asks for. -/
def tableItems (nbits w : Nat) : List Item :=
  .word (tableWord nbits w) :: List.replicate (payloadLen (tableWord nbits w)) (.sample 0)

/-- What the decoder reads from a row of the opcode table whose bits are `w`, its payload of zeros. -/
def decodeTableWord (nbits w : Nat) : Option Instr :=
  (decode (tableWord nbits w) (List.replicate (payloadLen (tableWord nbits w)) 0)).toOption

end Sys2Proof
end

