-- ==== Sys2Proof/Config.lean ====
section
/-! DEFINITION. The implementation parameters of 00_scope.md rule R5, the values the spec gives them for this
hardware, and the FREE VALUES: opaque constants, of which nothing can be proved, for what the spec leaves to a
realization (the sample rate, the realized numerics) or to the run (the interleaving of the two agents). -/

namespace Sys2Proof

/-- Which function realizes a numeric unit (R5 `SYNTH_NUMERICS`, `SLICER_NUMERICS`): the reference function of the
spec, or realization number `id`, an arbitrary function with the properties of R97 and R110. -/
inductive Numerics where
  | reference
  | realization (id : Nat)
deriving DecidableEq, Repr

/-- A codec ROM (R5 `BAUDOT_TABLE`): the pairs (symbol, code). -/
abbrev BaudotTable := List (Char8 × Code)

/-- The parameters of one instance (R5). They never change while the instance runs. -/
structure Params where
  /-- `FS`, the sample rate in hertz. -/
  fs : Nat
  /-- `SAMPLE_BITS`, the width of one sample. -/
  sampleBits : Nat
  /-- `QUEUE_CAP`; `none` is `UNBOUNDED`. -/
  queueCap : Option Nat
  /-- `BAUDOT_TABLE`. -/
  table : BaudotTable
  /-- `SYNTH_NUMERICS`. -/
  synth : Numerics
  /-- `SLICER_NUMERICS`. -/
  slicer : Numerics
deriving DecidableEq, Repr

/-- The alphabet of R75: `'A'` to `'Z'` and the space, as ASCII codes. -/
def alphabet : List Char8 :=
  (List.range 26).map (fun i => BitVec.ofNat 8 (0x41 + i)) ++ [0x20#8]

/-- The three properties of R76: every symbol of the alphabet and nothing else has a code, no two symbols share
one, and code 0 is unassigned. -/
def BaudotTable.legal (t : BaudotTable) : Bool :=
  t.length == 27 && alphabet.all (fun c => t.any (fun e => e.1 == c)) &&
    decide (t.map (·.2)).Nodup && t.all (fun e => e.2 != 0#5)

/-- The legal values of R5. -/
def Params.legal (p : Params) : Bool :=
  decide (46 ≤ p.fs) && decide (p.fs ≤ 16777215) && decide (2 ≤ p.sampleBits) && decide (p.sampleBits ≤ 32) &&
    (match p.queueCap with
      | none => true
      | some n => decide (0 < n)) &&
    p.table.legal

/-- The ITA2 letters-shift table of R77, the default `BAUDOT_TABLE`. -/
def ita2 : BaudotTable :=
  [(0x41, 3), (0x42, 25), (0x43, 14), (0x44, 9), (0x45, 1), (0x46, 13), (0x47, 26), (0x48, 20), (0x49, 6),
   (0x4A, 11), (0x4B, 15), (0x4C, 18), (0x4D, 28), (0x4E, 12), (0x4F, 24), (0x50, 22), (0x51, 23), (0x52, 10),
   (0x53, 5), (0x54, 16), (0x55, 7), (0x56, 30), (0x57, 19), (0x58, 29), (0x59, 21), (0x5A, 17), (0x20, 4)]

/-- FREE VALUE. The sample rate of the instance is OPEN (R5, D9): this picks it among the legal rates
(`Config.sampleRate`). Log entry 1. -/
opaque Config.freeSampleRate : Nat

/-- The instance's sample rate: some integer from 46 to 16777215, which one is not known (R5). -/
def Config.sampleRate : Nat := 46 + Config.freeSampleRate % 16777170

/-- FREE VALUE. Realization number `id` of the tone synthesizer's sample function before its values are kept in
range (R97); the other arguments are `FS`, `SAMPLE_BITS`, the volume register and the phase. Log entry 3. -/
opaque Config.synthRealization (id fs bits volume phase : Nat) : Int

/-- FREE VALUE. Realization number `id` of the slicer's comparison for two different bins (R110); the other
arguments are `FS`, the window and the two bins. Log entry 3. -/
opaque Config.slicerRealization (id fs : Nat) (window : List Sample) (km ks : Nat) : Bool

/-- FREE VALUE. The sample where the exact evaluation of the reference function reaches its last precision
undecided; the log says why no input is known to reach it. Log entry 4. -/
opaque Config.undecidedSample (fs bits volume phase : Nat) : Int

/-- FREE VALUE. The decision where the exact evaluation of the reference comparison reaches its last precision
undecided. Log entry 4. -/
opaque Config.undecidedBit (window : List Sample) (km ks : Nat) : Bool

/-- FREE VALUE. The interleaving of host and consumer (R12, R47): in the `n`-th stretch of the run the host is
offered this many steps in a row before the consumer is offered one. Log entry 5. -/
opaque Config.hostBurst (n : Nat) : Nat

/-- The parameters of this hardware: the values R5 gives, with the open sample rate left free. -/
def Params.thisHardware : Params where
  fs := Config.sampleRate
  sampleBits := 16
  queueCap := none
  table := ita2
  synth := .reference
  slicer := .reference

end Sys2Proof
end

