-- ==== Sys2Proof/Machine/State.lean ====
section
/-! DEFINITION. The state of one core instance (10_state.md rule R13), the streams at its interface (rule R38), the
parameters of the instance (rule R5), the ways a run can end, and the state after reset (70_reset_and_hazards.md
rule R171). -/

namespace Sys2Proof.Machine

/-- `S.state` of the frame recovery state machine (R31). -/
inductive FsmState where
  | idle
  | collectingData
  | awaitingStop
deriving DecidableEq, Repr

/-- An entry of the chunk queue (R34, R128): a chunk of samples, or the sentinel. -/
inductive Entry where
  | chunk (l : List Sample)
  | close
deriving DecidableEq, Repr

/-- The two agents (R47). -/
inductive Agent where
  | host
  | consumer
deriving DecidableEq, Repr

/-- The whole machine. -/
structure State where
  /-- The parameters of the instance; no step changes them (R5, R37). -/
  cfg : Params
  /-- `REG.MARK`, hertz (R15). -/
  mark : BitVec 16
  /-- `REG.SHIFT`, hertz (R16). -/
  shift : BitVec 16
  /-- `REG.BAUD`, centibaud (R18). -/
  baud : BitVec 16
  /-- `REG.STOPB` (R19). -/
  stopb : BitVec 3
  /-- `REG.VOLUME` (R20). -/
  volume : BitVec 16
  /-- `REG.CTRL`: bit 0 PHASE_CONT, bit 1 FLUSH_ON_RECONF (R21). -/
  ctrl : BitVec 2
  /-- Bits 0 to 3 of `REG.STATUS`, the sticky faults (R24). Bit 4 is `closed`; the word is `statusWord`. -/
  faults : BitVec 4
  /-- `S.state` (R31). -/
  fsm : FsmState
  /-- `S.acc` (R31). -/
  acc : Code
  /-- `S.count` (R31). -/
  count : BitVec 3
  /-- `S.fecnt` (R26). -/
  fecnt : BitVec 16
  /-- `S.buf`, oldest sample first (R32). -/
  buf : List Sample
  /-- `S.q`, head first (R34). -/
  q : List Entry
  /-- `S.closed` (R35). -/
  closed : Bool
  /-- `S.phase` (R36). -/
  phase : Nat
  /-- `pc`, the index of the next host command (R33). -/
  pc : Nat
  /-- The response stream, oldest word first (R38, R70). -/
  rsp : List Word
  /-- The TX sample stream, oldest sample first (R38). -/
  tx : List Sample
  /-- The RX character stream, oldest character first, each with its unknown flag (R38, R9). -/
  rx : List (Char8 × Bool)
  /-- The model's own: the part of the host's command stream that no command has taken yet (R53, R56). -/
  stream : List Item
  /-- The model's own: the next choices of which agent is offered a step (R12, R47). -/
  sched : List Agent
  /-- The model's own: how many stretches of the schedule have been drawn from `Config.hostBurst`. -/
  epoch : Nat
deriving DecidableEq, Repr

/-- Why a step gives no next state. No command and no consumer step of the spec ends so: each of these says that no
agent has a step to take. -/
inductive Fault where
  /-- Raised by `step` when the host's stream is empty and the consumer is quiescent: the run is finished (R176).
  Safe: the spec gives no further step. -/
  | runFinished
  /-- Raised by `step` when the host's stream does not begin with a whole command (a payload sample stands where a
  word is due, or samples of a payload are missing) and the consumer is quiescent: the host has broken the stream's
  form (R56, R63). Safe: the model stops where the spec says nothing. -/
  | streamIncomplete
deriving DecidableEq, Repr

/-- Why an instruction has no meaning. -/
inductive Refusal where
  /-- Raised by `exec` for a row of the opcode table that has no meaning yet; no row is left so. Safe. -/
  | notModelled (mnemonic : String)
deriving DecidableEq, Repr

/-- Power-on reset of the instance with parameters `p` (R171, R173): the three output streams empty, and no command
supplied by the host yet. -/
def State.resetWith (p : Params) : State where
  cfg := p
  mark := 2125
  shift := 170
  baud := 4545
  stopb := 2
  volume := 32768
  ctrl := 0
  faults := 0
  fsm := .idle
  acc := 0
  count := 0
  fecnt := 0
  buf := []
  q := []
  closed := false
  phase := 0
  pc := 0
  rsp := []
  tx := []
  rx := []
  stream := []
  sched := []
  epoch := 0

/-- Power-on reset of this hardware (R171, R173). -/
def State.reset : State := State.resetWith Params.thisHardware

end Sys2Proof.Machine
end

