-- ==== Sys2Proof/Machine/Flags.lean ====
section
/-! DEFINITION. The flags of the core: the fault bits of `REG.STATUS` (60_exceptions.md rule R162) and the packed
words that carry flags (30_encoding.md rule R70, 41_frame_encoder.md rule R87, 10_state.md rules R24, R25). -/

namespace Sys2Proof.Machine

/-- The fault causes (R162). -/
inductive Cause where
  /-- ERR_ILL, code 0. -/
  | ill
  /-- ERR_CFG, code 1. -/
  | cfg
  /-- ERR_LEN, code 2. -/
  | len
  /-- ERR_OVF, code 3. -/
  | ovf
deriving DecidableEq, Repr

/-- The cause code, which is the bit index in `REG.STATUS` (R162). -/
def Cause.code : Cause → Nat
  | .ill => 0
  | .cfg => 1
  | .len => 2
  | .ovf => 3

/-- The fault bits with that one bit set. -/
def Cause.mask (e : Cause) : BitVec 4 := BitVec.twoPow 4 e.code

/-- A one-bit flag as a word. -/
def flagWord (b : Bool) : Word := (BitVec.ofBool b).setWidth 32

/-- `REG.STATUS` as it reads: the sticky bits in 3:0, `S.closed` in bit 4 (R24). -/
def statusWord (s : State) : Word :=
  s.faults.setWidth 32 ||| (flagWord s.closed <<< 4)

/-- The two-bit code of `S.state` (R25, R31). -/
def FsmState.code : FsmState → BitVec 2
  | .idle => 0
  | .collectingData => 1
  | .awaitingStop => 2

/-- `RXSTATE` as it reads: `S.state` in 1:0, `S.count` in 4:2, `S.acc` in 9:5 (R25). -/
def rxStateWord (s : State) : Word :=
  s.fsm.code.setWidth 32 ||| (s.count.setWidth 32 <<< 2) ||| (s.acc.setWidth 32 <<< 5)

/-- ENC's response: `CODE` in 4:0, `FB` in bit 8 (R70, R82). -/
def encWord (r : Code × Bool) : Word :=
  (flagWord r.2 <<< 8) ||| r.1.setWidth 32

/-- DEC's response: `CHAR` in 7:0, `UNK` in bit 8 (R70, R83). -/
def decWord (r : Char8 × Bool) : Word :=
  (flagWord r.2 <<< 8) ||| r.1.setWidth 32

/-- The number whose bit `i` is element `i` of the list. -/
def bitsValue : List LineBit → Nat
  | [] => 0
  | b :: bs => b.toNat + 2 * bitsValue bs

/-- `frame_word(bits, fb)`: bit `i` of the line in bit `i`, the length from bit 16 on, `FB` in bit 24 (R87). -/
def frameWord (r : List LineBit × Bool) : Word :=
  (flagWord r.2 <<< 24) ||| (BitVec.ofNat 32 r.1.length <<< 16) ||| BitVec.ofNat 32 (bitsValue r.1)

/-- SLICE's response: the decision in bit 0 (R70, R111). -/
def sliceWord (b : LineBit) : Word := flagWord b

end Sys2Proof.Machine
end

