-- ==== Sys2Proof/Machine/Ops.lean ====
section
/-! DEFINITION. The named operations on the state: one for each pseudocode primitive of 00_scope.md rule R9, the one
fault mechanism of 60_exceptions.md rule R156 (there is no return from it, rule R166: only reset clears a fault),
reset itself (rule R171) and the flush of 46_control.md rule R147. -/

namespace Sys2Proof.Machine

/-- `pc <- pc + 1` (R33). -/
def State.advance (s : State) : State := { s with pc := s.pc + 1 }

/-- `emit_rsp(w)` (R9). -/
def State.emitRsp (w : Word) (s : State) : State := { s with rsp := s.rsp ++ [w] }

/-- `emit_tx(l)` (R9). -/
def State.emitTx (l : List Sample) (s : State) : State := { s with tx := s.tx ++ l }

/-- `emit_rx(c, u)` (R9). -/
def State.emitRx (r : Char8 × Bool) (s : State) : State := { s with rx := s.rx ++ [r] }

/-- `S.phase <- p` (R98, R99). -/
def State.setPhase (p : Nat) (s : State) : State := { s with phase := p }

/-- `enqueue(e)` (R9). -/
def State.enqueue (e : Entry) (s : State) : State := { s with q := s.q ++ [e] }

/-- `raise Fault(E)`: the sticky bit is set, the command has no other effect, and the stream goes on with the next
command (R156). -/
def State.raiseFault (e : Cause) (s : State) : State :=
  { s with faults := s.faults ||| e.mask, pc := s.pc + 1 }

/-- `flush_rx()` (R147). -/
def State.flushRx (s : State) : State :=
  { s with buf := [], fsm := .idle, acc := 0, count := 0 }

/-- Every element of R171 other than `pc` takes its reset value; the parameters, the output streams and the host's
own stream and schedule are not the core's to reset (R38, R172, R174). -/
def State.resetCore (s : State) : State :=
  { s with
    mark := 2125, shift := 170, baud := 4545, stopb := 2, volume := 32768, ctrl := 0, faults := 0, closed := false,
    fsm := .idle, acc := 0, count := 0, fecnt := 0, buf := [], q := [], phase := 0 }

/-- The queue is full: only a finite `QUEUE_CAP` can be reached (R129, R135). -/
def State.queueFull (s : State) : Bool :=
  match s.cfg.queueCap with
  | none => false
  | some cap => decide (cap ≤ s.q.length)

/-- `REG.CTRL.PHASE_CONT` (R21). -/
def State.phaseCont (s : State) : Bool := s.ctrl.getLsbD 0

/-- `REG.CTRL.FLUSH_ON_RECONF` (R21). -/
def State.flushOnReconf (s : State) : Bool := s.ctrl.getLsbD 1

/-- `SPB`: the exact floor of `FS * 100 / REG.BAUD`, computed from the current registers at each use (R7). -/
def State.spb (s : State) : Nat := s.cfg.fs * 100 / s.baud.toNat

/-- `SPACE`, the frequency of a space in hertz (R17). -/
def State.spaceFreq (s : State) : Nat := s.mark.toNat - s.shift.toNat

/-- `f(b)`: the tone frequency of a bit (R91). -/
def State.toneFreq (s : State) (b : LineBit) : Nat :=
  if b then s.mark.toNat else s.spaceFreq

end Sys2Proof.Machine
end

