-- ==== Sys2Proof/Machine/Operands.lean ====
section
/-! DEFINITION. The operand forms: the register index of CFG.WR and CFG.RD with the register map of 10_state.md rule
R14, the zero extension of `DATA` (30_encoding.md rule R59), and the sign reading of samples (rule R63). -/

namespace Sys2Proof.Machine

/-- The registers of R14. -/
inductive Reg where
  | mark | shift | baud | stopb | volume | ctrl | fs | spb | status | rxstate | fecnt | buflen | qlen | phase
deriving DecidableEq, Repr

/-- The register at an index; 0xE and 0xF are reserved (R14, R30). -/
def Reg.ofIndex (i : BitVec 4) : Option Reg :=
  match i.toNat with
  | 0x0 => some .mark
  | 0x1 => some .shift
  | 0x2 => some .baud
  | 0x3 => some .stopb
  | 0x4 => some .volume
  | 0x5 => some .ctrl
  | 0x6 => some .fs
  | 0x7 => some .spb
  | 0x8 => some .status
  | 0x9 => some .rxstate
  | 0xA => some .fecnt
  | 0xB => some .buflen
  | 0xC => some .qlen
  | 0xD => some .phase
  | _ => none

/-- `DATA` as CFG.WR's write value (R59). -/
def writeValue (data : BitVec 24) : Word := data.setWidth 32

/-- A sample's bits read as a signed integer of `bits` bits (R63). -/
def readSample (bits : Nat) (x : SampleBits) : Sample := (x.setWidth bits).toInt

/-- The samples of a payload, oldest first (R63). -/
def readSamples (bits : Nat) (payload : List SampleBits) : List Sample := payload.map (readSample bits)

/-- The bits of a signed sample, as a host places them on the interface (R63). -/
def sampleBitsOf (bits : Nat) (z : Sample) : SampleBits := (BitVec.ofInt bits z).setWidth 32

/-- The register's value, zero-extended; the read-only registers are views of the state and the parameters
(R14, R22 to R29). -/
def State.readReg (s : State) : Reg → Word
  | .mark => s.mark.setWidth 32
  | .shift => s.shift.setWidth 32
  | .baud => s.baud.setWidth 32
  | .stopb => s.stopb.setWidth 32
  | .volume => s.volume.setWidth 32
  | .ctrl => s.ctrl.setWidth 32
  | .fs => BitVec.ofNat 32 s.cfg.fs
  | .spb => BitVec.ofNat 32 s.spb
  | .status => statusWord s
  | .rxstate => rxStateWord s
  | .fecnt => s.fecnt.setWidth 32
  | .buflen => BitVec.ofNat 32 s.buf.length
  | .qlen => BitVec.ofNat 32 (min s.q.length (2 ^ 32 - 1))
  | .phase => BitVec.ofNat 32 s.phase

/-- The read-write registers (R14). -/
def Reg.writable : Reg → Bool
  | .mark | .shift | .baud | .stopb | .volume | .ctrl => true
  | .fs | .spb | .status | .rxstate | .fecnt | .buflen | .qlen | .phase => false

/-- The registers whose accepted write flushes when FLUSH_ON_RECONF is 1: MARK, SHIFT and BAUD (R142, R147). -/
def Reg.isTone : Reg → Bool
  | .mark | .shift | .baud => true
  | .stopb | .volume | .ctrl | .fs | .spb | .status | .rxstate | .fecnt | .buflen | .qlen | .phase => false

/-- `legal(REG, v)` (R144); a read-only register takes no value. -/
def State.legalValue (s : State) (r : Reg) (v : Word) : Bool :=
  match r with
  | .mark => decide (s.shift.toNat < v.toNat ∧ v.toNat ≤ 65535)
  | .shift => decide (50 ≤ v.toNat ∧ v.toNat ≤ 500 ∧ v.toNat < s.mark.toNat)
  | .baud => decide (1 ≤ v.toNat ∧ v.toNat ≤ 65535 ∧ v.toNat ≤ 100 * s.cfg.fs)
  | .stopb => decide (1 ≤ v.toNat ∧ v.toNat ≤ 7)
  | .volume => decide (v.toNat ≤ 32768)
  | .ctrl => decide (v.toNat ≤ 3)
  | .fs | .spb | .status | .rxstate | .fecnt | .buflen | .qlen | .phase => false

/-- `reg[REG] <- v`, into the register's width; a read-only register holds nothing of its own (R13, R142). -/
def State.writeReg (s : State) (r : Reg) (v : Word) : State :=
  match r with
  | .mark => { s with mark := v.setWidth 16 }
  | .shift => { s with shift := v.setWidth 16 }
  | .baud => { s with baud := v.setWidth 16 }
  | .stopb => { s with stopb := v.setWidth 3 }
  | .volume => { s with volume := v.setWidth 16 }
  | .ctrl => { s with ctrl := v.setWidth 2 }
  | .fs | .spb | .status | .rxstate | .fecnt | .buflen | .qlen | .phase => s

end Sys2Proof.Machine
end

