-- ==== Sys2Proof/Machine/Numerics.lean ====
section
/-! DEFINITION. Exact arithmetic for the two reference functions (42_tone_synth.md rule R96, 43_bit_slicer.md rule
R108), which the spec gives over the reals. A real number is held between two integers at a scale of `2 ^ P`; a sum
of powers of the `L`-th root of unity is tested for zero exactly, as a list of integer coefficients. A comparison of
two reals is settled by enclosures of growing precision, with the exact test for equality after the first. -/

namespace Sys2Proof.Machine

/-- A real `x` with `lo ≤ x * 2 ^ P ≤ hi`, for a precision `P` kept beside it. -/
structure Enc where
  lo : Int
  hi : Int
deriving DecidableEq, Repr

/-- The integer `c`. -/
def Enc.ofInt (P : Nat) (c : Int) : Enc := ⟨c * 2 ^ P, c * 2 ^ P⟩

/-- The sum of two reals. -/
def Enc.add (a b : Enc) : Enc := ⟨a.lo + b.lo, a.hi + b.hi⟩

/-- The negation of a real. -/
def Enc.neg (a : Enc) : Enc := ⟨-a.hi, -a.lo⟩

/-- The difference of two reals. -/
def Enc.sub (a b : Enc) : Enc := a.add b.neg

/-- A real times an integer. -/
def Enc.scale (c : Int) (a : Enc) : Enc :=
  if 0 ≤ c then ⟨c * a.lo, c * a.hi⟩ else ⟨c * a.hi, c * a.lo⟩

/-- A real divided by a positive integer, rounded outwards. -/
def Enc.divNat (a : Enc) (d : Nat) : Enc := ⟨a.lo / (d : Int), -((-a.hi) / (d : Int))⟩

/-- The product of two reals, rounded outwards. -/
def Enc.mul (P : Nat) (a b : Enc) : Enc :=
  ⟨min (min (a.lo * b.lo) (a.lo * b.hi)) (min (a.hi * b.lo) (a.hi * b.hi)) / (2 ^ P : Int),
    -(-(max (max (a.lo * b.lo) (a.lo * b.hi)) (max (a.hi * b.lo) (a.hi * b.hi))) / (2 ^ P : Int))⟩

/-- The first `k` terms of the arctangent series at `1 / n`. -/
def arctanSum (P n : Nat) : Nat → Enc
  | 0 => Enc.ofInt P 0
  | i + 1 => (arctanSum P n i).add ((Enc.ofInt P ((-1) ^ i)).divNat ((2 * i + 1) * n ^ (2 * i + 1)))

/-- The arctangent of `1 / n`: between the sum of `2 * m` terms and that of one term more. -/
def arctanEnc (P n m : Nat) : Enc :=
  (arctanSum P n (2 * m)).add ⟨0, ((Enc.ofInt P 1).divNat ((4 * m + 1) * n ^ (4 * m + 1))).hi⟩

/-- `pi`, as `16 * arctan (1 / 5) - 4 * arctan (1 / 239)`. -/
def piEnc (P : Nat) : Enc :=
  ((arctanEnc P 5 (P / 8 + 1)).scale 16).add ((arctanEnc P 239 (P / 32 + 1)).scale (-4))

/-- `acc` and `n` further terms of the cosine series in `x2 = x ^ 2`; `t` is term number `k`. -/
def cosSeries (P : Nat) (x2 : Enc) : Nat → Nat → Enc → Enc → Enc
  | 0, _, _, acc => acc
  | n + 1, k, t, acc =>
    cosSeries P x2 n (k + 1) (((t.mul P x2).divNat ((2 * k + 1) * (2 * k + 2))).neg) (acc.add t)

/-- The cosine of a real in `-1 .. 1`: `P / 8 + 4` terms of the series and a bound on the rest. -/
def cosSmall (P : Nat) (x : Enc) : Enc :=
  let K := P / 8 + 4
  (cosSeries P (x.mul P x) K 0 (Enc.ofInt P 1) (Enc.ofInt P 0)).add
    (let r := ((Enc.ofInt P 2).divNat (2 * K).factorial).hi
     ⟨-r, r⟩)

/-- `cos (2 * y)` from `cos y`. -/
def cosDouble (P : Nat) (c : Enc) : Enc := ((c.mul P c).scale 2).sub (Enc.ofInt P 1)

/-- `cos (2 * pi * j / L)`: the cosine of an eighth of the angle, doubled three times. -/
def cosEnc (P j L : Nat) : Enc :=
  cosDouble P (cosDouble P (cosDouble P (cosSmall P (((piEnc P).scale ((j % L : Nat) : Int)).divNat (4 * L)))))

/-- `sin (2 * pi * j / L)`, as the cosine a quarter turn earlier. -/
def sinEnc (P j L : Nat) : Enc := cosEnc P (4 * (j % L) + 3 * L) (4 * L)

/-- The sign of a real, where its enclosure shows it: -1 or 1. -/
def Enc.sign? (a : Enc) : Option Int :=
  if 0 < a.lo then some 1 else if a.hi < 0 then some (-1) else none

/-- A sum of integer multiples of powers of the `L`-th root of unity, `(c, e)` standing for `c * zeta ^ e`. -/
abbrev Cyc := List (Int × Nat)

/-- The sum with one more term, terms of equal exponent put together and zero coefficients left out. -/
def Cyc.addTerm (c : Int) (e : Nat) : Cyc → Cyc
  | [] => if c = 0 then [] else [(c, e)]
  | (c', e') :: t =>
    if e = e' then (if c + c' = 0 then t else (c + c', e) :: t) else (c', e') :: Cyc.addTerm c e t

/-- The same sum with every exponent below `L` and at most once. -/
def Cyc.collect (L : Nat) (t : Cyc) : Cyc := t.foldr (fun x acc => Cyc.addTerm x.1 (x.2 % L) acc) []

/-- The product of two sums. -/
def Cyc.mul (a b : Cyc) : Cyc := a.flatMap (fun x => b.map (fun y => (x.1 * y.1, x.2 + y.2)))

/-- The complex conjugate of a sum: `zeta ^ e` becomes `zeta ^ (L - e)`. -/
def Cyc.conj (L : Nat) (a : Cyc) : Cyc := a.map (fun x => (x.1, L - x.2 % L))

/-- The negation of a sum. -/
def Cyc.neg (a : Cyc) : Cyc := a.map (fun x => (-x.1, x.2))

/-- The prime divisors of `n` from `d` on, `fuel` trial divisors at most. -/
def primesFrom : Nat → Nat → Nat → List Nat
  | 0, _, n => if 1 < n then [n] else []
  | fuel + 1, d, n =>
    if n < d * d then (if 1 < n then [n] else [])
    else if n % d = 0 then d :: primesFrom fuel d (n / d)
    else primesFrom fuel (d + 1) n

/-- The prime divisors of `L`, each once. -/
def primesOf (L : Nat) : List Nat := (primesFrom L 2 L).dedup

/-- The sum is zero. Multiplied by `zeta ^ (L / q) - 1` for every prime divisor `q` of `L` (none of these factors is
zero), a sum is zero exactly when the product is zero at every power of `zeta`, so when its collected terms vanish. -/
def Cyc.isZero (L : Nat) (t : Cyc) : Bool :=
  ((primesOf L).foldl (fun a q => Cyc.collect L (Cyc.mul a [(1, L / q), (-1, 0)])) (Cyc.collect L t)).isEmpty

/-- The precisions tried after the first: doubled until they pass a bound below which a sum of this size that is not
zero cannot fall (its conjugates multiply to a nonzero integer). -/
def precisions (L : Nat) (t : Cyc) : List Nat :=
  let size := (t.map (fun x => x.1.natAbs)).sum
  (List.range (Nat.log2 (L * (Nat.log2 (size + 1) + 2) + 64) + 1)).map (fun i => 128 * 2 ^ i)

/-- The sign of a real: by its enclosure at 64 bits, else 0 if it is exactly zero, else by enclosures of growing
precision. `enclose P` encloses the real; `exact` is a positive multiple of it as a sum over the `L`-th roots of
unity, written out only where the first enclosure leaves the sign open. -/
def signBy (enclose : Nat → Enc) (L : Nat) (exact : Unit → Cyc) : Option Int :=
  match (enclose 64).sign? with
  | some z => some z
  | none =>
    if (exact ()).isZero L then some 0 else (precisions L (exact ())).findSome? (fun P => (enclose P).sign?)

end Sys2Proof.Machine
end

