-- ==== Sys2Proof/Machine/Slicer.lean ====
section
/-! DEFINITION. The bin selection and the decision of 43_bit_slicer.md rules R105 to R110. -/

namespace Sys2Proof.Machine

/-- `|k * FS - f * N|` (R107). -/
def binDistance (fs n f k : Nat) : Nat := ((k * fs : Int) - (f * n : Int)).natAbs

/-- `nearest(f)`: the least bin of `0 .. floor(N/2)` at the least distance (R107). -/
def nearestBin (fs n f : Nat) : Nat :=
  (List.range (n / 2 + 1)).foldl
    (fun best k => if binDistance fs n f k < binDistance fs n f best then k else best) 0

/-- `k_m` (R107). -/
def State.markBin (s : State) : Nat := nearestBin s.cfg.fs s.spb s.mark.toNat

/-- `k_s` (R107). -/
def State.spaceBin (s : State) : Nat := nearestBin s.cfg.fs s.spb s.spaceFreq

/-- `100 * w[i]`, a hundred times the Hamming window of `n` points (R105). -/
def hammingEnc (P n i : Nat) : Enc :=
  if n ≤ 1 then Enc.ofInt P 100 else (Enc.ofInt P 54).sub ((cosEnc P i (n - 1)).scale 46)

/-- `100 * Re X[k]` and `-100 * Im X[k]` over the samples from index `i` on (R106). -/
def dftEnc (P n k : Nat) : Nat → List Sample → Enc × Enc
  | _, [] => (Enc.ofInt P 0, Enc.ofInt P 0)
  | i, x :: xs =>
    let w := (hammingEnc P n i).scale x
    let r := dftEnc P n k (i + 1) xs
    ((w.mul P (cosEnc P (k * i) n)).add r.1, (w.mul P (sinEnc P (k * i) n)).add r.2)

/-- `10000 * mag[k] ^ 2` (R106). -/
def powerEnc (P k : Nat) (x : List Sample) : Enc :=
  let r := dftEnc P x.length k 0 x
  (r.1.mul P r.1).add (r.2.mul P r.2)

/-- The order of a root of unity that both the window and the transform of `n` points are made of. -/
def slicerOrder (n : Nat) : Nat := if n ≤ 1 then 1 else n * (n - 1)

/-- `100 * X[k]` over the samples from index `i` on, as a sum over the roots of unity of `slicerOrder n`. -/
def dftCyc (n k : Nat) : Nat → List Sample → Cyc
  | _, [] => []
  | i, x :: xs =>
    let L := slicerOrder n
    let turn := L - (k * i * (n - 1)) % L
    if n ≤ 1 then (100 * x, 0) :: dftCyc n k (i + 1) xs
    else (54 * x, turn) :: (-23 * x, turn + i * n) :: (-23 * x, turn + (L - (i * n) % L)) :: dftCyc n k (i + 1) xs

/-- `10000 * mag[k] ^ 2` as a sum over the roots of unity: `X[k]` times its conjugate. -/
def powerCyc (k : Nat) (x : List Sample) : Cyc :=
  let L := slicerOrder x.length
  let a := Cyc.collect L (dftCyc x.length k 0 x)
  Cyc.collect L (Cyc.mul a (Cyc.conj L a))

/-- `slice_ref(x)` for bins `km` and `ks`, where its evaluation is decided: mark if `mag[km] > mag[ks]`, ties to
space (R108). Magnitudes are compared by their squares. -/
def sliceRef? (x : List Sample) (km ks : Nat) : Option LineBit :=
  (signBy (fun P => (powerEnc P km x).sub (powerEnc P ks x)) (slicerOrder x.length)
      (fun _ => powerCyc km x ++ Cyc.neg (powerCyc ks x))).map
    (fun z => decide (0 < z))

/-- `slice(x, k_m, k_s)`: the realized decision, space whenever the two bins are one (R109, R110). -/
def slice (p : Params) (x : List Sample) (km ks : Nat) : LineBit :=
  if km = ks then LineBit.space
  else match p.slicer with
    | .reference => (sliceRef? x km ks).getD (Config.undecidedBit x km ks)
    | .realization id => Config.slicerRealization id p.fs x km ks

/-- The bit of a window under the current configuration (R103, R111, R132). -/
def State.sliceWindow (s : State) (x : List Sample) : LineBit := slice s.cfg x s.markBin s.spaceBin

end Sys2Proof.Machine
end

