-- ==== Sys2Proof/Machine/BitSlicer.lean ====
section
/-! DEFINITION. The bit slicer command: SLICE (43_bit_slicer.md rule R111). -/

namespace Sys2Proof.Machine

/-- SLICE (R111): a window of a length other than `SPB` faults with ERR_LEN; otherwise the response is its bit. -/
def execSlice (payload : List SampleBits) (s : State) : Host.Outcome State Fault Refusal :=
  .next
    (if payload.length = s.spb then
      (s.emitRsp (sliceWord (s.sliceWindow (readSamples s.cfg.sampleBits payload)))).advance
    else s.raiseFault .len)

end Sys2Proof.Machine
end

