-- ==== Sys2Proof/Machine/Rom.lean ====
section
/-! DEFINITION. The codec ROM lookups of 40_codec.md rules R74, R78 and R80. -/

namespace Sys2Proof.Machine

/-- `T(u)`, if `u` is a symbol of the table (R76). -/
def romCode (t : BaudotTable) (u : Char8) : Option Code :=
  (t.find? (fun e => e.1 == u)).map (·.2)

/-- `T⁻¹(k)`, if `k` is assigned (R76). -/
def romSymbol (t : BaudotTable) (k : Code) : Option Char8 :=
  (t.find? (fun e => e.2 == k)).map (·.1)

/-- `fold(c)`: ASCII `'a'` to `'z'` becomes `'A'` to `'Z'`, every other character stays (R78). -/
def foldCase (c : Char8) : Char8 :=
  if 0x61#8 ≤ c ∧ c ≤ 0x7A#8 then c - 0x20#8 else c

/-- `enc(c)`: the code and the fallback flag `FB` (R78, R79). -/
def encRom (t : BaudotTable) (c : Char8) : Code × Bool :=
  match romCode t (foldCase c) with
  | some k => (k, false)
  | none => (0#5, true)

/-- `dec(k)`: the character and the unknown flag `UNK`; the sentinel is `'?'` (R80). -/
def decRom (t : BaudotTable) (k : Code) : Char8 × Bool :=
  match romSymbol t k with
  | some c => (c, false)
  | none => (0x3F#8, true)

end Sys2Proof.Machine
end

