-- ==== Sys2Proof/Machine/Codec.lean ====
section
/-! DEFINITION. The Baudot codec commands: ENC and DEC (40_codec.md rules R82, R83). -/

namespace Sys2Proof.Machine

/-- ENC (R82): the response holds the code and `FB`. -/
def execEnc (char : Char8) (s : State) : Host.Outcome State Fault Refusal :=
  .next (s.emitRsp (encWord (encRom s.cfg.table char))).advance

/-- DEC (R83): the response holds the character and `UNK`. -/
def execDec (code : Code) (s : State) : Host.Outcome State Fault Refusal :=
  .next (s.emitRsp (decWord (decRom s.cfg.table code))).advance

end Sys2Proof.Machine
end

