-- ==== Sys2Proof/Machine/FrameRecovery.lean ====
section
/-! DEFINITION. The frame recovery state machine (44_frame_recovery.md rules R116 to R120) and RX.BIT (rule R122). -/

namespace Sys2Proof.Machine

/-- Arm `idle` (R117): a space is the start bit, a mark is idle tone. -/
def State.fsmIdle (b : LineBit) (s : State) : State :=
  if b = LineBit.space then { s with fsm := .collectingData, acc := 0, count := 0 } else s

/-- Arm `collecting-data` (R118): bit `count` of the code; the fifth ends the data. -/
def State.fsmCollect (b : LineBit) (s : State) : State :=
  { s with
    acc := s.acc ||| ((BitVec.ofBool b).setWidth 5 <<< s.count.toNat)
    count := s.count + 1
    fsm := if s.count + 1 = 5 then .awaitingStop else .collectingData }

/-- Arm `awaiting-stop` (R119, R120): a mark emits the character, a space is a framing error. -/
def State.fsmStop (b : LineBit) (s : State) : State :=
  if b = LineBit.mark then { s.emitRx (decRom s.cfg.table s.acc) with fsm := .idle }
  else { s with fecnt := s.fecnt + 1, fsm := .idle }

/-- `fsm_step(b)` (R116). -/
def State.fsmStep (b : LineBit) (s : State) : State :=
  match s.fsm with
  | .idle => s.fsmIdle b
  | .collectingData => s.fsmCollect b
  | .awaitingStop => s.fsmStop b

/-- RX.BIT (R122). -/
def execRxBit (bit : LineBit) (s : State) : Host.Outcome State Fault Refusal :=
  .next (s.fsmStep bit).advance

end Sys2Proof.Machine
end

