-- ==== Sys2Proof/Machine/RxStream.lean ====
section
/-! DEFINITION. The receive stream: PUSH and CLOSE (45_rx_stream.md rules R129, R135) and the steps of the consumer
agent, WIN, DEQ and END (rules R130 to R134). -/

namespace Sys2Proof.Machine

/-- An entry goes to the tail of the chunk queue, or is lost with ERR_OVF if the queue is full (R129, R135). -/
def State.offer (e : Entry) (s : State) : State :=
  if s.queueFull then s.raiseFault .ovf else (s.enqueue e).advance

/-- PUSH (R129). -/
def execPush (payload : List SampleBits) (s : State) : Host.Outcome State Fault Refusal :=
  .next (s.offer (.chunk (readSamples s.cfg.sampleBits payload)))

/-- CLOSE (R135). -/
def execClose (s : State) : Host.Outcome State Fault Refusal :=
  .next (s.offer .close)

/-- The WIN step's effect (R132): the oldest `SPB` samples are cut off, sliced, and their bit fed to the frame
recovery state machine. -/
def State.consumerWin (s : State) : State :=
  ({ s with buf := s.buf.drop s.spb }).fsmStep (s.sliceWindow (s.buf.take s.spb))

/-- The consumer's enabled step, if it has one: WIN before DEQ and END (R130 to R133). -/
def consumerStep (s : State) : Option State :=
  if s.closed then none
  else if s.spb ≤ s.buf.length then some s.consumerWin
  else match s.q with
    | .chunk l :: rest => some { s with q := rest, buf := s.buf ++ l }
    | .close :: rest => some { s with q := rest, closed := true }
    | [] => none

/-- `consumer_quiescent()` (R134). -/
def State.quiescent (s : State) : Bool :=
  s.closed || (decide (s.buf.length < s.spb) && s.q.isEmpty)

/-- At most `n` consumer steps in a row, fewer if the consumer becomes quiescent. -/
def consumerRun : Nat → State → State
  | 0, s => s
  | n + 1, s =>
    match consumerStep s with
    | none => s
    | some t => consumerRun n t

end Sys2Proof.Machine
end

