-- ==== Sys2Proof/Machine/Control.lean ====
section
/-! DEFINITION. Configuration and control: CFG.WR, CFG.RD, NOP, SYNC (46_control.md rules R142, R143, R148, R150) and
RESET (70_reset_and_hazards.md rule R172). -/

namespace Sys2Proof.Machine

/-- An accepted register write, with the flush of R147 when FLUSH_ON_RECONF is 1 and the register is MARK, SHIFT or
BAUD (R142). -/
def State.acceptWrite (s : State) (r : Reg) (v : Word) : State :=
  let t := s.writeReg r v
  (if r.isTone && s.flushOnReconf then t.flushRx else t).advance

/-- CFG.WR (R142): ERR_ILL for a read-only or reserved index, ERR_CFG for an illegal value. -/
def execCfgWr (reg : BitVec 4) (data : BitVec 24) (s : State) : Host.Outcome State Fault Refusal :=
  .next
    (match Reg.ofIndex reg with
      | none => s.raiseFault .ill
      | some r =>
        if r.writable then
          if s.legalValue r (writeValue data) then s.acceptWrite r (writeValue data) else s.raiseFault .cfg
        else s.raiseFault .ill)

/-- CFG.RD (R143): ERR_ILL for a reserved index. -/
def execCfgRd (reg : BitVec 4) (s : State) : Host.Outcome State Fault Refusal :=
  .next
    (match Reg.ofIndex reg with
      | none => s.raiseFault .ill
      | some r => (s.emitRsp (s.readReg r)).advance)

/-- NOP (R148). -/
def execNop (s : State) : Host.Outcome State Fault Refusal :=
  .next s.advance

/-- SYNC (R150): it proceeds when the consumer is quiescent; until then the host waits, and nothing changes. -/
def execSync (s : State) : Host.Outcome State Fault Refusal :=
  .next (if s.quiescent then s.advance else s)

/-- RESET (R172). -/
def execReset (s : State) : Host.Outcome State Fault Refusal :=
  .next s.resetCore.advance

end Sys2Proof.Machine
end

