-- ==== Sys2Proof/Machine/FrameEncoder.lean ====
section
/-! DEFINITION. The frame encoder: the frame function of 41_frame_encoder.md rule R85 and FRAME (rule R88). -/

namespace Sys2Proof.Machine

/-- `build_frame(c, S)`: a start bit, the five bits of the code least significant first, `S` stop bits; and the
fallback flag (R85). -/
def buildFrame (t : BaudotTable) (c : Char8) (stops : Nat) : List LineBit × Bool :=
  let r := encRom t c
  (LineBit.space :: ((List.range 5).map (fun i => r.1.getLsbD i) ++ List.replicate stops LineBit.mark), r.2)

/-- FRAME (R88): the response is the frame word of the character with `REG.STOPB` stop bits. -/
def execFrame (char : Char8) (s : State) : Host.Outcome State Fault Refusal :=
  .next (s.emitRsp (frameWord (buildFrame s.cfg.table char s.stopb.toNat))).advance

end Sys2Proof.Machine
end

