-- ==== Sys2Proof/Machine/Tone.lean ====
section
/-! DEFINITION. The oscillator and the sample function of 42_tone_synth.md rules R93 to R97. -/

namespace Sys2Proof.Machine

/-- `2 ^ (B - 1) - 1`, the sample of amplitude 1.0 (R96). -/
def fullScale (bits : Nat) : Nat := 2 ^ (bits - 1) - 1

/-- `2 * A * sin(2 * pi * r / FS)`. -/
def twiceSine (P fs amp r : Nat) : Enc := (sinEnc P r fs).scale (2 * amp)

/-- `floor(z / 2 ^ P / 65536 + 1 / 2)`, 0 if that is negative. -/
def halfUpFloor (P : Nat) (z : Int) : Nat := ((z + 32768 * 2 ^ P) / (65536 * 2 ^ P)).toNat

/-- `2 * A * sin(2 * pi * r / FS) - b` as a sum over the roots of unity of order `4 * FS`, where the sine is a
cosine a quarter turn earlier. -/
def twiceSineCyc (fs amp r : Nat) (b : Int) : Cyc :=
  let e := (4 * (r % fs) + 3 * fs) % (4 * fs)
  [((amp : Int), e), ((amp : Int), 4 * fs - e), (-b, 0)]

/-- Of the two candidates `k` and `k + 1`, the one that `floor(A * sin(2 * pi * r / FS) / 32768 + 1 / 2)` is: by the
sign of `2 * A * sin - 32768 * (2 * k + 1)`. -/
def pickRounded (fs amp r k : Nat) : Option Nat :=
  (signBy (fun P => (twiceSine P fs amp r).sub (Enc.ofInt P (32768 * (2 * k + 1)))) (4 * fs)
      (fun _ => twiceSineCyc fs amp r (32768 * (2 * k + 1)))).map
    (fun z => if 0 ≤ z then k + 1 else k)

/-- `floor(A * sin(2 * pi * r / FS) / 32768 + 1 / 2)` for an angle in the first half turn: an enclosure leaves one
candidate, or two that are told apart exactly. -/
def roundedSine? (fs amp r : Nat) : Option Nat :=
  let k := halfUpFloor 64 (twiceSine 64 fs amp r).lo
  let k' := halfUpFloor 64 (twiceSine 64 fs amp r).hi
  if k = k' then some k else if k' = k + 1 then pickRounded fs amp r k else none

/-- `synth_ref(v, p)`, where its evaluation is decided (R96): the sign of the sine is that of the half turn the phase
lies in, and rounding half away from zero is symmetric. -/
def synthRef? (fs bits volume phase : Nat) : Option Sample :=
  let amp := volume * fullScale bits
  let r := phase % fs
  if 2 * r ≤ fs then (roundedSine? fs amp r).map (fun k : Nat => (k : Int))
  else (roundedSine? fs amp (fs - r)).map (fun k : Nat => -(k : Int))

/-- A value kept in the range of R97, `-(2 ^ (B - 1) - 1) .. 2 ^ (B - 1) - 1`. -/
def clampSample (bits : Nat) (z : Int) : Sample := max (-(fullScale bits : Int)) (min (fullScale bits : Int) z)

/-- `synth(v, p)`: the realized sample (R97). -/
def synth (p : Params) (volume phase : Nat) : Sample :=
  clampSample p.sampleBits
    (match p.synth with
      | .reference =>
        (synthRef? p.fs p.sampleBits volume phase).getD (Config.undecidedSample p.fs p.sampleBits volume phase)
      | .realization id => Config.synthRealization id p.fs p.sampleBits volume phase)

/-- The `n` samples of one bit at frequency `f` from phase `p`, and the phase after them (R92, R93). -/
def renderBit (cfg : Params) (volume f : Nat) : Nat → Nat → List Sample × Nat
  | 0, p => ([], p)
  | n + 1, p =>
    let r := renderBit cfg volume f n ((p + f) % cfg.fs)
    (synth cfg volume p :: r.1, r.2)

/-- The loop of R93 over the bits. -/
def renderBits (s : State) : List LineBit → Nat → List Sample × Nat
  | [], p => ([], p)
  | b :: bs, p =>
    let r := renderBit s.cfg s.volume.toNat (s.toneFreq b) s.spb (if s.phaseCont then p else 0)
    let rest := renderBits s bs r.2
    (r.1 ++ rest.1, rest.2)

/-- `render(bits, p0)`: the samples and the phase the command leaves (R93 to R95). -/
def render (s : State) (bits : List LineBit) (p0 : Nat) : List Sample × Nat :=
  let r := renderBits s bits p0
  (r.1, if s.phaseCont then r.2 else 0)

end Sys2Proof.Machine
end

