-- ==== Sys2Proof/Machine/ToneSynth.lean ====
section
/-! DEFINITION. The tone synthesizer commands: TX.BIT and TX.CHAR (42_tone_synth.md rules R98, R99). -/

namespace Sys2Proof.Machine

/-- The samples of a list of bits go to the TX stream and the phase they leave to `S.phase` (R98, R99). -/
def State.transmit (bits : List LineBit) (s : State) : State :=
  let r := render s bits s.phase
  (s.emitTx r.1).setPhase r.2

/-- TX.BIT (R98). -/
def execTxBit (bit : LineBit) (s : State) : Host.Outcome State Fault Refusal :=
  .next (s.transmit [bit]).advance

/-- TX.CHAR (R99): the frame of the character with `REG.STOPB` stop bits; its fallback flag is discarded. -/
def execTxChar (char : Char8) (s : State) : Host.Outcome State Fault Refusal :=
  .next (s.transmit (buildFrame s.cfg.table char s.stopb.toNat).1).advance

end Sys2Proof.Machine
end

