-- ==== Sys2Proof/Machine/Dispatch.lean ====
section
/-! DEFINITION. The one dispatch: one arm per constructor of Instr. -/

namespace Sys2Proof.Machine

def exec (i : Instr) (s : State) : Host.Outcome State Fault Refusal :=
  match i with
  | .nop => Sys2Proof.Machine.execNop s
  | .cfgWr reg data => Sys2Proof.Machine.execCfgWr reg data s
  | .cfgRd reg => Sys2Proof.Machine.execCfgRd reg s
  | .enc char => Sys2Proof.Machine.execEnc char s
  | .dec code => Sys2Proof.Machine.execDec code s
  | .frame char => Sys2Proof.Machine.execFrame char s
  | .txBit bit => Sys2Proof.Machine.execTxBit bit s
  | .txChar char => Sys2Proof.Machine.execTxChar char s
  | .slice payload => Sys2Proof.Machine.execSlice payload s
  | .rxBit bit => Sys2Proof.Machine.execRxBit bit s
  | .push payload => Sys2Proof.Machine.execPush payload s
  | .close => Sys2Proof.Machine.execClose s
  | .sync => Sys2Proof.Machine.execSync s
  | .reset => Sys2Proof.Machine.execReset s

end Sys2Proof.Machine
end

