-- ==== Sys2Proof/Machine/HostAgent.lean ====
section
/-! DEFINITION. The host agent and the choice between the two agents: fetching a command from the host's stream
(30_encoding.md rules R56, R69), the host's step, and the interleaving of 20_memory.md rule R47. -/

namespace Sys2Proof.Machine

/-- The first `n` items of a stream as payload samples, and the rest; `none` if they are not `n` samples. -/
def takeSamples : Nat → List Item → Option (List SampleBits × List Item)
  | 0, items => some ([], items)
  | _ + 1, [] => none
  | _ + 1, .word _ :: _ => none
  | n + 1, .sample x :: items => (takeSamples n items).map (fun r => (x :: r.1, r.2))

/-- A command at the head of a stream: its word, its payload, and the stream after it (R69). -/
structure Fetched where
  word : Word
  payload : List SampleBits
  rest : List Item
deriving DecidableEq, Repr

/-- The command at the head of the stream, if the host has supplied all of it (R56, R69). -/
def fetch : List Item → Option Fetched
  | [] => none
  | .sample _ :: _ => none
  | .word w :: items => (takeSamples (payloadLen w) items).map (fun r => ⟨w, r.1, r.2⟩)

/-- The host's next command is a legal SYNC, which waits (R150); an illegal word does not. -/
def Fetched.waits (f : Fetched) : Bool :=
  match decode f.word f.payload with
  | .ok .sync => true
  | _ => false

/-- The command the host has enabled at this state, if any: a SYNC only when the consumer is quiescent (R150). -/
def hostReady (s : State) : Option Fetched :=
  match fetch s.stream with
  | none => none
  | some f => if f.waits && !s.quiescent then none else some f

/-- An outcome's next state with the stream moved past the command; another outcome as it is. -/
def withStream (rest : List Item) : Host.Outcome State Fault Refusal → Host.Outcome State Fault Refusal
  | .next s => .next { s with stream := rest }
  | .fault f => .fault f
  | .refused r => .refused r

/-- One host step: the command's meaning, or ERR_ILL for an illegal word (R65, R66, R158), and the stream moved past
the word and its payload in either case. -/
def hostStep (f : Fetched) (s : State) : Host.Outcome State Fault Refusal :=
  match decode f.word f.payload with
  | .ok i => withStream f.rest (exec i s)
  | .error _ => withStream f.rest (.next (s.raiseFault .ill))

/-- The agent that is offered the next step, and the state with that choice used up. Where no choice is pending a
new stretch begins: some number of offers to the host, which is a free value, then one to the consumer (R12, R47). -/
def drawTurn (s : State) : Agent × State :=
  match s.sched with
  | a :: rest => (a, { s with sched := rest })
  | [] =>
    match Config.hostBurst s.epoch with
    | 0 => (.consumer, { s with epoch := s.epoch + 1 })
    | n + 1 => (.host, { s with sched := List.replicate n .host ++ [.consumer], epoch := s.epoch + 1 })

/-- Neither agent has a step to take (R176). -/
def stuck (s : State) : Fault :=
  if s.stream.isEmpty then .runFinished else .streamIncomplete

/-- One step of the run: of the agent that is offered it if that agent has one enabled, else of the other (R47). -/
def turn (a : Agent) (s : State) : Host.Outcome State Fault Refusal :=
  match a, hostReady s, consumerStep s with
  | .host, some f, _ => hostStep f s
  | .host, none, some t => .next t
  | .consumer, _, some t => .next t
  | .consumer, some f, none => hostStep f s
  | _, none, none => .fault (stuck s)

end Sys2Proof.Machine
end

