-- ==== Sys2Proof/Machine/Step.lean ====
section
/-! DEFINITION. One step of a run, and a command placed where the next step takes it. -/

namespace Sys2Proof.Machine

/-- One step of a run: the schedule offers it to an agent, and it is taken (20_memory.md rule R47). -/
def step (s : State) : Host.Outcome State Fault Refusal :=
  turn (drawTurn s).1 (drawTurn s).2

/-- The state with the command whose word is `w`, its payload of zeros, next in the host's stream and the next step
offered to the host. -/
def State.withFetchWord (s : State) (nbits w : Nat) : State :=
  { s with stream := tableItems nbits w ++ s.stream, sched := .host :: s.sched }

end Sys2Proof.Machine
end

