-- ==== Sys2Proof/Machine/Assembler.lean ====
section
/-! DEFINITION. The assembler syntax of 30_encoding.md rule R71 and the pseudo-instructions of rule R72. The host's
tool, not the core's: no step depends on it. A source text is its bytes, each as the character of that code. -/

namespace Sys2Proof.Machine

/-- `TX.STR` (R72): one TX.CHAR per byte. -/
def pseudoTxStr (text : List Char8) : List Instr := text.map .txChar

/-- `RX.BITS` (R72): one RX.BIT per bit. -/
def pseudoRxBits (bits : List LineBit) : List Instr := bits.map .rxBit

/-- `IDLE n` (R72): `n` copies of `TX.BIT mark`. -/
def pseudoIdle (n : Nat) : List Instr := List.replicate n (.txBit LineBit.mark)

/-- `CFG.TONE m, s, b` (R72). -/
def pseudoCfgTone (m s b : BitVec 24) : List Instr := [.cfgWr 1 50, .cfgWr 0 m, .cfgWr 1 s, .cfgWr 2 b]

/-- What a line is made of. A number keeps the form it was written in: decimal, decimal after a minus sign, or
hexadecimal (R71). -/
inductive Token where
  | name (s : List Char)
  | num (n : Nat)
  | neg (n : Nat)
  | hex (n : Nat)
  | char (c : Nat)
  | text (s : List Nat)
  | comma
  | lbrace
  | rbrace
deriving DecidableEq, Repr

/-- A decimal or hexadecimal digit's value. -/
def digitValue (c : Char) : Option Nat :=
  let n := c.toNat
  if 0x30 ≤ n ∧ n ≤ 0x39 then some (n - 0x30)
  else if 0x41 ≤ n ∧ n ≤ 0x46 then some (n - 0x37)
  else if 0x61 ≤ n ∧ n ≤ 0x66 then some (n - 0x57)
  else none

/-- The number that digits of a base write, after `acc`. -/
def digitsValue (base : Nat) : Nat → List Char → Option Nat
  | acc, [] => some acc
  | acc, c :: cs =>
    match digitValue c with
    | some d => if d < base then digitsValue base (acc * base + d) cs else none
    | none => none

/-- The number that one or more digits of a base write. -/
def digits (base : Nat) (s : List Char) : Option Nat :=
  if s.isEmpty then none else digitsValue base 0 s

/-- A decimal number, or a hexadecimal one after `0x` (R71). -/
def numberOf (s : List Char) : Option Token :=
  match s with
  | '0' :: 'x' :: cs => (digits 16 cs).map .hex
  | _ => (digits 10 s).map .num

/-- A letter, a digit, a dot or an underscore. -/
def isWordChar (c : Char) : Bool :=
  let n := c.toNat
  decide (0x30 ≤ n ∧ n ≤ 0x39) || decide (0x41 ≤ n ∧ n ≤ 0x5A) || decide (0x61 ≤ n ∧ n ≤ 0x7A) || n == 0x2E || n == 0x5F

/-- The token that a run of word characters is: a number if it begins with a digit, else a name. -/
def wordToken (s : List Char) : Option Token :=
  match s with
  | [] => none
  | c :: _ =>
    if c.toNat ≤ 0x39 ∧ 0x30 ≤ c.toNat then numberOf s else some (.name s)

/-- The tokens of one line; a comment runs from `;` to its end (R71). `fuel` is at least the line's length. DESIGN
CHOICE, log entry 17: no token begins with a plus sign; 0x0D is a blank, as the space and the tab are; and a blank is
needed only between two tokens that would otherwise run together into one, so not before a quote or a brace. -/
def tokens : Nat → List Char → Option (List Token)
  | _, [] => some []
  | 0, _ :: _ => none
  | fuel + 1, c :: cs =>
    match c.toNat with
    | 0x20 | 0x09 | 0x0D => tokens fuel cs
    | 0x3B => some []
    | 0x2C => (tokens fuel cs).map (fun r => .comma :: r)
    | 0x7B => (tokens fuel cs).map (fun r => .lbrace :: r)
    | 0x7D => (tokens fuel cs).map (fun r => .rbrace :: r)
    | 0x22 =>
      let body := cs.takeWhile (fun d => d.toNat != 0x22)
      match cs.drop body.length with
      | [] => none
      | _ :: rest => (tokens fuel rest).map (fun r => .text (body.map Char.toNat) :: r)
    | 0x27 =>
      match cs.map Char.toNat with
      | 0x5C :: 0x27 :: 0x27 :: _ => (tokens fuel (cs.drop 3)).map (fun r => .char 0x27 :: r)
      | d :: 0x27 :: _ =>
        if 0x20 ≤ d ∧ d ≤ 0x7E ∧ d ≠ 0x27 then (tokens fuel (cs.drop 2)).map (fun r => .char d :: r) else none
      | _ => none
    | 0x2D =>
      let body := cs.takeWhile isWordChar
      match digits 10 body with
      | some n => (tokens fuel (cs.drop body.length)).map (fun r => .neg n :: r)
      | none => none
    | _ =>
      let body := (c :: cs).takeWhile isWordChar
      match wordToken body with
      | some t => (tokens fuel ((c :: cs).drop body.length)).map (fun r => t :: r)
      | none => none

/-- A number that fits a field of `width` bits; any other is refused (R71). -/
def fieldOf (width : Nat) (n : Nat) : Option (BitVec width) :=
  if n < 2 ^ width then some (BitVec.ofNat width n) else none

/-- The index of a register's name (R14, R71). -/
def regIndexOf (s : List Char) : Option (BitVec 4) :=
  if s = ['M', 'A', 'R', 'K'] then some 0x0
  else if s = ['S', 'H', 'I', 'F', 'T'] then some 0x1
  else if s = ['B', 'A', 'U', 'D'] then some 0x2
  else if s = ['S', 'T', 'O', 'P', 'B'] then some 0x3
  else if s = ['V', 'O', 'L', 'U', 'M', 'E'] then some 0x4
  else if s = ['C', 'T', 'R', 'L'] then some 0x5
  else if s = ['F', 'S'] then some 0x6
  else if s = ['S', 'P', 'B'] then some 0x7
  else if s = ['S', 'T', 'A', 'T', 'U', 'S'] then some 0x8
  else if s = ['R', 'X', 'S', 'T', 'A', 'T', 'E'] then some 0x9
  else if s = ['F', 'E', 'C', 'N', 'T'] then some 0xA
  else if s = ['B', 'U', 'F', 'L', 'E', 'N'] then some 0xB
  else if s = ['Q', 'L', 'E', 'N'] then some 0xC
  else if s = ['P', 'H', 'A', 'S', 'E'] then some 0xD
  else none

/-- A number, decimal or hexadecimal (R71). -/
def Token.number : Token → Option Nat
  | .num n => some n
  | .hex n => some n
  | .name _ | .neg _ | .char _ | .text _ | .comma | .lbrace | .rbrace => none

/-- A plain number operand of `width` bits. -/
def numOperand (width : Nat) (t : Token) : Option (BitVec width) :=
  t.number.bind (fieldOf width)

/-- A register operand: a name or a number 0 to 15 (R71). -/
def regOperand : Token → Option (BitVec 4)
  | .name s => regIndexOf s
  | t => numOperand 4 t

/-- A character operand: quoted, or a number 0 to 255 (R71). -/
def charOperand : Token → Option Char8
  | .char c => some (BitVec.ofNat 8 c)
  | t => numOperand 8 t

/-- A bit operand: `0`, `1`, `space` or `mark` (R71). -/
def bitOperand : Token → Option LineBit
  | .num n => if n = 0 then some LineBit.space else if n = 1 then some LineBit.mark else none
  | .name s =>
    if s = ['s', 'p', 'a', 'c', 'e'] then some LineBit.space
    else if s = ['m', 'a', 'r', 'k'] then some LineBit.mark
    else none
  | _ => none

/-- A sample's number: a signed decimal integer (R71). -/
def Token.signedDecimal : Token → Option Int
  | .num n => some n
  | .neg n => some (-n)
  | .name _ | .hex _ | .char _ | .text _ | .comma | .lbrace | .rbrace => none

/-- A sample that fits `bits` bits, as its bits; any other is refused (R63, R71). -/
def sampleOperand (bits : Nat) (t : Token) : Option SampleBits :=
  match t.signedDecimal with
  | some z => if -(2 ^ (bits - 1) : Int) ≤ z ∧ z < 2 ^ (bits - 1) then some (sampleBitsOf bits z) else none
  | none => none

/-- The samples of a list after its first, up to the closing brace that ends the line. -/
def moreSamples (bits : Nat) : List Token → Option (List SampleBits)
  | [.rbrace] => some []
  | .comma :: t :: rest =>
    match sampleOperand bits t, moreSamples bits rest with
    | some x, some xs => some (x :: xs)
    | _, _ => none
  | _ => none

/-- A sample list between braces, of at most 16777215 samples (R71). -/
def sampleList (bits : Nat) : List Token → Option (List SampleBits)
  | [.lbrace, .rbrace] => some []
  | .lbrace :: t :: rest =>
    match sampleOperand bits t, moreSamples bits rest with
    | some x, some xs => if xs.length + 1 < 2 ^ 24 then some (x :: xs) else none
    | _, _ => none
  | _ => none

/-- The commands with one operand, made from it. -/
def oneOperand {α : Type} (operand : Token → Option α) (make : α → Instr) : List Token → Option (List Instr)
  | [t] => (operand t).map (fun a => [make a])
  | _ => none

/-- The commands with no operand. -/
def noOperand (i : Instr) : List Token → Option (List Instr)
  | [] => some [i]
  | _ => none

/-- Every element's image, if each has one. -/
def allOf {α β : Type} (f : α → Option β) : List α → Option (List β)
  | [] => some []
  | a :: as =>
    match f a, allOf f as with
    | some b, some bs => some (b :: bs)
    | _, _ => none

/-- The pseudo-instructions (R72). DESIGN CHOICE, log entry 17: RX.BITS may name no bit, and then stands for no
command; so may TX.STR with an empty text and IDLE with 0. -/
def pseudoLine (m : List Char) (ops : List Token) : Option (List Instr) :=
  if m = ['T', 'X', '.', 'S', 'T', 'R'] then
    match ops with
    | [.text s] => (allOf (fieldOf 8) s).map pseudoTxStr
    | _ => none
  else if m = ['R', 'X', '.', 'B', 'I', 'T', 'S'] then (allOf bitOperand ops).map pseudoRxBits
  else if m = ['I', 'D', 'L', 'E'] then
    match ops with
    | [n] => n.number.map pseudoIdle
    | _ => none
  else if m = ['C', 'F', 'G', '.', 'T', 'O', 'N', 'E'] then
    match ops with
    | [m, .comma, s, .comma, b] =>
      match numOperand 24 m, numOperand 24 s, numOperand 24 b with
      | some m, some s, some b => some (pseudoCfgTone m s b)
      | _, _, _ => none
    | _ => none
  else none

/-- The commands one line stands for (R71, R72); `none` if the assembler refuses it. -/
def parseLine (bits : Nat) : List Token → Option (List Instr)
  | [] => some []
  | .name m :: ops =>
    if m = ['N', 'O', 'P'] then noOperand .nop ops
    else if m = ['C', 'F', 'G', '.', 'W', 'R'] then
      match ops with
      | [r, .comma, d] =>
        match regOperand r, numOperand 24 d with
        | some r, some d => some [.cfgWr r d]
        | _, _ => none
      | _ => none
    else if m = ['C', 'F', 'G', '.', 'R', 'D'] then oneOperand regOperand .cfgRd ops
    else if m = ['E', 'N', 'C'] then oneOperand charOperand .enc ops
    else if m = ['D', 'E', 'C'] then oneOperand (numOperand 5) .dec ops
    else if m = ['F', 'R', 'A', 'M', 'E'] then oneOperand charOperand .frame ops
    else if m = ['T', 'X', '.', 'B', 'I', 'T'] then oneOperand bitOperand .txBit ops
    else if m = ['T', 'X', '.', 'C', 'H', 'A', 'R'] then oneOperand charOperand .txChar ops
    else if m = ['S', 'L', 'I', 'C', 'E'] then (sampleList bits ops).map (fun l => [.slice l])
    else if m = ['R', 'X', '.', 'B', 'I', 'T'] then oneOperand bitOperand .rxBit ops
    else if m = ['P', 'U', 'S', 'H'] then (sampleList bits ops).map (fun l => [.push l])
    else if m = ['C', 'L', 'O', 'S', 'E'] then noOperand .close ops
    else if m = ['S', 'Y', 'N', 'C'] then noOperand .sync ops
    else if m = ['R', 'E', 'S', 'E', 'T'] then noOperand .reset ops
    else pseudoLine m ops
  | _ => none

/-- The lines of a source text. DESIGN CHOICE, log entry 17: 0x0A ends a line, and nothing else does. -/
def sourceLines : List Char → List (List Char)
  | [] => [[]]
  | c :: cs =>
    match c.toNat, sourceLines cs with
    | 0x0A, ls => [] :: ls
    | _, l :: ls => (c :: l) :: ls
    | _, [] => [[c]]

/-- The commands of one line of source. -/
def assembleLine (bits : Nat) (line : List Char) : Option (List Instr) :=
  match tokens line.length line with
  | some ts => parseLine bits ts
  | none => none

/-- The commands of a source text, one command a line; `none` if the assembler refuses a line (R71). -/
def assemble (bits : Nat) (source : List Char) : Option (List Instr) :=
  (allOf (assembleLine bits) (sourceLines source)).map List.flatten

end Sys2Proof.Machine
end

