-- ==== Sys2Proof/Machine/Reference.lean ====
section
/-! DEFINITION. The two reference functions as the spec gives them, over the exact real functions (00_scope.md rule
R8): the reference sample of 42_tone_synth.md rule R96 and the decision of 43_bit_slicer.md rules R105 to R108. The
machine does not call these (reals do not compute); it evaluates them by `synthRef?` and `sliceRef?`. -/

namespace Sys2Proof.Machine

/-- `round_half_away(x) = sign(x) * floor(|x| + 1/2)` (R8). -/
noncomputable def roundHalfAway (x : ℝ) : ℤ := (SignType.sign x : ℤ) * ⌊|x| + 1 / 2⌋

/-- `synth_ref(v, p)` for the instance's `FS` and `SAMPLE_BITS` (R96). -/
noncomputable def synthRefReal (fs bits volume phase : ℕ) : ℤ :=
  roundHalfAway (((volume : ℝ) / 32768) * Real.sin (2 * Real.pi * phase / fs) * (2 ^ (bits - 1) - 1))

/-- `w[i]`, the symmetric Hamming window of `n` points (R105). -/
noncomputable def hammingReal (n i : ℕ) : ℝ :=
  if n = 1 then 1 else 0.54 - 0.46 * Real.cos (2 * Real.pi * i / ((n : ℝ) - 1))

/-- `X[k]`, the transform of the weighted window (R106). -/
noncomputable def dftReal (x : List Sample) (k : ℕ) : ℂ :=
  ∑ i ∈ Finset.range x.length,
    (hammingReal x.length i : ℂ) * ((x.getD i 0 : ℤ) : ℂ) *
      Complex.exp (-2 * Real.pi * Complex.I * k * i / x.length)

/-- `mag[k]` (R106). -/
noncomputable def magReal (x : List Sample) (k : ℕ) : ℝ := ‖dftReal x k‖

end Sys2Proof.Machine
end

