-- ==== Sys2Proof/Machine/Transport.lean ====
section
/-! DEFINITION. A transport of the host's stream as bytes, little-endian (20_memory.md rule R44). No step of the core
depends on it: the core takes whole words and samples. -/

namespace Sys2Proof.Machine

/-- The `n` low bytes of a 32-bit value, least significant first (R44). -/
def lowBytes (n : Nat) (x : BitVec 32) : List (BitVec 8) :=
  (List.range n).map (fun i => x.extractLsb' (8 * i) 8)

/-- The value of bytes, least significant first (R44). -/
def ofLowBytes : List (BitVec 8) → BitVec 32
  | [] => 0
  | b :: bs => b.setWidth 32 ||| (ofLowBytes bs <<< 8)

/-- The bytes that carry one sample of `bits` bits: as few as hold it. Log entry 10. -/
def sampleByteCount (bits : Nat) : Nat := (bits + 7) / 8

/-- An item as the transport carries it. -/
def itemBytes (bits : Nat) : Item → List (BitVec 8)
  | .word w => lowBytes 4 w
  | .sample x => lowBytes (sampleByteCount bits) x

/-- A stream as the transport carries it. -/
def streamBytes (bits : Nat) (items : List Item) : List (BitVec 8) := items.flatMap (itemBytes bits)

/-- The stream that bytes carry, `pending` payload samples being due before the next word; `none` if the bytes end
inside an item. `fuel` is at least the number of items. -/
def streamOfBytes (bits : Nat) : Nat → Nat → List (BitVec 8) → Option (List Item)
  | 0, _, bytes => if bytes.isEmpty then some [] else none
  | fuel + 1, 0, bytes =>
    if bytes.isEmpty then some []
    else if bytes.length < 4 then none
    else
      let w := ofLowBytes (bytes.take 4)
      (streamOfBytes bits fuel (payloadLen w) (bytes.drop 4)).map (fun r => .word w :: r)
  | fuel + 1, pending + 1, bytes =>
    if bytes.isEmpty then some []
    else if bytes.length < sampleByteCount bits then none
    else
      (streamOfBytes bits fuel pending (bytes.drop (sampleByteCount bits))).map
        (fun r => .sample (ofLowBytes (bytes.take (sampleByteCount bits))) :: r)

end Sys2Proof.Machine
end

