-- ==== Sys2Proof/Safety.lean ====
section
/-! DEFINITION. What holds of every state a legal instance can reach, and what a run is. -/

namespace Sys2Proof.Machine

/-- A sample lies in the range of `bits`-bit two's complement (R63). -/
def SampleInRange (bits : Nat) (z : Sample) : Prop := -(2 ^ (bits - 1) : Int) ≤ z ∧ z < (2 ^ (bits - 1) : Int)

/-- The invariants the spec states of every reachable state. -/
structure State.Inv (s : State) : Prop where
  /-- The parameters are legal (R5). -/
  params_legal : s.cfg.legal = true
  /-- SHIFT holds a legal value (R16, R144). -/
  shift_range : 50 ≤ s.shift.toNat ∧ s.shift.toNat ≤ 500
  /-- The space frequency is at least 1 Hz (R17). -/
  shift_lt_mark : s.shift.toNat < s.mark.toNat
  /-- BAUD holds a legal value (R18, R144), so that `SPB >= 1` (R146). -/
  baud_range : 1 ≤ s.baud.toNat ∧ s.baud.toNat ≤ 100 * s.cfg.fs
  /-- STOPB is never 0 (R19, R90). -/
  stopb_pos : 1 ≤ s.stopb.toNat
  /-- VOLUME is at most amplitude 1.0 (R20). -/
  volume_le : s.volume.toNat ≤ 32768
  /-- While collecting, at most 4 bits have arrived and the accumulator holds no other (R31). -/
  collecting : s.fsm = .collectingData → s.count.toNat ≤ 4 ∧ s.acc.toNat < 2 ^ s.count.toNat
  /-- While awaiting the stop bit, 5 bits have arrived (R31). -/
  awaiting : s.fsm = .awaitingStop → s.count.toNat = 5
  /-- The bit count is 0 to 5 (R25). -/
  count_le : s.count.toNat ≤ 5
  /-- The phase is below `FS` (R36). -/
  phase_lt : s.phase < s.cfg.fs
  /-- A finite queue holds at most its capacity (R34). -/
  queue_cap : ∀ cap, s.cfg.queueCap = some cap → s.q.length ≤ cap
  /-- Every queued chunk is as long as a `LEN` field can say and holds samples of the instance's width (R63). -/
  queue_chunks : ∀ l, Entry.chunk l ∈ s.q →
    l.length < 2 ^ 24 ∧ ∀ z ∈ l, SampleInRange s.cfg.sampleBits z
  /-- Every buffered sample is of the instance's width (R63). -/
  buf_samples : ∀ z ∈ s.buf, SampleInRange s.cfg.sampleBits z
  /-- The buffer never outgrows a window and a chunk, so `BUFLEN` holds its length whole (R27, R130). -/
  buf_length : s.buf.length < 100 * s.cfg.fs + 2 ^ 24

/-- A state a run starts from: power-on reset of a legal instance, with any command stream from the host and any
choices of schedule (R12, R173). -/
def State.Initial (s : State) : Prop :=
  ∃ (p : Params) (stream : List Item) (sched : List Agent) (epoch : Nat),
    p.legal = true ∧ s = { State.resetWith p with stream := stream, sched := sched, epoch := epoch }

/-- The states of the runs: every interleaving of the two agents' steps (R12, R47). -/
inductive Reachable : State → Prop where
  | start {s : State} (h : s.Initial) : Reachable s
  | next {s t : State} (h : Reachable s) (hs : step s = .next t) : Reachable t

/-- The state after `n` steps, if the run goes on that long. -/
def runSteps (n : Nat) (s : State) : Host.Outcome State Fault Refusal :=
  match n with
  | 0 => .next s
  | n + 1 =>
    match step s with
    | .next t => runSteps n t
    | .fault f => .fault f
    | .refused r => .refused r

end Sys2Proof.Machine
end

