-- ==== Sys2Proof/Certificates/Slice0/Obligations.lean ====
section
/-! DEFINITION. The statements for the provers, with the few notions of the spec they are written in. A statement
about every state quantifies over every legal and illegal instance, schedule and host stream alike, since the state
holds them. -/

namespace Sys2Proof.Spec

open Sys2Proof.Machine

/-- The reserved bits of the format of each opcode 0x0 to 0xD, as the table of R57 gives them. -/
def reservedBits : Nat → Nat
  | 0x0 => 0x0FFFFFFF
  | 0x1 => 0
  | 0x2 => 0x00FFFFFF
  | 0x3 => 0x0FFFFF00
  | 0x4 => 0x0FFFFFE0
  | 0x5 => 0x0FFFFF00
  | 0x6 => 0x0FFFFFFE
  | 0x7 => 0x0FFFFF00
  | 0x8 => 0x0F000000
  | 0x9 => 0x0FFFFFFE
  | 0xA => 0x0F000000
  | 0xB => 0x0FFFFFFF
  | 0xC => 0x0FFFFFFF
  | 0xD => 0x0FFFFFFF
  | _ => 0

/-- How many payload samples follow a word of value `w` (R65, R69). -/
def lenOf (w : Nat) : Nat := if w / 2 ^ 28 = 0x8 ∨ w / 2 ^ 28 = 0xA then w % 2 ^ 24 else 0

/-- `floor(FS * 100 / BAUD)` (R7). -/
def spbOf (s : State) : Nat := s.cfg.fs * 100 / s.baud.toNat

/-- The tone frequency of a bit (R91). -/
def freqOf (s : State) (b : LineBit) : Nat := if b then s.mark.toNat else s.mark.toNat - s.shift.toNat

/-- The table of R144: which values each read-write register takes; no other index takes any. -/
def legalAt (s : State) (reg v : Nat) : Bool :=
  match reg with
  | 0x0 => decide (s.shift.toNat < v ∧ v ≤ 65535)
  | 0x1 => decide (50 ≤ v ∧ v ≤ 500 ∧ v < s.mark.toNat)
  | 0x2 => decide (1 ≤ v ∧ v ≤ 65535 ∧ v ≤ 100 * s.cfg.fs)
  | 0x3 => decide (1 ≤ v ∧ v ≤ 7)
  | 0x4 => decide (v ≤ 32768)
  | 0x5 => decide (v ≤ 3)
  | _ => false

/-- The state with a read-write register holding `v`, and with the receive state flushed where R147 says so. -/
def writtenAt (s : State) (reg v : Nat) : State :=
  let flush (t : State) : State :=
    if s.ctrl.getLsbD 1 then { t with buf := [], fsm := .idle, acc := 0, count := 0 } else t
  match reg with
  | 0x0 => flush { s with mark := BitVec.ofNat 16 v }
  | 0x1 => flush { s with shift := BitVec.ofNat 16 v }
  | 0x2 => flush { s with baud := BitVec.ofNat 16 v }
  | 0x3 => { s with stopb := BitVec.ofNat 3 v }
  | 0x4 => { s with volume := BitVec.ofNat 16 v }
  | 0x5 => { s with ctrl := BitVec.ofNat 2 v }
  | _ => s

/-- The code of the receiver's state (R25). -/
def fsmCode : FsmState → Nat
  | .idle => 0
  | .collectingData => 1
  | .awaitingStop => 2

/-- What each register index reads as (R14, R22 to R29). -/
def valueAt (s : State) (reg : Nat) : Nat :=
  match reg with
  | 0x0 => s.mark.toNat
  | 0x1 => s.shift.toNat
  | 0x2 => s.baud.toNat
  | 0x3 => s.stopb.toNat
  | 0x4 => s.volume.toNat
  | 0x5 => s.ctrl.toNat
  | 0x6 => s.cfg.fs
  | 0x7 => s.cfg.fs * 100 / s.baud.toNat
  | 0x8 => s.faults.toNat + 16 * s.closed.toNat
  | 0x9 => fsmCode s.fsm + 4 * s.count.toNat + 32 * s.acc.toNat
  | 0xA => s.fecnt.toNat
  | 0xB => s.buf.length
  | 0xC => min s.q.length (2 ^ 32 - 1)
  | 0xD => s.phase
  | _ => 0

/-- The table of R171: every element but `pc`, the configuration and the views through what they read as. -/
def atReset (t : State) : Prop :=
  (∀ reg, valueAt t reg =
    match reg with
    | 0x0 => 2125
    | 0x1 => 170
    | 0x2 => 4545
    | 0x3 => 2
    | 0x4 => 32768
    | 0x6 => t.cfg.fs
    | 0x7 => t.cfg.fs * 100 / 4545
    | _ => 0) ∧
  t.closed = false ∧ t.fsm = .idle ∧ t.acc = 0 ∧ t.count = 0 ∧ t.buf = [] ∧ t.q = [] ∧ t.phase = 0

/-- The fault bits that a word of value `w`, with its payload, raises at a state: the causes of R158 to R161, the
first that applies in the order of R163. -/
def faultOf (s : State) (w : Nat) : BitVec 4 :=
  let op := w / 2 ^ 28
  let reg := w / 2 ^ 24 % 16
  if 0xE ≤ op ∨ w &&& reservedBits op ≠ 0 then 1
  else if (op = 0x1 ∧ 6 ≤ reg) ∨ (op = 0x2 ∧ 0xE ≤ reg) then 1
  else if op = 0x1 then (if legalAt s reg (w % 2 ^ 24) then 0 else 2)
  else if op = 0x8 then (if w % 2 ^ 24 = spbOf s then 0 else 4)
  else if op = 0xA ∨ op = 0xB then
    (match s.cfg.queueCap with
      | none => 0
      | some cap => if cap ≤ s.q.length then 8 else 0)
  else 0

/-- The receiver fed a list of bits, first bit first (R115). -/
def feed (bits : List LineBit) (s : State) : State := bits.foldl (fun t b => t.fsmStep b) s

/-- The code that five data bits write, the first the least significant (R43, R123). -/
def codeOf (d0 d1 d2 d3 d4 : LineBit) : Code :=
  BitVec.ofNat 5 (d0.toNat + 2 * d1.toNat + 4 * d2.toNat + 8 * d3.toNat + 16 * d4.toNat)

/-- The samples that the chunks of a queue hold, in order (R137). -/
def samplesOf (q : List Entry) : List Sample :=
  q.flatMap (fun e => match e with
    | .chunk l => l
    | .close => [])

/-- The state after `n` draws of the schedule alone, no step being taken. -/
def drawn : Nat → State → State
  | 0, s => s
  | n + 1, s => drawn n (drawTurn s).2

/-- How many consumer steps the queue and the buffer can still enable, at most (R151). -/
def workLeft (s : State) : Nat := s.buf.length + (samplesOf s.q).length + s.q.length

/-- The commands that read nothing a consumer step writes and write nothing it reads or writes, or only append to an
unbounded queue. Of the registers, the consumer reads MARK, SHIFT and BAUD, and writes what STATUS, RXSTATE, FECNT,
BUFLEN and QLEN show. -/
def besideReceive (s : State) : Instr → Bool
  | .nop | .enc _ | .dec _ | .frame _ | .txBit _ | .txChar _ | .slice _ => true
  | .push _ | .close => s.cfg.queueCap.isNone
  | .cfgWr reg _ => decide (3 ≤ reg.toNat)
  | .cfgRd reg => decide (reg.toNat ≤ 7 ∨ 0xD ≤ reg.toNat)
  | .rxBit _ | .sync | .reset => false

end Sys2Proof.Spec

open Sys2Proof Sys2Proof.Machine Sys2Proof.Spec

/-! ### Encoding -/

/-- Every well-formed command is fetched whole from the stream the host sends, and decodes to itself (R57,
R68, R69). -/
def Obligations.EncodedCommandDecodesToItself : Prop :=
  ∀ (bits : Nat) (i : Instr) (rest : List Item), i.wellFormed bits = true →
    fetch (encode i ++ rest) = some ⟨encodeWord i, i.payload, rest⟩ ∧
      decode (encodeWord i) i.payload = .ok i

/-- A word that decodes to a command is that command's word: no two words, and no word with a reserved bit set, stand
for one command (R57, R65, R68). -/
def Obligations.DecodedWordEncodesBack : Prop :=
  ∀ (w : Word) (payload : List SampleBits) (i : Instr), payload.length = lenOf w.toNat →
    decode w payload = .ok i → encodeWord i = w ∧ i.payload = payload

/-- The decoder is total and rejects exactly the words with a reserved opcode or a reserved bit set (R65, R66,
R68). -/
def Obligations.DecoderRejectsExactlyReservedWords : Prop :=
  ∀ (w : Word) (payload : List SampleBits),
    (∃ e, decode w payload = .error e) ↔
      (0xE ≤ w.toNat / 2 ^ 28 ∨ w.toNat &&& reservedBits (w.toNat / 2 ^ 28) ≠ 0)

/-- R66: a word with OP 0xE or 0xF has no payload, raises ERR_ILL and has no other effect. -/
def Obligations.ReservedOpcodeRaisesErrIll : Prop :=
  ∀ (s : State) (sched : List Agent) (w : Word) (rest : List Item),
    s.sched = .host :: sched → s.stream = .word w :: rest → 0xE ≤ w.toNat / 2 ^ 28 →
      step s = .next { s with sched := sched, stream := rest, faults := s.faults ||| 1#4, pc := s.pc + 1 }

/-- R65: a word with a reserved bit set raises ERR_ILL and has no other effect; the payload of a SLICE or PUSH word is
consumed. -/
def Obligations.ReservedBitRaisesErrIll : Prop :=
  ∀ (s : State) (sched : List Agent) (w : Word) (payload : List SampleBits) (rest : List Item),
    s.sched = .host :: sched → s.stream = .word w :: (payload.map .sample ++ rest) →
    payload.length = lenOf w.toNat → w.toNat / 2 ^ 28 ≤ 0xD →
    w.toNat &&& reservedBits (w.toNat / 2 ^ 28) ≠ 0 →
      step s = .next { s with sched := sched, stream := rest, faults := s.faults ||| 1#4, pc := s.pc + 1 }

/-- A few words written out from the encoding table of R71 decode to the commands it gives. -/
def Obligations.WrittenOutWordsDecode : Prop :=
  decode 0x00000000#32 [] = .ok .nop ∧
  decode 0x12007530#32 [] = .ok (.cfgWr 2 30000) ∧
  decode 0x27000000#32 [] = .ok (.cfgRd 7) ∧
  decode 0x30000065#32 [] = .ok (.enc 0x65) ∧
  decode 0x40000003#32 [] = .ok (.dec 3) ∧
  decode 0x50000045#32 [] = .ok (.frame 0x45) ∧
  decode 0x60000001#32 [] = .ok (.txBit true) ∧
  decode 0x80000002#32 [1, 2] = .ok (.slice [1, 2]) ∧
  decode 0x90000000#32 [] = .ok (.rxBit false) ∧
  decode 0xC0000000#32 [] = .ok .sync

/-- When the host is offered a step, its stream begins with a well-formed command and that command is not a SYNC that
must wait, the step is the command's meaning, with the stream moved past the command's items. -/
def Obligations.StepRunsDecodedCommand : Prop :=
  ∀ (s : State) (sched : List Agent) (bits : Nat) (i : Instr) (rest : List Item),
    s.sched = .host :: sched → s.stream = encode i ++ rest → i.wellFormed bits = true →
    (i = .sync → s.quiescent = true) →
      ∃ t, exec i { s with sched := sched } = .next t ∧ step s = .next { t with stream := rest }

/-- A stream of well-formed commands, carried as bytes, is read back from them (R44). How many bytes carry a sample
is the model's choice (log entry 10). -/
def Obligations.ByteTransportCarriesCommands : Prop :=
  ∀ (bits : Nat) (cmds : List Instr), 2 ≤ bits → bits ≤ 32 → (∀ i ∈ cmds, i.wellFormed bits = true) →
    streamOfBytes bits (cmds.flatMap encode).length 0 (streamBytes bits (cmds.flatMap encode)) =
      some (cmds.flatMap encode)

/-! ### Codec and frame encoder -/

/-- R78: ENC folds ASCII lower case and answers the table's code with FB 0, or code 0 with FB 1; nothing else changes
but the response stream and pc. -/
def Obligations.EncAnswersTableCode : Prop :=
  ∀ (s : State) (c : Char8), s.cfg.table.legal = true →
    ∃ w : Word, exec (.enc c) s = .next { s with rsp := s.rsp ++ [w], pc := s.pc + 1 } ∧
      (let u := BitVec.ofNat 8 (if 0x61 ≤ c.toNat ∧ c.toNat ≤ 0x7A then c.toNat - 0x20 else c.toNat)
       (∀ k, (u, k) ∈ s.cfg.table → w.toNat = k.toNat) ∧ ((∀ k, (u, k) ∉ s.cfg.table) → w.toNat = 0x100))

/-- R80, R83: DEC answers the code's symbol with UNK 0, or '?' with UNK 1; nothing else changes but the response
stream and pc. That UNK is 1 exactly for '?' is what R80 derives from R75. -/
def Obligations.DecAnswersTableSymbol : Prop :=
  ∀ (s : State) (k : Code), s.cfg.table.legal = true →
    ∃ w : Word, exec (.dec k) s = .next { s with rsp := s.rsp ++ [w], pc := s.pc + 1 } ∧
      (∀ c, (c, k) ∈ s.cfg.table → w.toNat = c.toNat) ∧ ((∀ c, (c, k) ∉ s.cfg.table) → w.toNat = 0x13F) ∧
      (w.getLsbD 8 = true ↔ w.setWidth 8 = 0x3F#8)

/-- The laws that R81 derives from R76, R78 and R80: symbols survive the round trip in either case; every other
character becomes code 0, and code 0 becomes '?'. -/
def Obligations.CodecRoundTrip : Prop :=
  ∀ t : BaudotTable, t.legal = true →
    (∀ c ∈ alphabet, ∀ c', foldCase c' = c → decRom t (encRom t c').1 = (c, false)) ∧
    (∀ c, foldCase c ∉ alphabet → encRom t c = (0, true) ∧ decRom t (encRom t c).1 = (0x3F, true)) ∧
    encRom t 0x3F = (0, true) ∧ decRom t 0 = (0x3F, true)

/-- R79, with its second half as it derives it from R76 and R78: the fallback flag is set exactly when the folded
character is no symbol, and exactly when the code is 0. -/
def Obligations.FallbackFlagMarksCodeZero : Prop :=
  ∀ (t : BaudotTable) (c : Char8), t.legal = true →
    ((encRom t c).2 = true ↔ foldCase c ∉ alphabet) ∧ ((encRom t c).2 = true ↔ (encRom t c).1 = 0)

/-- R77: this hardware's table by code, its symbols and its five unassigned codes. That it is legal is what R77 infers
from R76 by inspection. -/
def Obligations.DefaultTableIsLegal : Prop :=
  Params.thisHardware.table = ita2 ∧ ita2.legal = true ∧
  (List.range 32).map (fun k => decRom ita2 (BitVec.ofNat 5 k)) =
    [(0x3F, true), (0x45, false), (0x3F, true), (0x41, false), (0x20, false), (0x53, false), (0x49, false),
     (0x55, false), (0x3F, true), (0x44, false), (0x52, false), (0x4A, false), (0x4E, false), (0x46, false),
     (0x43, false), (0x4B, false), (0x54, false), (0x5A, false), (0x4C, false), (0x57, false), (0x48, false),
     (0x59, false), (0x50, false), (0x51, false), (0x4F, false), (0x42, false), (0x47, false), (0x3F, true),
     (0x4D, false), (0x58, false), (0x56, false), (0x3F, true)]

/-- R87, as it derives the bits of the frame word from R85: every bit of FRAME's response. Bit 0 is the start bit,
bits 5:1 are the code, bits 6 to L - 1 the stop bits, L = 6 + STOPB stands from bit 16 on, FB in bit 24, every other
bit is 0; nothing else changes but the response stream and pc. -/
def Obligations.FrameAnswersFrameWord : Prop :=
  ∀ (s : State) (c : Char8),
    ∃ w : Word, exec (.frame c) s = .next { s with rsp := s.rsp ++ [w], pc := s.pc + 1 } ∧
      ∀ i, w.getLsbD i =
        ((decide (1 ≤ i ∧ i ≤ 5) && (encRom s.cfg.table c).1.getLsbD (i - 1)) ||
          decide (6 ≤ i ∧ i < 6 + s.stopb.toNat) ||
          (decide (16 ≤ i ∧ i < 20) && (6 + s.stopb.toNat).testBit (i - 16)) ||
          (decide (i = 24) && (encRom s.cfg.table c).2))

/-- R85: the frame of any character is a start bit, the five bits of the code and the stop bits; with it goes the
fallback flag. Its length is 6 + S, from 7 to 13 for a legal S and 8 with two stop bits, as R86 derives. -/
def Obligations.FrameLength : Prop :=
  ∀ (t : BaudotTable) (c : Char8) (stops : Nat),
    (buildFrame t c stops).1.length = 6 + stops ∧
      (1 ≤ stops → stops ≤ 7 → 7 ≤ (buildFrame t c stops).1.length ∧ (buildFrame t c stops).1.length ≤ 13) ∧
      (buildFrame t c 2).1.length = 8 ∧
      (buildFrame t c stops).1.take 6 =
        [false, (encRom t c).1.getLsbD 0, (encRom t c).1.getLsbD 1, (encRom t c).1.getLsbD 2,
          (encRom t c).1.getLsbD 3, (encRom t c).1.getLsbD 4] ∧
      (buildFrame t c stops).1.drop 6 = List.replicate stops true ∧
      (buildFrame t c stops).2 = (encRom t c).2

/-! ### Tone synthesizer -/

/-- R94: in phase-reset mode sample n of a bit is synth(VOLUME, (n * f) mod FS), and the phase left is 0; nothing else
changes but the TX stream and pc. -/
def Obligations.TxBitPhaseReset : Prop :=
  ∀ (s : State) (b : LineBit), s.ctrl.getLsbD 0 = false →
    exec (.txBit b) s = .next { s with
      tx := s.tx ++ (List.range (spbOf s)).map (fun n => synth s.cfg s.volume.toNat (n * freqOf s b % s.cfg.fs))
      phase := 0
      pc := s.pc + 1 }

/-- R95: in phase-continuous mode a bit goes on from S.phase and leaves the phase reached at its end. -/
def Obligations.TxBitPhaseContinuous : Prop :=
  ∀ (s : State) (b : LineBit), s.ctrl.getLsbD 0 = true → s.phase < s.cfg.fs →
    exec (.txBit b) s = .next { s with
      tx := s.tx ++ (List.range (spbOf s)).map
        (fun n => synth s.cfg s.volume.toNat ((s.phase + n * freqOf s b) % s.cfg.fs))
      phase := (s.phase + spbOf s * freqOf s b) % s.cfg.fs
      pc := s.pc + 1 }

/-- R94, R99: in phase-reset mode TX.CHAR emits the bits of the character's frame in order, each from phase 0. -/
def Obligations.TxCharPhaseReset : Prop :=
  ∀ (s : State) (c : Char8), s.ctrl.getLsbD 0 = false →
    exec (.txChar c) s = .next { s with
      tx := s.tx ++ (buildFrame s.cfg.table c s.stopb.toNat).1.flatMap (fun b =>
        (List.range (spbOf s)).map (fun n => synth s.cfg s.volume.toNat (n * freqOf s b % s.cfg.fs)))
      phase := 0
      pc := s.pc + 1 }

/-- R95, R100: in phase-continuous mode the phase never jumps within a character: bit number i starts at S.phase plus
what the bits before it advanced, and the command leaves (S.phase + sum of SPB * f(b)) mod FS. -/
def Obligations.TxCharPhaseContinuous : Prop :=
  ∀ (s : State) (c : Char8), s.ctrl.getLsbD 0 = true → s.phase < s.cfg.fs →
    let bits := (buildFrame s.cfg.table c s.stopb.toNat).1
    let advance (l : List LineBit) : Nat := (l.map (fun b => spbOf s * freqOf s b)).sum
    exec (.txChar c) s = .next { s with
      tx := s.tx ++ (List.range bits.length).flatMap (fun i =>
        (List.range (spbOf s)).map (fun n => synth s.cfg s.volume.toNat
          ((s.phase + advance (bits.take i) + n * freqOf s (bits.getD i false)) % s.cfg.fs)))
      phase := (s.phase + advance bits) % s.cfg.fs
      pc := s.pc + 1 }

/-- R97: under every realization a sample lies in -(2^(B-1)-1) .. 2^(B-1)-1. -/
def Obligations.SynthStaysInRange : Prop :=
  ∀ (p : Params) (volume phase : Nat), 1 ≤ p.sampleBits →
    -(2 ^ (p.sampleBits - 1) - 1 : Int) ≤ synth p volume phase ∧
      synth p volume phase ≤ (2 ^ (p.sampleBits - 1) - 1 : Int)

/-- R96, R97: wherever the machine's evaluation of the reference sample is decided, it is the exact real-valued
reference, rounded half away from zero; and where SYNTH_NUMERICS is the reference, that exact value is the sample `synth`
that TX.BIT and TX.CHAR emit, at every volume the register takes. That it is evaluated so, and may be left undecided, is
the model's (log entry 4). -/
def Obligations.SynthReferenceIsExact : Prop :=
  (∀ (fs bits volume phase : Nat) (z : Sample), 1 ≤ fs → 1 ≤ bits →
    synthRef? fs bits volume phase = some z → z = synthRefReal fs bits volume phase) ∧
  ∀ (p : Params) (volume phase : Nat) (z : Sample), p.synth = .reference → p.legal = true → volume ≤ 32768 →
    synthRef? p.fs p.sampleBits volume phase = some z →
      synth p volume phase = synthRefReal p.fs p.sampleBits volume phase

/-! ### Bit slicer -/

/-- R107: the selected bin is in 0 .. floor(N/2), none is nearer, and none below it is as near; the two bins are those
of MARK and of MARK - SHIFT. That a frequency above FS/2 selects floor(N/2) is what R107 derives from the range of
k. -/
def Obligations.NearestBinIsLeastNearest : Prop :=
  (∀ fs n f : Nat, nearestBin fs n f ≤ n / 2 ∧
    (∀ k ≤ n / 2, |(nearestBin fs n f * fs : Int) - f * n| ≤ |(k * fs : Int) - f * n|) ∧
    (∀ k < nearestBin fs n f, |(nearestBin fs n f * fs : Int) - f * n| < |(k * fs : Int) - f * n|) ∧
    (0 < fs → fs < 2 * f → nearestBin fs n f = n / 2)) ∧
  ∀ s : State, s.markBin = nearestBin s.cfg.fs (spbOf s) s.mark.toNat ∧
    s.spaceBin = nearestBin s.cfg.fs (spbOf s) (s.mark.toNat - s.shift.toNat)

/-- R111: a window of SPB samples is answered by its bit, sliced at the bins nearest the mark and space frequencies;
nothing else changes but the response stream and pc. -/
def Obligations.SliceAnswersBit : Prop :=
  ∀ (s : State) (payload : List SampleBits), payload.length = spbOf s →
    exec (.slice payload) s = .next { s with
      rsp := s.rsp ++ [if slice s.cfg (payload.map (fun x => (x.setWidth s.cfg.sampleBits).toInt))
        (nearestBin s.cfg.fs (spbOf s) s.mark.toNat)
        (nearestBin s.cfg.fs (spbOf s) (s.mark.toNat - s.shift.toNat)) then 1#32 else 0#32]
      pc := s.pc + 1 }

/-- R104: a window of any other length raises ERR_LEN and returns no bit. -/
def Obligations.SliceWrongLengthRaisesErrLen : Prop :=
  ∀ (s : State) (payload : List SampleBits), payload.length ≠ spbOf s →
    exec (.slice payload) s = .next { s with faults := s.faults ||| 4#4, pc := s.pc + 1 }

/-- R109, which derives it from R107 and R108: when the two bins are one, every window slices to space, under every
realization; so it always is when SPB is 1, and at 300 baud with a shift of 170 Hz at 48000 and 44100 Hz, where both
bins are 7. -/
def Obligations.SameBinSlicesToSpace : Prop :=
  (∀ (s : State) (x : List Sample), s.markBin = s.spaceBin → s.sliceWindow x = false) ∧
  (∀ (s : State) (x : List Sample), spbOf s = 1 → s.markBin = 0 ∧ s.spaceBin = 0 ∧ s.sliceWindow x = false) ∧
  ∀ s : State, s.baud = 30000 → s.mark = 2125 → s.shift = 170 →
    (s.cfg.fs = 48000 → spbOf s = 160 ∧ s.markBin = 7 ∧ s.spaceBin = 7) ∧
    (s.cfg.fs = 44100 → spbOf s = 147 ∧ s.markBin = 7 ∧ s.spaceBin = 7)

/-- R112 item 1: under the reference decision an all-zero window is a space, whatever its length and the bins. -/
def Obligations.SilenceSlicesToSpace : Prop :=
  ∀ (p : Params) (n km ks : Nat), p.slicer = .reference → slice p (List.replicate n 0) km ks = false

/-- R105 to R108, R110: wherever the machine's evaluation of the reference decision is decided, the bit is mark exactly
when the exact magnitude at the mark bin exceeds that at the space bin; and where SLICER_NUMERICS is the reference, that
exact comparison is the bit `slice` that SLICE answers and WIN feeds on. That the decision is evaluated so, and may be
left undecided, is the model's (log entry 4). -/
def Obligations.SlicerReferenceIsExact : Prop :=
  (∀ (x : List Sample) (km ks : Nat) (b : LineBit), 1 ≤ x.length →
    sliceRef? x km ks = some b → (b = true ↔ magReal x ks < magReal x km)) ∧
  ∀ (p : Params) (x : List Sample) (km ks : Nat) (b : LineBit), p.slicer = .reference → 1 ≤ x.length →
    sliceRef? x km ks = some b → (slice p x km ks = true ↔ magReal x ks < magReal x km)

/-! ### Frame recovery -/

/-- R117 to R120: RX.BIT takes the one arm of the machine that its state and the bit select; nothing else changes but
pc. -/
def Obligations.RxBitTakesItsArm : Prop :=
  ∀ (s : State) (b : LineBit),
    (s.fsm = .idle → b = false → exec (.rxBit b) s =
      .next { s with fsm := .collectingData, acc := 0, count := 0, pc := s.pc + 1 }) ∧
    (s.fsm = .idle → b = true → exec (.rxBit b) s = .next { s with pc := s.pc + 1 }) ∧
    (s.fsm = .collectingData → exec (.rxBit b) s = .next { s with
      acc := s.acc ||| ((if b then 1#5 else 0#5) <<< s.count.toNat)
      count := s.count + 1
      fsm := if s.count.toNat = 4 then .awaitingStop else .collectingData
      pc := s.pc + 1 }) ∧
    (s.fsm = .awaitingStop → b = true → exec (.rxBit b) s = .next { s with
      rx := s.rx ++ [decRom s.cfg.table s.acc], fsm := .idle, pc := s.pc + 1 }) ∧
    (s.fsm = .awaitingStop → b = false → exec (.rxBit b) s = .next { s with
      fecnt := BitVec.ofNat 16 (s.fecnt.toNat + 1), fsm := .idle, pc := s.pc + 1 })

/-- The laws of the machine that R123 derives from R117 to R121, from idle. Marks change nothing; a start bit, five
data bits and a space in the stop position drop the frame and count one framing error; with a mark there they emit the
character of the code; neither is idle before its seventh bit; an endless space stream gives one framing error every
seven bits and no character. -/
def Obligations.FrameRecoveryLaws : Prop :=
  ∀ s : State, s.fsm = .idle →
    (∀ n, feed (List.replicate n true) s = s) ∧
    (∀ d0 d1 d2 d3 d4 : LineBit,
      feed [false, d0, d1, d2, d3, d4, false] s =
        { s with acc := codeOf d0 d1 d2 d3 d4, count := 5, fecnt := s.fecnt + 1 } ∧
      feed [false, d0, d1, d2, d3, d4, true] s =
        { s with
          acc := codeOf d0 d1 d2 d3 d4
          count := 5
          rx := s.rx ++ [decRom s.cfg.table (codeOf d0 d1 d2 d3 d4)] } ∧
      ∀ n, 1 ≤ n → n ≤ 6 → (feed ([false, d0, d1, d2, d3, d4].take n) s).fsm ≠ .idle) ∧
    (∀ n, (feed (List.replicate (7 * n) false) s).fecnt = s.fecnt + BitVec.ofNat 16 n ∧
      (feed (List.replicate (7 * n) false) s).rx = s.rx ∧ (feed (List.replicate (7 * n) false) s).fsm = .idle)

/-- The frame that the encoder builds, fed to an idle receiver, emits exactly its character, whatever the number of
stop bits from 1 on: further stop bits are absorbed as idle tone (R85, R119, R124). -/
def Obligations.BuiltFrameIsRecovered : Prop :=
  ∀ (s : State) (c : Char8) (stops : Nat), s.fsm = .idle → 1 ≤ stops →
    feed (buildFrame s.cfg.table c stops).1 s =
      { s with
        acc := (encRom s.cfg.table c).1
        count := 5
        rx := s.rx ++ [decRom s.cfg.table (encRom s.cfg.table c).1] }

/-! ### Receive stream and consumer -/

/-- R129: PUSH enqueues its samples as one chunk, or raises ERR_OVF and loses them when a finite queue is full. -/
def Obligations.PushEnqueuesOrOverflows : Prop :=
  ∀ (s : State) (payload : List SampleBits),
    ((∀ cap, s.cfg.queueCap = some cap → s.q.length < cap) → exec (.push payload) s = .next { s with
      q := s.q ++ [.chunk (payload.map (fun x => (x.setWidth s.cfg.sampleBits).toInt))], pc := s.pc + 1 }) ∧
    (∀ cap, s.cfg.queueCap = some cap → cap ≤ s.q.length →
      exec (.push payload) s = .next { s with faults := s.faults ||| 8#4, pc := s.pc + 1 })

/-- R135: CLOSE enqueues the sentinel, or raises ERR_OVF when a finite queue is full. -/
def Obligations.CloseEnqueuesOrOverflows : Prop :=
  ∀ s : State,
    ((∀ cap, s.cfg.queueCap = some cap → s.q.length < cap) →
      exec .close s = .next { s with q := s.q ++ [.close], pc := s.pc + 1 }) ∧
    (∀ cap, s.cfg.queueCap = some cap → cap ≤ s.q.length →
      exec .close s = .next { s with faults := s.faults ||| 8#4, pc := s.pc + 1 })

/-- R130 to R133: which of WIN, DEQ and END the consumer takes, and what it does. -/
def Obligations.ConsumerTakesEnabledStep : Prop :=
  ∀ s : State,
    (s.closed = true → consumerStep s = none) ∧
    (s.closed = false → spbOf s ≤ s.buf.length → consumerStep s = some
      (({ s with buf := s.buf.drop (spbOf s) } : State).fsmStep
        (slice s.cfg (s.buf.take (spbOf s)) (nearestBin s.cfg.fs (spbOf s) s.mark.toNat)
          (nearestBin s.cfg.fs (spbOf s) (s.mark.toNat - s.shift.toNat))))) ∧
    (s.closed = false → s.buf.length < spbOf s → ∀ l rest, s.q = .chunk l :: rest →
      consumerStep s = some { s with q := rest, buf := s.buf ++ l }) ∧
    (s.closed = false → s.buf.length < spbOf s → ∀ rest, s.q = .close :: rest →
      consumerStep s = some { s with q := rest, closed := true }) ∧
    (s.closed = false → s.buf.length < spbOf s → s.q = [] → consumerStep s = none)

/-- R134, which derives it from R130: the consumer is quiescent exactly when it has no enabled step. -/
def Obligations.QuiescentIffNoConsumerStep : Prop :=
  ∀ s : State, (s.quiescent = true ↔ consumerStep s = none) ∧
    (s.quiescent = true ↔ s.closed = true ∨ (s.buf.length < spbOf s ∧ s.q = []))

/-- R137: with nothing but chunks queued, the consumer run to its end feeds the receiver exactly the windows of the
concatenated samples, window j being samples j * SPB to (j + 1) * SPB, and leaves the rest in the buffer; how the
samples were cut into chunks does not matter. -/
def Obligations.ChunkingDoesNotMatter : Prop :=
  ∀ s : State, s.closed = false → 1 ≤ spbOf s → (∀ e ∈ s.q, e ≠ .close) →
    let all := s.buf ++ samplesOf s.q
    let windows := all.length / spbOf s
    consumerRun (workLeft s) s =
      feed ((List.range windows).map (fun j => s.sliceWindow ((all.drop (j * spbOf s)).take (spbOf s))))
        { s with q := [], buf := all.drop (windows * spbOf s) }

/-- R151: left alone, the consumer becomes quiescent after finitely many steps, at most one for each queued entry and
each sample. -/
def Obligations.ConsumerReachesQuiescence : Prop :=
  ∀ s : State, 1 ≤ spbOf s → (consumerRun (workLeft s) s).quiescent = true

/-- R151, which derives it from R130 to R134, R146 and R47: SYNC ends under every schedule: within as many steps as
the consumer has work, the host takes it, and the consumer is then quiescent. -/
def Obligations.SyncEndsUnderEverySchedule : Prop :=
  ∀ (s : State) (rest : List Item), 1 ≤ spbOf s → s.stream = .word 0xC0000000#32 :: rest →
    ∃ n ≤ workLeft s, ∃ t, runSteps (n + 1) s = .next t ∧
      t.pc = s.pc + 1 ∧ t.stream = rest ∧ t.quiescent = true

/-! ### Configuration and control -/

/-- R142, R144, R147: CFG.WR stores a legal value, flushing the receive state on a tone register when FLUSH_ON_RECONF
is 1; an illegal value raises ERR_CFG, an index from 0x6 on ERR_ILL, and a refused write changes nothing else. -/
def Obligations.CfgWrStoresOrFaults : Prop :=
  ∀ (s : State) (reg : BitVec 4) (data : BitVec 24),
    (reg.toNat ≤ 5 → legalAt s reg.toNat data.toNat = true →
      exec (.cfgWr reg data) s = .next { writtenAt s reg.toNat data.toNat with pc := s.pc + 1 }) ∧
    (reg.toNat ≤ 5 → legalAt s reg.toNat data.toNat = false →
      exec (.cfgWr reg data) s = .next { s with faults := s.faults ||| 2#4, pc := s.pc + 1 }) ∧
    (6 ≤ reg.toNat → exec (.cfgWr reg data) s = .next { s with faults := s.faults ||| 1#4, pc := s.pc + 1 })

/-- R14, R22 to R29, R143: what CFG.RD answers for each register; a reserved index raises ERR_ILL. Nothing else
changes but the response stream and pc. -/
def Obligations.CfgRdAnswersRegister : Prop :=
  ∀ (s : State) (reg : BitVec 4),
    (reg.toNat ≤ 0xD → ∃ w : Word, exec (.cfgRd reg) s = .next { s with rsp := s.rsp ++ [w], pc := s.pc + 1 } ∧
      w.toNat = valueAt s reg.toNat % 2 ^ 32) ∧
    (0xE ≤ reg.toNat → exec (.cfgRd reg) s = .next { s with faults := s.faults ||| 1#4, pc := s.pc + 1 })

/-- In every state of the invariant each register's value fits its 32-bit read (R14, R27). -/
def Obligations.RegisterValuesFitWord : Prop :=
  ∀ (s : State) (reg : Nat), s.Inv → valueAt s reg < 2 ^ 32

/-- R148: NOP changes nothing but pc. -/
def Obligations.NopOnlyAdvances : Prop :=
  ∀ s : State, exec .nop s = .next { s with pc := s.pc + 1 }

/-- R150: SYNC is taken when the consumer is quiescent, and then changes nothing but pc; until then the host has no
step enabled and whichever agent is offered the step, the consumer moves. That exec of a SYNC that must wait answers
the state it was given is the model's choice (log entry 8); no step takes it there. -/
def Obligations.SyncWaitsForQuiescence : Prop :=
  ∀ s : State,
    (s.quiescent = true → exec .sync s = .next { s with pc := s.pc + 1 }) ∧
    (s.quiescent = false → exec .sync s = .next s ∧
      ∀ rest, s.stream = .word 0xC0000000#32 :: rest →
        hostReady s = none ∧ ∃ t, consumerStep (drawTurn s).2 = some t ∧ step s = .next t)

/-- R172: RESET gives every element of R171 but pc its reset value; the parameters and the three output streams
stay. -/
def Obligations.ResetRestoresResetValues : Prop :=
  ∀ s : State, exec .reset s = .next { State.resetWith s.cfg with
    pc := s.pc + 1, rsp := s.rsp, tx := s.tx, rx := s.rx, stream := s.stream, sched := s.sched, epoch := s.epoch }

/-- R171: the reset state, after power-on of this hardware and after a RESET of any instance; pc is 0 at power-on, and
RESET only moves it past itself. -/
def Obligations.PowerOnResetValues : Prop :=
  atReset State.reset ∧ State.reset.pc = 0 ∧
  ∀ s : State, ∃ t, exec .reset s = .next t ∧ atReset t ∧ t.pc = s.pc + 1

/-- R146, which derives it from R144, R5 and R171: SPB is at least 1 in every reachable state, and after an accepted
write of BAUD it is the exact floor. -/
def Obligations.SpbIsPositiveAndExact : Prop :=
  (∀ s : State, Reachable s → 1 ≤ s.spb) ∧
  ∀ (s t : State) (data : BitVec 24), 1 ≤ data.toNat → data.toNat ≤ 65535 → data.toNat ≤ 100 * s.cfg.fs →
    exec (.cfgWr 2 data) s = .next t → t.spb = s.cfg.fs * 100 / data.toNat

/-- R72: CFG.TONE's four writes are accepted one after another from every state of the invariant, and leave the three
tone registers at the values asked for. BAUD's own bound 65535 is added to the rule's bounds. -/
def Obligations.CfgToneWritesAreAccepted : Prop :=
  ∀ (s : State) (m sh b : BitVec 24), s.Inv → 51 ≤ m.toNat → m.toNat ≤ 65535 → 50 ≤ sh.toNat → sh.toNat ≤ 500 →
    sh.toNat < m.toNat → 1 ≤ b.toNat → b.toNat ≤ 65535 → b.toNat ≤ 100 * s.cfg.fs →
    ∃ t1 t2 t3 t4, pseudoCfgTone m sh b = [.cfgWr 1 50, .cfgWr 0 m, .cfgWr 1 sh, .cfgWr 2 b] ∧
      exec (.cfgWr 1 50) s = .next t1 ∧ exec (.cfgWr 0 m) t1 = .next t2 ∧
      exec (.cfgWr 1 sh) t2 = .next t3 ∧ exec (.cfgWr 2 b) t3 = .next t4 ∧
      t4.faults = s.faults ∧ t4.pc = s.pc + 4 ∧
      t4.mark.toNat = m.toNat ∧ t4.shift.toNat = sh.toNat ∧ t4.baud.toNat = b.toNat

/-! ### Faults -/

/-- R156, R163: a command that raises a fault, its bit already set or not, sets that one bit, advances pc and does
nothing else. A command raises a fault where it leaves a bit set with all bits clear before it. Said of every command,
and of every word the host takes, illegal ones too, whose payload the stream then leaves behind. -/
def Obligations.FaultHasNoOtherEffect : Prop :=
  (∀ (i : Instr) (s u : State), exec i { s with faults := 0 } = .next u → u.faults ≠ 0 →
    ∃ e : Cause, u.faults = BitVec.twoPow 4 e.code ∧
      exec i s = .next { s with faults := s.faults ||| BitVec.twoPow 4 e.code, pc := s.pc + 1 }) ∧
  ∀ (f : Fetched) (s u : State), hostStep f { s with faults := 0 } = .next u → u.faults ≠ 0 →
    ∃ e : Cause, u.faults = BitVec.twoPow 4 e.code ∧
      hostStep f s =
        .next { s with faults := s.faults ||| BitVec.twoPow 4 e.code, pc := s.pc + 1, stream := f.rest }

/-- The causes of R158 to R161, with the conditions of R104, R129, R135, R142 and R143 under which a command does
raise them, and the order that R163 derives: each cause is raised by exactly the words the spec lists for it, at the
states it lists, and a command raises at most one. Every host step but a legal RESET leaves the fault bits at what
they were and that one. -/
def Obligations.HostStepRaisesExactlyItsFault : Prop :=
  ∀ (s t : State) (f : Fetched), fetch s.stream = some f → hostStep f s = .next t →
    (f.word = 0xD0000000#32 → t.faults = 0) ∧
    (f.word ≠ 0xD0000000#32 → t.faults = s.faults ||| faultOf s f.word.toNat)

/-- R157: no step clears a fault bit but the one in which the host takes a RESET; a consumer step taken while a RESET
is next clears none. -/
def Obligations.FaultBitsAreSticky : Prop :=
  ∀ s t : State, step s = .next t →
    (∀ f, hostReady (drawTurn s).2 = some f → t.stream = f.rest → decode f.word f.payload ≠ .ok .reset) →
      s.faults &&& t.faults = s.faults

/-- A consumer step raises no fault (R140); it changes no register of the configuration and emits no response and no
TX sample, as follows from R131 to R133; it emits at most one character, as R167 derives. -/
def Obligations.ConsumerTouchesOnlyReceiveState : Prop :=
  ∀ s t : State, consumerStep s = some t →
    t = { s with fsm := t.fsm, acc := t.acc, count := t.count, fecnt := t.fecnt, buf := t.buf, q := t.q,
                 closed := t.closed, rx := t.rx } ∧
    (t.rx = s.rx ∨ ∃ c, t.rx = s.rx ++ [c])

/-! ### The machine as a whole -/

/-- R174: no step changes the parameters of the instance. -/
def Obligations.ParametersNeverChange : Prop :=
  ∀ s t : State, step s = .next t → t.cfg = s.cfg

/-- R38: every step only appends to the three output streams. -/
def Obligations.OutputStreamsOnlyGrow : Prop :=
  ∀ s t : State, step s = .next t → s.rsp <+: t.rsp ∧ s.tx <+: t.tx ∧ s.rx <+: t.rx

/-- Every step, of either agent and under every schedule, keeps the invariant (R15 to R20, R31, R34, R36, R146). -/
def Obligations.StepKeepsInvariant : Prop :=
  ∀ s t : State, s.Inv → step s = .next t → t.Inv

/-- Every state a run can start from, power-on reset of this hardware among them, has the invariant (R171, R175). -/
def Obligations.InitialStatesHaveInvariant : Prop :=
  State.reset.Inv ∧ ∀ s : State, s.Initial → s.Inv

/-- The machine stops only where neither agent has a step: the consumer quiescent and no whole command in the host's
stream; the run is finished when that stream is empty (R176). How the model names the two stops is its own choice (log
entry 7). -/
def Obligations.StopsOnlyWithoutEnabledStep : Prop :=
  (∀ (s : State) (r : Refusal), step s ≠ .refused r) ∧
  ∀ (s : State) (f : Fault), step s = .fault f ↔
    (s.quiescent = true ∧ fetch s.stream = none ∧
      f = if s.stream = [] then Fault.runFinished else Fault.streamIncomplete)

/-- R33: pc counts the commands from 0. A command, legal or not, advances it by one and sets it to no other value; a
SYNC that waits and a consumer step leave it as it is. That exec of a waiting SYNC (R150) answers the state it was
given is the model's choice (log entry 8). -/
def Obligations.PcCountsCommands : Prop :=
  State.reset.pc = 0 ∧
  (∀ (i : Instr) (s t : State), exec i s = .next t →
    (t.pc = s.pc + 1 ∧ (i = .sync → s.quiescent = true)) ∨ (i = .sync ∧ s.quiescent = false ∧ t = s)) ∧
  ∀ s t : State, step s = .next t →
    (t.pc = s.pc ∧ t.stream = s.stream) ∨
      (∃ f, fetch s.stream = some f ∧ hostReady (drawTurn s).2 = some f ∧ t.pc = s.pc + 1 ∧ t.stream = f.rest)

/-- R47, R50, R102, R129 to R135: a command that neither reads nor writes the receive path, an access to a register
outside it among them, or that only appends to an unbounded queue, commutes with every consumer step, so that no
interleaving of the two can be told apart. -/
def Obligations.CommandsCommuteWithConsumer : Prop :=
  ∀ (i : Instr) (s t u : State), besideReceive s i = true → exec i s = .next t → consumerStep s = some u →
    ∃ v, consumerStep t = some v ∧ exec i u = .next v

/-- From every state the schedule offers the consumer a step after finitely many draws, at most one for each offer
pending and each of the stretch after them; every step of the run uses up exactly one draw; and the consumer offered a
step it has enabled takes it. So every schedule of the model is fair to the consumer (R47); that schedules are drawn
so is the model's choice (log entry 5). -/
def Obligations.ConsumerIsOfferedStepsForever : Prop :=
  (∀ s : State, ∃ n ≤ s.sched.length + Config.hostBurst s.epoch, (drawTurn (drawn n s)).1 = .consumer) ∧
  (∀ s t : State, step s = .next t → t.sched = (drawTurn s).2.sched ∧ t.epoch = (drawTurn s).2.epoch) ∧
  ∀ s t : State, (drawTurn s).1 = .consumer → consumerStep (drawTurn s).2 = some t → step s = .next t
end

