-- ==== Sys2Proof/Laws/Encoding.lean ====
section
/-! SUPPORT. The fields of a command word as arithmetic on its value, and the values of the encoder's words. -/

namespace Sys2Proof

theorem opField_toNat (w : Word) : (opField w).toNat = w.toNat / 2 ^ 28 := by
  have h := w.isLt
  simp only [opField, BitVec.extractLsb'_toNat, Nat.shiftRight_eq_div_pow]
  omega

theorem regField_toNat (w : Word) : (regField w).toNat = w.toNat / 2 ^ 24 % 16 := by
  simp only [regField, BitVec.extractLsb'_toNat, Nat.shiftRight_eq_div_pow]

theorem dataField_toNat (w : Word) : (dataField w).toNat = w.toNat % 2 ^ 24 := by
  simp [dataField]

theorem charField_toNat (w : Word) : (charField w).toNat = w.toNat % 2 ^ 8 := by
  simp [charField]

theorem codeField_toNat (w : Word) : (codeField w).toNat = w.toNat % 2 ^ 5 := by
  simp [codeField]

theorem bitField_eq (w : Word) : bitField w = decide (w.toNat % 2 = 1) := by
  simp [bitField, BitVec.getLsbD, Nat.testBit_zero]

theorem bodyZeroFrom_iff (lo : Nat) (w : Word) :
    bodyZeroFrom lo w = true ↔ w.toNat / 2 ^ lo % 2 ^ (28 - lo) = 0 := by
  simp only [bodyZeroFrom, beq_iff_eq, BitVec.toNat_eq, BitVec.extractLsb'_toNat, Nat.shiftRight_eq_div_pow]
  simp

theorem append_toNat {m n : Nat} (x : BitVec m) (y : BitVec n) : (x ++ y).toNat = x.toNat * 2 ^ n + y.toNat := by
  rw [BitVec.toNat_append, ← Nat.shiftLeft_add_eq_or_of_lt y.isLt, Nat.shiftLeft_eq]

theorem plainWord_toNat (op : BitVec 4) (f : BitVec 24) : (plainWord op f).toNat = op.toNat * 2 ^ 28 + f.toNat := by
  simp only [plainWord, append_toNat]
  simp
  omega

theorem regWord_toNat (op reg : BitVec 4) (data : BitVec 24) :
    ((op ++ reg ++ data : BitVec (4 + 4 + 24))).toNat = op.toNat * 2 ^ 28 + reg.toNat * 2 ^ 24 + data.toNat := by
  simp only [append_toNat]
  omega

theorem ofBool_setWidth_toNat (b : Bool) : ((BitVec.ofBool b).setWidth 24).toNat = b.toNat := by
  cases b <;> rfl

end Sys2Proof
end

