-- ==== Sys2Proof/Laws/State.lean ====
section
/-! SUPPORT. One lemma per field and named operation of Machine/Ops.lean, each true by unfolding, so that no proof
unfolds a record update. -/

namespace Sys2Proof.Machine

variable (s : State)

@[simp] theorem State.advance_cfg : (s.advance).cfg = s.cfg := rfl
@[simp] theorem State.advance_mark : (s.advance).mark = s.mark := rfl
@[simp] theorem State.advance_shift : (s.advance).shift = s.shift := rfl
@[simp] theorem State.advance_baud : (s.advance).baud = s.baud := rfl
@[simp] theorem State.advance_stopb : (s.advance).stopb = s.stopb := rfl
@[simp] theorem State.advance_volume : (s.advance).volume = s.volume := rfl
@[simp] theorem State.advance_ctrl : (s.advance).ctrl = s.ctrl := rfl
@[simp] theorem State.advance_faults : (s.advance).faults = s.faults := rfl
@[simp] theorem State.advance_fsm : (s.advance).fsm = s.fsm := rfl
@[simp] theorem State.advance_acc : (s.advance).acc = s.acc := rfl
@[simp] theorem State.advance_count : (s.advance).count = s.count := rfl
@[simp] theorem State.advance_fecnt : (s.advance).fecnt = s.fecnt := rfl
@[simp] theorem State.advance_buf : (s.advance).buf = s.buf := rfl
@[simp] theorem State.advance_q : (s.advance).q = s.q := rfl
@[simp] theorem State.advance_closed : (s.advance).closed = s.closed := rfl
@[simp] theorem State.advance_phase : (s.advance).phase = s.phase := rfl
@[simp] theorem State.advance_pc : (s.advance).pc = s.pc + 1 := rfl
@[simp] theorem State.advance_rsp : (s.advance).rsp = s.rsp := rfl
@[simp] theorem State.advance_tx : (s.advance).tx = s.tx := rfl
@[simp] theorem State.advance_rx : (s.advance).rx = s.rx := rfl
@[simp] theorem State.advance_stream : (s.advance).stream = s.stream := rfl
@[simp] theorem State.advance_sched : (s.advance).sched = s.sched := rfl
@[simp] theorem State.advance_epoch : (s.advance).epoch = s.epoch := rfl

@[simp] theorem State.emitRsp_cfg (w : Word) : (s.emitRsp w).cfg = s.cfg := rfl
@[simp] theorem State.emitRsp_mark (w : Word) : (s.emitRsp w).mark = s.mark := rfl
@[simp] theorem State.emitRsp_shift (w : Word) : (s.emitRsp w).shift = s.shift := rfl
@[simp] theorem State.emitRsp_baud (w : Word) : (s.emitRsp w).baud = s.baud := rfl
@[simp] theorem State.emitRsp_stopb (w : Word) : (s.emitRsp w).stopb = s.stopb := rfl
@[simp] theorem State.emitRsp_volume (w : Word) : (s.emitRsp w).volume = s.volume := rfl
@[simp] theorem State.emitRsp_ctrl (w : Word) : (s.emitRsp w).ctrl = s.ctrl := rfl
@[simp] theorem State.emitRsp_faults (w : Word) : (s.emitRsp w).faults = s.faults := rfl
@[simp] theorem State.emitRsp_fsm (w : Word) : (s.emitRsp w).fsm = s.fsm := rfl
@[simp] theorem State.emitRsp_acc (w : Word) : (s.emitRsp w).acc = s.acc := rfl
@[simp] theorem State.emitRsp_count (w : Word) : (s.emitRsp w).count = s.count := rfl
@[simp] theorem State.emitRsp_fecnt (w : Word) : (s.emitRsp w).fecnt = s.fecnt := rfl
@[simp] theorem State.emitRsp_buf (w : Word) : (s.emitRsp w).buf = s.buf := rfl
@[simp] theorem State.emitRsp_q (w : Word) : (s.emitRsp w).q = s.q := rfl
@[simp] theorem State.emitRsp_closed (w : Word) : (s.emitRsp w).closed = s.closed := rfl
@[simp] theorem State.emitRsp_phase (w : Word) : (s.emitRsp w).phase = s.phase := rfl
@[simp] theorem State.emitRsp_pc (w : Word) : (s.emitRsp w).pc = s.pc := rfl
@[simp] theorem State.emitRsp_rsp (w : Word) : (s.emitRsp w).rsp = s.rsp ++ [w] := rfl
@[simp] theorem State.emitRsp_tx (w : Word) : (s.emitRsp w).tx = s.tx := rfl
@[simp] theorem State.emitRsp_rx (w : Word) : (s.emitRsp w).rx = s.rx := rfl
@[simp] theorem State.emitRsp_stream (w : Word) : (s.emitRsp w).stream = s.stream := rfl
@[simp] theorem State.emitRsp_sched (w : Word) : (s.emitRsp w).sched = s.sched := rfl
@[simp] theorem State.emitRsp_epoch (w : Word) : (s.emitRsp w).epoch = s.epoch := rfl

@[simp] theorem State.emitTx_cfg (l : List Sample) : (s.emitTx l).cfg = s.cfg := rfl
@[simp] theorem State.emitTx_mark (l : List Sample) : (s.emitTx l).mark = s.mark := rfl
@[simp] theorem State.emitTx_shift (l : List Sample) : (s.emitTx l).shift = s.shift := rfl
@[simp] theorem State.emitTx_baud (l : List Sample) : (s.emitTx l).baud = s.baud := rfl
@[simp] theorem State.emitTx_stopb (l : List Sample) : (s.emitTx l).stopb = s.stopb := rfl
@[simp] theorem State.emitTx_volume (l : List Sample) : (s.emitTx l).volume = s.volume := rfl
@[simp] theorem State.emitTx_ctrl (l : List Sample) : (s.emitTx l).ctrl = s.ctrl := rfl
@[simp] theorem State.emitTx_faults (l : List Sample) : (s.emitTx l).faults = s.faults := rfl
@[simp] theorem State.emitTx_fsm (l : List Sample) : (s.emitTx l).fsm = s.fsm := rfl
@[simp] theorem State.emitTx_acc (l : List Sample) : (s.emitTx l).acc = s.acc := rfl
@[simp] theorem State.emitTx_count (l : List Sample) : (s.emitTx l).count = s.count := rfl
@[simp] theorem State.emitTx_fecnt (l : List Sample) : (s.emitTx l).fecnt = s.fecnt := rfl
@[simp] theorem State.emitTx_buf (l : List Sample) : (s.emitTx l).buf = s.buf := rfl
@[simp] theorem State.emitTx_q (l : List Sample) : (s.emitTx l).q = s.q := rfl
@[simp] theorem State.emitTx_closed (l : List Sample) : (s.emitTx l).closed = s.closed := rfl
@[simp] theorem State.emitTx_phase (l : List Sample) : (s.emitTx l).phase = s.phase := rfl
@[simp] theorem State.emitTx_pc (l : List Sample) : (s.emitTx l).pc = s.pc := rfl
@[simp] theorem State.emitTx_rsp (l : List Sample) : (s.emitTx l).rsp = s.rsp := rfl
@[simp] theorem State.emitTx_tx (l : List Sample) : (s.emitTx l).tx = s.tx ++ l := rfl
@[simp] theorem State.emitTx_rx (l : List Sample) : (s.emitTx l).rx = s.rx := rfl
@[simp] theorem State.emitTx_stream (l : List Sample) : (s.emitTx l).stream = s.stream := rfl
@[simp] theorem State.emitTx_sched (l : List Sample) : (s.emitTx l).sched = s.sched := rfl
@[simp] theorem State.emitTx_epoch (l : List Sample) : (s.emitTx l).epoch = s.epoch := rfl

@[simp] theorem State.emitRx_cfg (r : Char8 × Bool) : (s.emitRx r).cfg = s.cfg := rfl
@[simp] theorem State.emitRx_mark (r : Char8 × Bool) : (s.emitRx r).mark = s.mark := rfl
@[simp] theorem State.emitRx_shift (r : Char8 × Bool) : (s.emitRx r).shift = s.shift := rfl
@[simp] theorem State.emitRx_baud (r : Char8 × Bool) : (s.emitRx r).baud = s.baud := rfl
@[simp] theorem State.emitRx_stopb (r : Char8 × Bool) : (s.emitRx r).stopb = s.stopb := rfl
@[simp] theorem State.emitRx_volume (r : Char8 × Bool) : (s.emitRx r).volume = s.volume := rfl
@[simp] theorem State.emitRx_ctrl (r : Char8 × Bool) : (s.emitRx r).ctrl = s.ctrl := rfl
@[simp] theorem State.emitRx_faults (r : Char8 × Bool) : (s.emitRx r).faults = s.faults := rfl
@[simp] theorem State.emitRx_fsm (r : Char8 × Bool) : (s.emitRx r).fsm = s.fsm := rfl
@[simp] theorem State.emitRx_acc (r : Char8 × Bool) : (s.emitRx r).acc = s.acc := rfl
@[simp] theorem State.emitRx_count (r : Char8 × Bool) : (s.emitRx r).count = s.count := rfl
@[simp] theorem State.emitRx_fecnt (r : Char8 × Bool) : (s.emitRx r).fecnt = s.fecnt := rfl
@[simp] theorem State.emitRx_buf (r : Char8 × Bool) : (s.emitRx r).buf = s.buf := rfl
@[simp] theorem State.emitRx_q (r : Char8 × Bool) : (s.emitRx r).q = s.q := rfl
@[simp] theorem State.emitRx_closed (r : Char8 × Bool) : (s.emitRx r).closed = s.closed := rfl
@[simp] theorem State.emitRx_phase (r : Char8 × Bool) : (s.emitRx r).phase = s.phase := rfl
@[simp] theorem State.emitRx_pc (r : Char8 × Bool) : (s.emitRx r).pc = s.pc := rfl
@[simp] theorem State.emitRx_rsp (r : Char8 × Bool) : (s.emitRx r).rsp = s.rsp := rfl
@[simp] theorem State.emitRx_tx (r : Char8 × Bool) : (s.emitRx r).tx = s.tx := rfl
@[simp] theorem State.emitRx_rx (r : Char8 × Bool) : (s.emitRx r).rx = s.rx ++ [r] := rfl
@[simp] theorem State.emitRx_stream (r : Char8 × Bool) : (s.emitRx r).stream = s.stream := rfl
@[simp] theorem State.emitRx_sched (r : Char8 × Bool) : (s.emitRx r).sched = s.sched := rfl
@[simp] theorem State.emitRx_epoch (r : Char8 × Bool) : (s.emitRx r).epoch = s.epoch := rfl

@[simp] theorem State.setPhase_cfg (p : Nat) : (s.setPhase p).cfg = s.cfg := rfl
@[simp] theorem State.setPhase_mark (p : Nat) : (s.setPhase p).mark = s.mark := rfl
@[simp] theorem State.setPhase_shift (p : Nat) : (s.setPhase p).shift = s.shift := rfl
@[simp] theorem State.setPhase_baud (p : Nat) : (s.setPhase p).baud = s.baud := rfl
@[simp] theorem State.setPhase_stopb (p : Nat) : (s.setPhase p).stopb = s.stopb := rfl
@[simp] theorem State.setPhase_volume (p : Nat) : (s.setPhase p).volume = s.volume := rfl
@[simp] theorem State.setPhase_ctrl (p : Nat) : (s.setPhase p).ctrl = s.ctrl := rfl
@[simp] theorem State.setPhase_faults (p : Nat) : (s.setPhase p).faults = s.faults := rfl
@[simp] theorem State.setPhase_fsm (p : Nat) : (s.setPhase p).fsm = s.fsm := rfl
@[simp] theorem State.setPhase_acc (p : Nat) : (s.setPhase p).acc = s.acc := rfl
@[simp] theorem State.setPhase_count (p : Nat) : (s.setPhase p).count = s.count := rfl
@[simp] theorem State.setPhase_fecnt (p : Nat) : (s.setPhase p).fecnt = s.fecnt := rfl
@[simp] theorem State.setPhase_buf (p : Nat) : (s.setPhase p).buf = s.buf := rfl
@[simp] theorem State.setPhase_q (p : Nat) : (s.setPhase p).q = s.q := rfl
@[simp] theorem State.setPhase_closed (p : Nat) : (s.setPhase p).closed = s.closed := rfl
@[simp] theorem State.setPhase_phase (p : Nat) : (s.setPhase p).phase = p := rfl
@[simp] theorem State.setPhase_pc (p : Nat) : (s.setPhase p).pc = s.pc := rfl
@[simp] theorem State.setPhase_rsp (p : Nat) : (s.setPhase p).rsp = s.rsp := rfl
@[simp] theorem State.setPhase_tx (p : Nat) : (s.setPhase p).tx = s.tx := rfl
@[simp] theorem State.setPhase_rx (p : Nat) : (s.setPhase p).rx = s.rx := rfl
@[simp] theorem State.setPhase_stream (p : Nat) : (s.setPhase p).stream = s.stream := rfl
@[simp] theorem State.setPhase_sched (p : Nat) : (s.setPhase p).sched = s.sched := rfl
@[simp] theorem State.setPhase_epoch (p : Nat) : (s.setPhase p).epoch = s.epoch := rfl

@[simp] theorem State.enqueue_cfg (e : Entry) : (s.enqueue e).cfg = s.cfg := rfl
@[simp] theorem State.enqueue_mark (e : Entry) : (s.enqueue e).mark = s.mark := rfl
@[simp] theorem State.enqueue_shift (e : Entry) : (s.enqueue e).shift = s.shift := rfl
@[simp] theorem State.enqueue_baud (e : Entry) : (s.enqueue e).baud = s.baud := rfl
@[simp] theorem State.enqueue_stopb (e : Entry) : (s.enqueue e).stopb = s.stopb := rfl
@[simp] theorem State.enqueue_volume (e : Entry) : (s.enqueue e).volume = s.volume := rfl
@[simp] theorem State.enqueue_ctrl (e : Entry) : (s.enqueue e).ctrl = s.ctrl := rfl
@[simp] theorem State.enqueue_faults (e : Entry) : (s.enqueue e).faults = s.faults := rfl
@[simp] theorem State.enqueue_fsm (e : Entry) : (s.enqueue e).fsm = s.fsm := rfl
@[simp] theorem State.enqueue_acc (e : Entry) : (s.enqueue e).acc = s.acc := rfl
@[simp] theorem State.enqueue_count (e : Entry) : (s.enqueue e).count = s.count := rfl
@[simp] theorem State.enqueue_fecnt (e : Entry) : (s.enqueue e).fecnt = s.fecnt := rfl
@[simp] theorem State.enqueue_buf (e : Entry) : (s.enqueue e).buf = s.buf := rfl
@[simp] theorem State.enqueue_q (e : Entry) : (s.enqueue e).q = s.q ++ [e] := rfl
@[simp] theorem State.enqueue_closed (e : Entry) : (s.enqueue e).closed = s.closed := rfl
@[simp] theorem State.enqueue_phase (e : Entry) : (s.enqueue e).phase = s.phase := rfl
@[simp] theorem State.enqueue_pc (e : Entry) : (s.enqueue e).pc = s.pc := rfl
@[simp] theorem State.enqueue_rsp (e : Entry) : (s.enqueue e).rsp = s.rsp := rfl
@[simp] theorem State.enqueue_tx (e : Entry) : (s.enqueue e).tx = s.tx := rfl
@[simp] theorem State.enqueue_rx (e : Entry) : (s.enqueue e).rx = s.rx := rfl
@[simp] theorem State.enqueue_stream (e : Entry) : (s.enqueue e).stream = s.stream := rfl
@[simp] theorem State.enqueue_sched (e : Entry) : (s.enqueue e).sched = s.sched := rfl
@[simp] theorem State.enqueue_epoch (e : Entry) : (s.enqueue e).epoch = s.epoch := rfl

@[simp] theorem State.raiseFault_cfg (e : Cause) : (s.raiseFault e).cfg = s.cfg := rfl
@[simp] theorem State.raiseFault_mark (e : Cause) : (s.raiseFault e).mark = s.mark := rfl
@[simp] theorem State.raiseFault_shift (e : Cause) : (s.raiseFault e).shift = s.shift := rfl
@[simp] theorem State.raiseFault_baud (e : Cause) : (s.raiseFault e).baud = s.baud := rfl
@[simp] theorem State.raiseFault_stopb (e : Cause) : (s.raiseFault e).stopb = s.stopb := rfl
@[simp] theorem State.raiseFault_volume (e : Cause) : (s.raiseFault e).volume = s.volume := rfl
@[simp] theorem State.raiseFault_ctrl (e : Cause) : (s.raiseFault e).ctrl = s.ctrl := rfl
@[simp] theorem State.raiseFault_faults (e : Cause) : (s.raiseFault e).faults = s.faults ||| e.mask := rfl
@[simp] theorem State.raiseFault_fsm (e : Cause) : (s.raiseFault e).fsm = s.fsm := rfl
@[simp] theorem State.raiseFault_acc (e : Cause) : (s.raiseFault e).acc = s.acc := rfl
@[simp] theorem State.raiseFault_count (e : Cause) : (s.raiseFault e).count = s.count := rfl
@[simp] theorem State.raiseFault_fecnt (e : Cause) : (s.raiseFault e).fecnt = s.fecnt := rfl
@[simp] theorem State.raiseFault_buf (e : Cause) : (s.raiseFault e).buf = s.buf := rfl
@[simp] theorem State.raiseFault_q (e : Cause) : (s.raiseFault e).q = s.q := rfl
@[simp] theorem State.raiseFault_closed (e : Cause) : (s.raiseFault e).closed = s.closed := rfl
@[simp] theorem State.raiseFault_phase (e : Cause) : (s.raiseFault e).phase = s.phase := rfl
@[simp] theorem State.raiseFault_pc (e : Cause) : (s.raiseFault e).pc = s.pc + 1 := rfl
@[simp] theorem State.raiseFault_rsp (e : Cause) : (s.raiseFault e).rsp = s.rsp := rfl
@[simp] theorem State.raiseFault_tx (e : Cause) : (s.raiseFault e).tx = s.tx := rfl
@[simp] theorem State.raiseFault_rx (e : Cause) : (s.raiseFault e).rx = s.rx := rfl
@[simp] theorem State.raiseFault_stream (e : Cause) : (s.raiseFault e).stream = s.stream := rfl
@[simp] theorem State.raiseFault_sched (e : Cause) : (s.raiseFault e).sched = s.sched := rfl
@[simp] theorem State.raiseFault_epoch (e : Cause) : (s.raiseFault e).epoch = s.epoch := rfl

@[simp] theorem State.flushRx_cfg : (s.flushRx).cfg = s.cfg := rfl
@[simp] theorem State.flushRx_mark : (s.flushRx).mark = s.mark := rfl
@[simp] theorem State.flushRx_shift : (s.flushRx).shift = s.shift := rfl
@[simp] theorem State.flushRx_baud : (s.flushRx).baud = s.baud := rfl
@[simp] theorem State.flushRx_stopb : (s.flushRx).stopb = s.stopb := rfl
@[simp] theorem State.flushRx_volume : (s.flushRx).volume = s.volume := rfl
@[simp] theorem State.flushRx_ctrl : (s.flushRx).ctrl = s.ctrl := rfl
@[simp] theorem State.flushRx_faults : (s.flushRx).faults = s.faults := rfl
@[simp] theorem State.flushRx_fsm : (s.flushRx).fsm = .idle := rfl
@[simp] theorem State.flushRx_acc : (s.flushRx).acc = 0 := rfl
@[simp] theorem State.flushRx_count : (s.flushRx).count = 0 := rfl
@[simp] theorem State.flushRx_fecnt : (s.flushRx).fecnt = s.fecnt := rfl
@[simp] theorem State.flushRx_buf : (s.flushRx).buf = [] := rfl
@[simp] theorem State.flushRx_q : (s.flushRx).q = s.q := rfl
@[simp] theorem State.flushRx_closed : (s.flushRx).closed = s.closed := rfl
@[simp] theorem State.flushRx_phase : (s.flushRx).phase = s.phase := rfl
@[simp] theorem State.flushRx_pc : (s.flushRx).pc = s.pc := rfl
@[simp] theorem State.flushRx_rsp : (s.flushRx).rsp = s.rsp := rfl
@[simp] theorem State.flushRx_tx : (s.flushRx).tx = s.tx := rfl
@[simp] theorem State.flushRx_rx : (s.flushRx).rx = s.rx := rfl
@[simp] theorem State.flushRx_stream : (s.flushRx).stream = s.stream := rfl
@[simp] theorem State.flushRx_sched : (s.flushRx).sched = s.sched := rfl
@[simp] theorem State.flushRx_epoch : (s.flushRx).epoch = s.epoch := rfl

@[simp] theorem State.resetCore_cfg : (s.resetCore).cfg = s.cfg := rfl
@[simp] theorem State.resetCore_mark : (s.resetCore).mark = 2125 := rfl
@[simp] theorem State.resetCore_shift : (s.resetCore).shift = 170 := rfl
@[simp] theorem State.resetCore_baud : (s.resetCore).baud = 4545 := rfl
@[simp] theorem State.resetCore_stopb : (s.resetCore).stopb = 2 := rfl
@[simp] theorem State.resetCore_volume : (s.resetCore).volume = 32768 := rfl
@[simp] theorem State.resetCore_ctrl : (s.resetCore).ctrl = 0 := rfl
@[simp] theorem State.resetCore_faults : (s.resetCore).faults = 0 := rfl
@[simp] theorem State.resetCore_fsm : (s.resetCore).fsm = .idle := rfl
@[simp] theorem State.resetCore_acc : (s.resetCore).acc = 0 := rfl
@[simp] theorem State.resetCore_count : (s.resetCore).count = 0 := rfl
@[simp] theorem State.resetCore_fecnt : (s.resetCore).fecnt = 0 := rfl
@[simp] theorem State.resetCore_buf : (s.resetCore).buf = [] := rfl
@[simp] theorem State.resetCore_q : (s.resetCore).q = [] := rfl
@[simp] theorem State.resetCore_closed : (s.resetCore).closed = false := rfl
@[simp] theorem State.resetCore_phase : (s.resetCore).phase = 0 := rfl
@[simp] theorem State.resetCore_pc : (s.resetCore).pc = s.pc := rfl
@[simp] theorem State.resetCore_rsp : (s.resetCore).rsp = s.rsp := rfl
@[simp] theorem State.resetCore_tx : (s.resetCore).tx = s.tx := rfl
@[simp] theorem State.resetCore_rx : (s.resetCore).rx = s.rx := rfl
@[simp] theorem State.resetCore_stream : (s.resetCore).stream = s.stream := rfl
@[simp] theorem State.resetCore_sched : (s.resetCore).sched = s.sched := rfl
@[simp] theorem State.resetCore_epoch : (s.resetCore).epoch = s.epoch := rfl

end Sys2Proof.Machine
end

