-- ==== Sys2Proof/Laws/Frames.lean ====
section
/-! SUPPORT. The fields that the shared operations of the units leave unchanged, one lemma per field. -/

namespace Sys2Proof.Machine

variable (s : State)

@[simp] theorem State.fsmStep_cfg (b : LineBit) : (s.fsmStep b).cfg = s.cfg := by
  cases h : s.fsm <;> cases b <;> simp [State.fsmStep, State.fsmIdle, State.fsmCollect, State.fsmStop, h]
@[simp] theorem State.fsmStep_mark (b : LineBit) : (s.fsmStep b).mark = s.mark := by
  cases h : s.fsm <;> cases b <;> simp [State.fsmStep, State.fsmIdle, State.fsmCollect, State.fsmStop, h]
@[simp] theorem State.fsmStep_shift (b : LineBit) : (s.fsmStep b).shift = s.shift := by
  cases h : s.fsm <;> cases b <;> simp [State.fsmStep, State.fsmIdle, State.fsmCollect, State.fsmStop, h]
@[simp] theorem State.fsmStep_baud (b : LineBit) : (s.fsmStep b).baud = s.baud := by
  cases h : s.fsm <;> cases b <;> simp [State.fsmStep, State.fsmIdle, State.fsmCollect, State.fsmStop, h]
@[simp] theorem State.fsmStep_stopb (b : LineBit) : (s.fsmStep b).stopb = s.stopb := by
  cases h : s.fsm <;> cases b <;> simp [State.fsmStep, State.fsmIdle, State.fsmCollect, State.fsmStop, h]
@[simp] theorem State.fsmStep_volume (b : LineBit) : (s.fsmStep b).volume = s.volume := by
  cases h : s.fsm <;> cases b <;> simp [State.fsmStep, State.fsmIdle, State.fsmCollect, State.fsmStop, h]
@[simp] theorem State.fsmStep_ctrl (b : LineBit) : (s.fsmStep b).ctrl = s.ctrl := by
  cases h : s.fsm <;> cases b <;> simp [State.fsmStep, State.fsmIdle, State.fsmCollect, State.fsmStop, h]
@[simp] theorem State.fsmStep_faults (b : LineBit) : (s.fsmStep b).faults = s.faults := by
  cases h : s.fsm <;> cases b <;> simp [State.fsmStep, State.fsmIdle, State.fsmCollect, State.fsmStop, h]
@[simp] theorem State.fsmStep_buf (b : LineBit) : (s.fsmStep b).buf = s.buf := by
  cases h : s.fsm <;> cases b <;> simp [State.fsmStep, State.fsmIdle, State.fsmCollect, State.fsmStop, h]
@[simp] theorem State.fsmStep_q (b : LineBit) : (s.fsmStep b).q = s.q := by
  cases h : s.fsm <;> cases b <;> simp [State.fsmStep, State.fsmIdle, State.fsmCollect, State.fsmStop, h]
@[simp] theorem State.fsmStep_closed (b : LineBit) : (s.fsmStep b).closed = s.closed := by
  cases h : s.fsm <;> cases b <;> simp [State.fsmStep, State.fsmIdle, State.fsmCollect, State.fsmStop, h]
@[simp] theorem State.fsmStep_phase (b : LineBit) : (s.fsmStep b).phase = s.phase := by
  cases h : s.fsm <;> cases b <;> simp [State.fsmStep, State.fsmIdle, State.fsmCollect, State.fsmStop, h]
@[simp] theorem State.fsmStep_pc (b : LineBit) : (s.fsmStep b).pc = s.pc := by
  cases h : s.fsm <;> cases b <;> simp [State.fsmStep, State.fsmIdle, State.fsmCollect, State.fsmStop, h]
@[simp] theorem State.fsmStep_rsp (b : LineBit) : (s.fsmStep b).rsp = s.rsp := by
  cases h : s.fsm <;> cases b <;> simp [State.fsmStep, State.fsmIdle, State.fsmCollect, State.fsmStop, h]
@[simp] theorem State.fsmStep_tx (b : LineBit) : (s.fsmStep b).tx = s.tx := by
  cases h : s.fsm <;> cases b <;> simp [State.fsmStep, State.fsmIdle, State.fsmCollect, State.fsmStop, h]
@[simp] theorem State.fsmStep_stream (b : LineBit) : (s.fsmStep b).stream = s.stream := by
  cases h : s.fsm <;> cases b <;> simp [State.fsmStep, State.fsmIdle, State.fsmCollect, State.fsmStop, h]
@[simp] theorem State.fsmStep_sched (b : LineBit) : (s.fsmStep b).sched = s.sched := by
  cases h : s.fsm <;> cases b <;> simp [State.fsmStep, State.fsmIdle, State.fsmCollect, State.fsmStop, h]
@[simp] theorem State.fsmStep_epoch (b : LineBit) : (s.fsmStep b).epoch = s.epoch := by
  cases h : s.fsm <;> cases b <;> simp [State.fsmStep, State.fsmIdle, State.fsmCollect, State.fsmStop, h]

@[simp] theorem State.transmit_cfg (bits : List LineBit) : (s.transmit bits).cfg = s.cfg := rfl
@[simp] theorem State.transmit_mark (bits : List LineBit) : (s.transmit bits).mark = s.mark := rfl
@[simp] theorem State.transmit_shift (bits : List LineBit) : (s.transmit bits).shift = s.shift := rfl
@[simp] theorem State.transmit_baud (bits : List LineBit) : (s.transmit bits).baud = s.baud := rfl
@[simp] theorem State.transmit_stopb (bits : List LineBit) : (s.transmit bits).stopb = s.stopb := rfl
@[simp] theorem State.transmit_volume (bits : List LineBit) : (s.transmit bits).volume = s.volume := rfl
@[simp] theorem State.transmit_ctrl (bits : List LineBit) : (s.transmit bits).ctrl = s.ctrl := rfl
@[simp] theorem State.transmit_faults (bits : List LineBit) : (s.transmit bits).faults = s.faults := rfl
@[simp] theorem State.transmit_fsm (bits : List LineBit) : (s.transmit bits).fsm = s.fsm := rfl
@[simp] theorem State.transmit_acc (bits : List LineBit) : (s.transmit bits).acc = s.acc := rfl
@[simp] theorem State.transmit_count (bits : List LineBit) : (s.transmit bits).count = s.count := rfl
@[simp] theorem State.transmit_fecnt (bits : List LineBit) : (s.transmit bits).fecnt = s.fecnt := rfl
@[simp] theorem State.transmit_buf (bits : List LineBit) : (s.transmit bits).buf = s.buf := rfl
@[simp] theorem State.transmit_q (bits : List LineBit) : (s.transmit bits).q = s.q := rfl
@[simp] theorem State.transmit_closed (bits : List LineBit) : (s.transmit bits).closed = s.closed := rfl
@[simp] theorem State.transmit_pc (bits : List LineBit) : (s.transmit bits).pc = s.pc := rfl
@[simp] theorem State.transmit_rsp (bits : List LineBit) : (s.transmit bits).rsp = s.rsp := rfl
@[simp] theorem State.transmit_rx (bits : List LineBit) : (s.transmit bits).rx = s.rx := rfl
@[simp] theorem State.transmit_stream (bits : List LineBit) : (s.transmit bits).stream = s.stream := rfl
@[simp] theorem State.transmit_sched (bits : List LineBit) : (s.transmit bits).sched = s.sched := rfl
@[simp] theorem State.transmit_epoch (bits : List LineBit) : (s.transmit bits).epoch = s.epoch := rfl

@[simp] theorem State.writeReg_cfg (r : Reg) (v : Word) : (s.writeReg r v).cfg = s.cfg := by
  cases r <;> rfl
@[simp] theorem State.writeReg_faults (r : Reg) (v : Word) : (s.writeReg r v).faults = s.faults := by
  cases r <;> rfl
@[simp] theorem State.writeReg_fsm (r : Reg) (v : Word) : (s.writeReg r v).fsm = s.fsm := by
  cases r <;> rfl
@[simp] theorem State.writeReg_acc (r : Reg) (v : Word) : (s.writeReg r v).acc = s.acc := by
  cases r <;> rfl
@[simp] theorem State.writeReg_count (r : Reg) (v : Word) : (s.writeReg r v).count = s.count := by
  cases r <;> rfl
@[simp] theorem State.writeReg_fecnt (r : Reg) (v : Word) : (s.writeReg r v).fecnt = s.fecnt := by
  cases r <;> rfl
@[simp] theorem State.writeReg_buf (r : Reg) (v : Word) : (s.writeReg r v).buf = s.buf := by
  cases r <;> rfl
@[simp] theorem State.writeReg_q (r : Reg) (v : Word) : (s.writeReg r v).q = s.q := by
  cases r <;> rfl
@[simp] theorem State.writeReg_closed (r : Reg) (v : Word) : (s.writeReg r v).closed = s.closed := by
  cases r <;> rfl
@[simp] theorem State.writeReg_phase (r : Reg) (v : Word) : (s.writeReg r v).phase = s.phase := by
  cases r <;> rfl
@[simp] theorem State.writeReg_pc (r : Reg) (v : Word) : (s.writeReg r v).pc = s.pc := by
  cases r <;> rfl
@[simp] theorem State.writeReg_rsp (r : Reg) (v : Word) : (s.writeReg r v).rsp = s.rsp := by
  cases r <;> rfl
@[simp] theorem State.writeReg_tx (r : Reg) (v : Word) : (s.writeReg r v).tx = s.tx := by
  cases r <;> rfl
@[simp] theorem State.writeReg_rx (r : Reg) (v : Word) : (s.writeReg r v).rx = s.rx := by
  cases r <;> rfl
@[simp] theorem State.writeReg_stream (r : Reg) (v : Word) : (s.writeReg r v).stream = s.stream := by
  cases r <;> rfl
@[simp] theorem State.writeReg_sched (r : Reg) (v : Word) : (s.writeReg r v).sched = s.sched := by
  cases r <;> rfl
@[simp] theorem State.writeReg_epoch (r : Reg) (v : Word) : (s.writeReg r v).epoch = s.epoch := by
  cases r <;> rfl

@[simp] theorem State.consumerWin_cfg  : (s.consumerWin).cfg = s.cfg := by
  simp [State.consumerWin]
@[simp] theorem State.consumerWin_mark  : (s.consumerWin).mark = s.mark := by
  simp [State.consumerWin]
@[simp] theorem State.consumerWin_shift  : (s.consumerWin).shift = s.shift := by
  simp [State.consumerWin]
@[simp] theorem State.consumerWin_baud  : (s.consumerWin).baud = s.baud := by
  simp [State.consumerWin]
@[simp] theorem State.consumerWin_stopb  : (s.consumerWin).stopb = s.stopb := by
  simp [State.consumerWin]
@[simp] theorem State.consumerWin_volume  : (s.consumerWin).volume = s.volume := by
  simp [State.consumerWin]
@[simp] theorem State.consumerWin_ctrl  : (s.consumerWin).ctrl = s.ctrl := by
  simp [State.consumerWin]
@[simp] theorem State.consumerWin_faults  : (s.consumerWin).faults = s.faults := by
  simp [State.consumerWin]
@[simp] theorem State.consumerWin_q  : (s.consumerWin).q = s.q := by
  simp [State.consumerWin]
@[simp] theorem State.consumerWin_closed  : (s.consumerWin).closed = s.closed := by
  simp [State.consumerWin]
@[simp] theorem State.consumerWin_phase  : (s.consumerWin).phase = s.phase := by
  simp [State.consumerWin]
@[simp] theorem State.consumerWin_pc  : (s.consumerWin).pc = s.pc := by
  simp [State.consumerWin]
@[simp] theorem State.consumerWin_rsp  : (s.consumerWin).rsp = s.rsp := by
  simp [State.consumerWin]
@[simp] theorem State.consumerWin_tx  : (s.consumerWin).tx = s.tx := by
  simp [State.consumerWin]
@[simp] theorem State.consumerWin_stream  : (s.consumerWin).stream = s.stream := by
  simp [State.consumerWin]
@[simp] theorem State.consumerWin_sched  : (s.consumerWin).sched = s.sched := by
  simp [State.consumerWin]
@[simp] theorem State.consumerWin_epoch  : (s.consumerWin).epoch = s.epoch := by
  simp [State.consumerWin]

@[simp] theorem State.consumerWin_buf : s.consumerWin.buf = s.buf.drop s.spb := by
  simp [State.consumerWin]

@[simp] theorem State.transmit_tx (bits : List LineBit) :
    (s.transmit bits).tx = s.tx ++ (render s bits s.phase).1 := rfl

@[simp] theorem State.transmit_phase (bits : List LineBit) :
    (s.transmit bits).phase = (render s bits s.phase).2 := rfl

end Sys2Proof.Machine
end

