-- ==== Sys2Proof/Laws/Numerics.lean ====
section
/-! SUPPORT. The enclosures enclose: one lemma for each operation of Machine/Numerics.lean. -/

namespace Sys2Proof.Machine

/-- The enclosure `a` at precision `P` holds the real `x`. -/
def Enc.Holds (P : ℕ) (a : Enc) (x : ℝ) : Prop := (a.lo : ℝ) ≤ x * 2 ^ P ∧ x * 2 ^ P ≤ (a.hi : ℝ)

theorem Enc.ofInt_holds (P : ℕ) (c : ℤ) : (Enc.ofInt P c).Holds P c := by
  simp [Enc.Holds, Enc.ofInt]

theorem Enc.add_holds {P : ℕ} {a b : Enc} {x y : ℝ} (ha : a.Holds P x) (hb : b.Holds P y) :
    (a.add b).Holds P (x + y) := by
  obtain ⟨h1, h2⟩ := ha
  obtain ⟨h3, h4⟩ := hb
  constructor <;> simp only [Enc.add, Int.cast_add, add_mul] <;> linarith

theorem Enc.neg_holds {P : ℕ} {a : Enc} {x : ℝ} (ha : a.Holds P x) : a.neg.Holds P (-x) := by
  obtain ⟨h1, h2⟩ := ha
  constructor <;> simp only [Enc.neg, Int.cast_neg, neg_mul] <;> linarith

theorem Enc.sub_holds {P : ℕ} {a b : Enc} {x y : ℝ} (ha : a.Holds P x) (hb : b.Holds P y) :
    (a.sub b).Holds P (x - y) := by
  rw [sub_eq_add_neg]
  exact Enc.add_holds ha (Enc.neg_holds hb)

theorem Enc.scale_holds {P : ℕ} {a : Enc} {x : ℝ} (c : ℤ) (ha : a.Holds P x) : (a.scale c).Holds P (c * x) := by
  obtain ⟨h1, h2⟩ := ha
  unfold Enc.scale
  split
  · rename_i h
    have hc : (0 : ℝ) ≤ c := by exact_mod_cast h
    constructor <;> simp only [Int.cast_mul, mul_assoc] <;> gcongr
  · rename_i h
    have hc : (c : ℝ) ≤ 0 := by exact_mod_cast (not_le.mp h).le
    constructor <;> simp only [Int.cast_mul, mul_assoc] <;> exact mul_le_mul_of_nonpos_left (by assumption) hc

/-- Floor division of integers is below the quotient of reals. -/
theorem int_div_le (a : ℤ) {d : ℤ} (hd : 0 < d) : ((a / d : ℤ) : ℝ) ≤ (a : ℝ) / d := by
  have hd' : (0 : ℝ) < d := by exact_mod_cast hd
  rw [le_div_iff₀ hd']
  exact_mod_cast Int.ediv_mul_le a hd.ne'

theorem Enc.divNat_holds {P : ℕ} {a : Enc} {x : ℝ} {d : ℕ} (hd : 0 < d) (ha : a.Holds P x) :
    (a.divNat d).Holds P (x / d) := by
  obtain ⟨h1, h2⟩ := ha
  have hd' : (0 : ℝ) < d := by exact_mod_cast hd
  have hz : (0 : ℤ) < d := by exact_mod_cast hd
  have e1 := int_div_le a.lo hz
  have e2 := int_div_le (-a.hi) hz
  push_cast at e1 e2
  constructor
  · refine e1.trans ?_
    rw [div_mul_eq_mul_div]
    gcongr
  · simp only [Enc.divNat, Int.cast_neg]
    rw [div_mul_eq_mul_div]
    have : x * 2 ^ P / d ≤ (a.hi : ℝ) / d := by gcongr
    rw [neg_div] at e2
    linarith

/-- A product lies between the least and the greatest product of the endpoints. -/
theorem mul_between {a b c d x y : ℝ} (hx : a ≤ x ∧ x ≤ b) (hy : c ≤ y ∧ y ≤ d) :
    min (min (a * c) (a * d)) (min (b * c) (b * d)) ≤ x * y ∧
      x * y ≤ max (max (a * c) (a * d)) (max (b * c) (b * d)) := by
  obtain ⟨h1, h2⟩ := hx
  obtain ⟨h3, h4⟩ := hy
  have lowEnd : ∀ z : ℝ, min (z * c) (z * d) ≤ z * y := fun z => by
    rcases le_total 0 z with hz | hz
    · exact (min_le_left _ _).trans (mul_le_mul_of_nonneg_left h3 hz)
    · exact (min_le_right _ _).trans (mul_le_mul_of_nonpos_left h4 hz)
  have highEnd : ∀ z : ℝ, z * y ≤ max (z * c) (z * d) := fun z => by
    rcases le_total 0 z with hz | hz
    · exact (mul_le_mul_of_nonneg_left h4 hz).trans (le_max_right _ _)
    · exact (mul_le_mul_of_nonpos_left h3 hz).trans (le_max_left _ _)
  constructor
  · rcases le_total 0 y with hy0 | hy0
    · exact (min_le_left _ _).trans ((lowEnd a).trans (mul_le_mul_of_nonneg_right h1 hy0))
    · exact (min_le_right _ _).trans ((lowEnd b).trans (mul_le_mul_of_nonpos_right h2 hy0))
  · rcases le_total 0 y with hy0 | hy0
    · exact (mul_le_mul_of_nonneg_right h2 hy0).trans ((highEnd b).trans (le_max_right _ _))
    · exact (mul_le_mul_of_nonpos_right h1 hy0).trans ((highEnd a).trans (le_max_left _ _))

theorem Enc.mul_holds {P : ℕ} {a b : Enc} {x y : ℝ} (ha : a.Holds P x) (hb : b.Holds P y) :
    (a.mul P b).Holds P (x * y) := by
  obtain ⟨h1, h2⟩ := mul_between ha hb
  have hP : (0 : ℝ) < 2 ^ P := by positivity
  have hZ : (0 : ℤ) < 2 ^ P := by positivity
  have e : x * y * 2 ^ P = x * 2 ^ P * (y * 2 ^ P) / 2 ^ P := by field_simp
  have e1 := int_div_le (min (min (a.lo * b.lo) (a.lo * b.hi)) (min (a.hi * b.lo) (a.hi * b.hi))) hZ
  have e2 := int_div_le (-(max (max (a.lo * b.lo) (a.lo * b.hi)) (max (a.hi * b.lo) (a.hi * b.hi)))) hZ
  push_cast at e1 e2
  rw [Enc.Holds, e]
  constructor
  · refine e1.trans ?_
    gcongr
  · simp only [Enc.mul, Int.cast_neg]
    rw [neg_div] at e2
    have := div_le_div_of_nonneg_right h2 hP.le
    linarith

/-- The sum of the first `k` terms of the arctangent series at `1 / n`. -/
theorem arctanSum_holds (P : ℕ) {n : ℕ} (hn : 0 < n) (k : ℕ) :
    (arctanSum P n k).Holds P (∑ i ∈ Finset.range k, (-1 : ℝ) ^ i * (1 / (((2 * i + 1 : ℕ) : ℝ) * n ^ (2 * i + 1)))) := by
  induction k with
  | zero => simpa [arctanSum] using Enc.ofInt_holds P 0
  | succ k ih =>
    rw [Finset.sum_range_succ]
    refine Enc.add_holds ih ?_
    have h := Enc.divNat_holds (d := (2 * k + 1) * n ^ (2 * k + 1)) (by positivity) (Enc.ofInt_holds P ((-1) ^ k))
    convert h using 1
    push_cast
    ring_nf

/-- The arctangent of `1 / n` lies between a sum of evenly many terms and that of one term more. -/
theorem arctan_between {n : ℕ} (hn : 2 ≤ n) (m : ℕ) :
    ∑ i ∈ Finset.range (2 * m), (-1 : ℝ) ^ i * (1 / (((2 * i + 1 : ℕ) : ℝ) * n ^ (2 * i + 1))) ≤ Real.arctan (n : ℝ)⁻¹ ∧
    Real.arctan (n : ℝ)⁻¹ ≤
      ∑ i ∈ Finset.range (2 * m + 1), (-1 : ℝ) ^ i * (1 / (((2 * i + 1 : ℕ) : ℝ) * n ^ (2 * i + 1))) := by
  have hn0 : (0 : ℝ) < n := by positivity
  have hn1 : (1 : ℝ) < n := by exact_mod_cast hn
  have hx : ‖(n : ℝ)⁻¹‖ < 1 := by
    rw [norm_inv, Real.norm_of_nonneg hn0.le]
    exact inv_lt_one_of_one_lt₀ hn1
  have hs := (Real.hasSum_arctan hx).tendsto_sum_nat
  have hterm : ∀ i : ℕ, (-1 : ℝ) ^ i * (n : ℝ)⁻¹ ^ (2 * i + 1) / ((2 * i + 1 : ℕ) : ℝ)
      = (-1 : ℝ) ^ i * (1 / (((2 * i + 1 : ℕ) : ℝ) * n ^ (2 * i + 1))) := fun i => by
    rw [inv_pow]
    field_simp
  have hs' : Filter.Tendsto (fun k => ∑ i ∈ Finset.range k,
      (-1 : ℝ) ^ i * (1 / (((2 * i + 1 : ℕ) : ℝ) * n ^ (2 * i + 1)))) Filter.atTop
      (nhds (Real.arctan (n : ℝ)⁻¹)) := by
    refine hs.congr fun k => Finset.sum_congr rfl fun i _ => ?_
    rw [← hterm i]
  have hanti : Antitone fun i : ℕ => 1 / (((2 * i + 1 : ℕ) : ℝ) * (n : ℝ) ^ (2 * i + 1)) := by
    intro i j hij
    apply one_div_le_one_div_of_le (by positivity)
    have hp : (n : ℝ) ^ (2 * i + 1) ≤ (n : ℝ) ^ (2 * j + 1) := pow_le_pow_right₀ hn1.le (by omega)
    have hk : ((2 * i + 1 : ℕ) : ℝ) ≤ ((2 * j + 1 : ℕ) : ℝ) := by exact_mod_cast (by omega : 2 * i + 1 ≤ 2 * j + 1)
    gcongr
  exact ⟨hanti.alternating_series_le_tendsto hs' m, hanti.tendsto_le_alternating_series hs' m⟩

theorem arctanEnc_holds (P : ℕ) {n : ℕ} (hn : 2 ≤ n) (m : ℕ) :
    (arctanEnc P n m).Holds P (Real.arctan (n : ℝ)⁻¹) := by
  obtain ⟨h1, h2⟩ := arctan_between hn m
  obtain ⟨s1, s2⟩ := arctanSum_holds P (by omega : 0 < n) (2 * m)
  have ht := Enc.divNat_holds (d := (4 * m + 1) * n ^ (4 * m + 1)) (by positivity) (Enc.ofInt_holds P 1)
  rw [Finset.sum_range_succ] at h2
  have hP : (0 : ℝ) < 2 ^ P := by positivity
  have e4 : 2 * (2 * m) + 1 = 4 * m + 1 := by ring
  rw [e4, pow_mul, neg_one_sq, one_pow, one_mul] at h2
  have h1' := mul_le_mul_of_nonneg_right h1 hP.le
  have h2' := mul_le_mul_of_nonneg_right h2 hP.le
  have ht2 := ht.2
  rw [Int.cast_one, Nat.cast_mul, Nat.cast_pow] at ht2
  rw [add_mul] at h2'
  constructor
  · simp only [arctanEnc, Enc.add, add_zero]
    linarith
  · simp only [arctanEnc, Enc.add, Int.cast_add]
    linarith

theorem piEnc_holds (P : ℕ) : (piEnc P).Holds P Real.pi := by
  have h5 := Enc.scale_holds 16 (arctanEnc_holds P (n := 5) (by norm_num) (P / 8 + 1))
  have h239 := Enc.scale_holds (-4) (arctanEnc_holds P (n := 239) (by norm_num) (P / 32 + 1))
  have h := Enc.add_holds h5 h239
  have e := Real.four_mul_arctan_inv_5_sub_arctan_inv_239
  have e' : Real.pi = ((16 : ℤ) : ℝ) * Real.arctan ((5 : ℕ) : ℝ)⁻¹ + ((-4 : ℤ) : ℝ) * Real.arctan ((239 : ℕ) : ℝ)⁻¹ := by
    have c16 : ((16 : ℤ) : ℝ) = 16 := by norm_num
    have c4 : ((-4 : ℤ) : ℝ) = -4 := by norm_num
    have c5 : ((5 : ℕ) : ℝ) = 5 := by norm_num
    have c239 : ((239 : ℕ) : ℝ) = 239 := by norm_num
    rw [c16, c4, c5, c239]
    linarith
  rw [e']
  exact h

/-- Term number `k` of the cosine series. -/
noncomputable def cosTerm (x : ℝ) (k : ℕ) : ℝ := (-1) ^ k * x ^ (2 * k) / ((2 * k).factorial : ℝ)

theorem cosTerm_succ (x : ℝ) (k : ℕ) :
    cosTerm x (k + 1) = -(cosTerm x k * (x * x) / (((2 * k + 1) * (2 * k + 2) : ℕ) : ℝ)) := by
  unfold cosTerm
  have e : (2 * (k + 1)).factorial = (2 * k + 2) * ((2 * k + 1) * (2 * k).factorial) := by
    rw [show 2 * (k + 1) = (2 * k + 1) + 1 by ring, Nat.factorial_succ, Nat.factorial_succ]
  rw [e]
  have hf : ((2 * k).factorial : ℝ) ≠ 0 := by positivity
  push_cast
  field_simp
  ring

theorem cosSeries_holds {P : ℕ} {x2 : Enc} {x : ℝ} (h2 : x2.Holds P (x * x)) (n : ℕ) :
    ∀ (k : ℕ) (t acc : Enc) (a : ℝ), t.Holds P (cosTerm x k) → acc.Holds P a →
      (cosSeries P x2 n k t acc).Holds P (a + ∑ i ∈ Finset.range n, cosTerm x (k + i)) := by
  induction n with
  | zero =>
    intro k t acc a _ ha
    rw [Finset.range_zero, Finset.sum_empty, add_zero]
    exact ha
  | succ n ih =>
    intro k t acc a ht ha
    have ht' : (((t.mul P x2).divNat ((2 * k + 1) * (2 * k + 2))).neg).Holds P (cosTerm x (k + 1)) := by
      rw [cosTerm_succ]
      exact Enc.neg_holds (Enc.divNat_holds (by positivity) (Enc.mul_holds ht h2))
    have h := ih (k + 1) _ _ _ ht' (Enc.add_holds ha ht)
    have e : a + ∑ i ∈ Finset.range (n + 1), cosTerm x (k + i)
        = a + cosTerm x k + ∑ i ∈ Finset.range n, cosTerm x (k + 1 + i) := by
      have e' : ∀ i, k + (i + 1) = k + 1 + i := fun i => by omega
      rw [Finset.sum_range_succ', add_zero, Finset.sum_congr rfl fun i _ => by rw [e' i]]
      ring
    rw [e]
    exact h

/-- The rest of the cosine series after `K` terms, for an argument in `-1 .. 1`. -/
theorem cos_sub_series_le {x : ℝ} (hx : |x| ≤ 1) {K : ℕ} (hK : 0 < K) :
    |Real.cos x - ∑ i ∈ Finset.range K, cosTerm x i| ≤ 2 / ((2 * K).factorial : ℝ) := by
  have hn : ‖(x : ℂ) * Complex.I‖ ≤ 1 := by simpa using hx
  have h := Complex.exp_bound hn (n := 2 * K) (by omega)
  have hre : (Complex.exp (x * Complex.I) - ∑ m ∈ Finset.range (2 * K), ((x : ℂ) * Complex.I) ^ m / m.factorial).re
      = Real.cos x - ∑ i ∈ Finset.range K, cosTerm x i := by
    rw [Complex.sub_re, Complex.exp_ofReal_mul_I_re]
    congr 1
    clear h hK
    induction K with
    | zero => simp
    | succ K ih =>
      rw [show 2 * (K + 1) = 2 * K + 1 + 1 by ring, Finset.sum_range_succ, Finset.sum_range_succ, Complex.add_re,
        Complex.add_re, ih, Finset.sum_range_succ, add_assoc]
      congr 1
      have e0 : ((x : ℂ) * Complex.I) ^ (2 * K) = (((-1) ^ K * x ^ (2 * K) : ℝ) : ℂ) := by
        rw [mul_pow, pow_mul Complex.I, Complex.I_sq]
        push_cast
        ring
      have z1 : (((x : ℂ) * Complex.I) ^ (2 * K + 1) / ((2 * K + 1).factorial : ℂ)).re = 0 := by
        rw [pow_succ, e0, ← mul_assoc, ← Complex.ofReal_mul, mul_div_right_comm]
        rw [show (((2 * K + 1).factorial : ℕ) : ℂ) = ((((2 * K + 1).factorial : ℕ) : ℝ) : ℂ) by norm_cast,
          ← Complex.ofReal_div, Complex.re_ofReal_mul, Complex.I_re, mul_zero]
      have z0 : (((x : ℂ) * Complex.I) ^ (2 * K) / ((2 * K).factorial : ℂ)).re = cosTerm x K := by
        rw [e0, show (((2 * K).factorial : ℕ) : ℂ) = ((((2 * K).factorial : ℕ) : ℝ) : ℂ) by norm_cast,
          ← Complex.ofReal_div, Complex.ofReal_re]
        rfl
      rw [z0, z1, add_zero]
  have h1 : |Real.cos x - ∑ i ∈ Finset.range K, cosTerm x i|
      ≤ ‖(x : ℂ) * Complex.I‖ ^ (2 * K) * (((2 * K).succ : ℝ) * (((2 * K).factorial : ℝ) * ((2 * K : ℕ) : ℝ))⁻¹) := by
    rw [← hre]
    exact (Complex.abs_re_le_norm _).trans h
  refine h1.trans ?_
  have hK1 : (1 : ℝ) ≤ K := by exact_mod_cast hK
  have hf : (0 : ℝ) < ((2 * K).factorial : ℝ) := by positivity
  calc ‖(x : ℂ) * Complex.I‖ ^ (2 * K) * (((2 * K).succ : ℝ) * (((2 * K).factorial : ℝ) * ((2 * K : ℕ) : ℝ))⁻¹)
      ≤ 1 * (((2 * K).succ : ℝ) * (((2 * K).factorial : ℝ) * ((2 * K : ℕ) : ℝ))⁻¹) := by
        gcongr
        exact pow_le_one₀ (norm_nonneg _) hn
    _ ≤ 2 / ((2 * K).factorial : ℝ) := by
        rw [one_mul, mul_inv, ← mul_assoc, mul_comm _ ((2 * K).factorial : ℝ)⁻¹, mul_assoc, div_eq_inv_mul]
        gcongr
        rw [← div_eq_mul_inv, div_le_iff₀ (by positivity)]
        push_cast
        linarith

theorem cosSmall_holds {P : ℕ} {a : Enc} {x : ℝ} (ha : a.Holds P x) (hx : |x| ≤ 1) :
    (cosSmall P a).Holds P (Real.cos x) := by
  have ht : (Enc.ofInt P 1).Holds P (cosTerm x 0) := by simpa [cosTerm] using Enc.ofInt_holds P 1
  have h0 : (Enc.ofInt P 0).Holds P 0 := by simpa using Enc.ofInt_holds P 0
  have hs := cosSeries_holds (Enc.mul_holds ha ha) (P / 8 + 4) 0 _ _ _ ht h0
  have hr := (Enc.divNat_holds (d := (2 * (P / 8 + 4)).factorial) (by positivity) (Enc.ofInt_holds P 2)).2
  have hb := cos_sub_series_le hx (K := P / 8 + 4) (by omega)
  have hP : (0 : ℝ) < 2 ^ P := by positivity
  simp only [zero_add] at hs
  push_cast at hr
  obtain ⟨b1, b2⟩ := abs_le.mp hb
  obtain ⟨s1, s2⟩ := hs
  have b1' := mul_le_mul_of_nonneg_right b1 hP.le
  have b2' := mul_le_mul_of_nonneg_right b2 hP.le
  constructor
  · simp only [cosSmall, Enc.add, Int.cast_add, Int.cast_neg]
    linarith
  · simp only [cosSmall, Enc.add, Int.cast_add]
    linarith

theorem cosDouble_holds {P : ℕ} {c : Enc} {y : ℝ} (hc : c.Holds P (Real.cos y)) :
    (cosDouble P c).Holds P (Real.cos (2 * y)) := by
  have h := Enc.sub_holds (Enc.scale_holds 2 (Enc.mul_holds hc hc)) (Enc.ofInt_holds P 1)
  rw [Real.cos_two_mul, sq]
  simpa [cosDouble] using h

/-- A whole number of turns does not change the remainder's angle. -/
theorem turn_split (j : ℕ) {L : ℕ} (hL : 0 < L) :
    2 * Real.pi * j / L = 2 * Real.pi * ((j % L : ℕ) : ℝ) / L + ((j / L : ℕ) : ℝ) * (2 * Real.pi) := by
  have hL' : (0 : ℝ) < L := by exact_mod_cast hL
  have hj : (j : ℝ) = ((j % L : ℕ) : ℝ) + L * ((j / L : ℕ) : ℝ) := by exact_mod_cast (Nat.mod_add_div j L).symm
  rw [hj]
  field_simp

theorem cosEnc_holds (P j : ℕ) {L : ℕ} (hL : 0 < L) :
    (cosEnc P j L).Holds P (Real.cos (2 * Real.pi * j / L)) := by
  have hL' : (0 : ℝ) < L := by exact_mod_cast hL
  have hlt : ((j % L : ℕ) : ℝ) ≤ L := by exact_mod_cast (Nat.mod_lt j hL).le
  rw [turn_split j hL, Real.cos_add_nat_mul_two_pi]
  unfold cosEnc
  generalize j % L = r at hlt
  have hx := Enc.divNat_holds (d := 4 * L) (by positivity) (Enc.scale_holds (r : ℤ) (piEnc_holds P))
  have hsmall : |((r : ℤ) : ℝ) * Real.pi / ((4 * L : ℕ) : ℝ)| ≤ 1 := by
    push_cast
    rw [abs_of_nonneg (by positivity), div_le_one (by positivity)]
    nlinarith [Real.pi_le_four, Real.pi_pos]
  have h := cosDouble_holds (cosDouble_holds (cosDouble_holds (cosSmall_holds hx hsmall)))
  have e : 2 * Real.pi * r / L = 2 * (2 * (2 * (((r : ℤ) : ℝ) * Real.pi / ((4 * L : ℕ) : ℝ)))) := by
    push_cast
    field_simp
    ring
  rw [e]
  exact h

theorem sinEnc_holds (P j : ℕ) {L : ℕ} (hL : 0 < L) :
    (sinEnc P j L).Holds P (Real.sin (2 * Real.pi * j / L)) := by
  have hL' : (0 : ℝ) < L := by exact_mod_cast hL
  have h := cosEnc_holds P (4 * (j % L) + 3 * L) (L := 4 * L) (by omega)
  rw [turn_split j hL, Real.sin_add_nat_mul_two_pi]
  unfold sinEnc
  generalize j % L = r at h
  have e : 2 * Real.pi * ((4 * r + 3 * L : ℕ) : ℝ) / ((4 * L : ℕ) : ℝ)
      = 2 * Real.pi * r / L - Real.pi / 2 + 2 * Real.pi := by
    push_cast
    field_simp
    ring
  rw [e, Real.cos_add_two_pi, Real.cos_sub_pi_div_two] at h
  exact h

theorem Enc.sign?_eq {P : ℕ} {a : Enc} {x : ℝ} {z : ℤ} (ha : a.Holds P x) (hz : a.sign? = some z) :
    z = SignType.sign x := by
  have hP : (0 : ℝ) < 2 ^ P := by positivity
  obtain ⟨h1, h2⟩ := ha
  unfold Enc.sign? at hz
  split at hz
  · rename_i h
    have : (0 : ℝ) < a.lo := by exact_mod_cast h
    have hx : 0 < x := by
      by_contra hn
      nlinarith [mul_nonpos_of_nonpos_of_nonneg (not_lt.mp hn) hP.le]
    simp only [Option.some.injEq] at hz
    simp [← hz, sign_pos hx]
  · split at hz
    · rename_i h
      have : (a.hi : ℝ) < 0 := by exact_mod_cast h
      have hx : x < 0 := by
        by_contra hn
        nlinarith [mul_nonneg (not_lt.mp hn) hP.le]
      simp only [Option.some.injEq] at hz
      simp [← hz, sign_neg hx]
    · simp at hz

end Sys2Proof.Machine
end

