-- ==== Sys2Proof/Laws/Ops.lean ====
section
/-! SUPPORT. For each shared operation, everything it can do, said once: the case analyses that later proofs cite
instead of unfolding the operation. -/

namespace Sys2Proof.Machine

/-- The five things `fsm_step` can do (R117 to R120). -/
theorem State.fsmStep_cases (s : State) (b : LineBit) :
    (s.fsm = .idle ∧ b = LineBit.mark ∧ s.fsmStep b = s) ∨
    (s.fsm = .idle ∧ b = LineBit.space ∧
      s.fsmStep b = { s with fsm := .collectingData, acc := 0, count := 0 }) ∨
    (s.fsm = .collectingData ∧
      s.fsmStep b = { s with
        acc := s.acc ||| ((BitVec.ofBool b).setWidth 5 <<< s.count.toNat)
        count := s.count + 1
        fsm := if s.count + 1 = 5 then .awaitingStop else .collectingData }) ∨
    (s.fsm = .awaitingStop ∧ b = LineBit.mark ∧
      s.fsmStep b = { s with rx := s.rx ++ [decRom s.cfg.table s.acc], fsm := .idle }) ∨
    (s.fsm = .awaitingStop ∧ b = LineBit.space ∧
      s.fsmStep b = { s with fecnt := s.fecnt + 1, fsm := .idle }) := by
  cases h : s.fsm <;> cases b <;>
    simp [State.fsmStep, State.fsmIdle, State.fsmCollect, State.fsmStop, State.emitRx, h]

/-- `offer` faults with ERR_OVF on a full queue, and otherwise enqueues (R129, R135). -/
theorem State.offer_cases (s : State) (e : Entry) :
    (s.queueFull = true ∧ s.offer e = s.raiseFault .ovf) ∨
    (s.queueFull = false ∧ s.offer e = { s with q := s.q ++ [e], pc := s.pc + 1 }) := by
  cases h : s.queueFull
  · exact .inr ⟨rfl, by simp [State.offer, h, State.enqueue, State.advance]⟩
  · exact .inl ⟨rfl, by simp [State.offer, h]⟩

/-- The three steps of the consumer (R130 to R133). -/
theorem consumerStep_cases {s t : State} (h : consumerStep s = some t) :
    s.closed = false ∧
    ((s.spb ≤ s.buf.length ∧ t = s.consumerWin) ∨
     (s.buf.length < s.spb ∧ ∃ l rest, s.q = .chunk l :: rest ∧ t = { s with q := rest, buf := s.buf ++ l }) ∨
     (s.buf.length < s.spb ∧ ∃ rest, s.q = .close :: rest ∧ t = { s with q := rest, closed := true })) := by
  unfold consumerStep at h
  split at h
  · cases h
  · rename_i hc
    refine ⟨by simpa using hc, ?_⟩
    split at h
    · rename_i hw
      exact .inl ⟨hw, (Option.some.inj h).symm⟩
    · rename_i hw
      split at h
      · rename_i l rest hq
        exact .inr (.inl ⟨by omega, l, rest, hq, (Option.some.inj h).symm⟩)
      · rename_i rest hq
        exact .inr (.inr ⟨by omega, rest, hq, (Option.some.inj h).symm⟩)
      · cases h

/-- The samples taken from a stream are its first items, and the rest follows them. -/
theorem takeSamples_eq_some {n : Nat} {items rest : List Item} {payload : List SampleBits} :
    takeSamples n items = some (payload, rest) ↔ payload.length = n ∧ items = payload.map .sample ++ rest := by
  induction n generalizing items payload with
  | zero =>
    simp only [takeSamples, Option.some.injEq, Prod.mk.injEq, List.length_eq_zero_iff]
    constructor
    · rintro ⟨rfl, rfl⟩
      exact ⟨rfl, rfl⟩
    · rintro ⟨rfl, rfl⟩
      exact ⟨rfl, rfl⟩
  | succ n ih =>
    cases items with
    | nil =>
      simp only [takeSamples, reduceCtorEq, false_iff, not_and]
      intro h
      cases payload <;> simp_all
    | cons item items =>
      cases item with
      | word w =>
        simp only [takeSamples, reduceCtorEq, false_iff, not_and]
        intro h
        cases payload <;> simp_all
      | sample x =>
        simp only [takeSamples, Option.map_eq_some_iff, Prod.mk.injEq, Prod.exists]
        constructor
        · rintro ⟨p, r, h, rfl, rfl⟩
          obtain ⟨hl, rfl⟩ := ih.mp h
          exact ⟨by simp [hl], by simp⟩
        · rintro ⟨hl, hi⟩
          cases payload with
          | nil => simp at hl
          | cons y p =>
            simp only [List.map_cons, List.cons_append, List.cons.injEq, Item.sample.injEq] at hi
            obtain ⟨rfl, rfl⟩ := hi
            exact ⟨p, rest, ih.mpr ⟨by simpa using hl, rfl⟩, rfl, rfl⟩

/-- A fetched command is the stream's first word, the payload its word asks for, and what follows. -/
theorem fetch_eq_some {items : List Item} {f : Fetched} :
    fetch items = some f ↔
      f.payload.length = payloadLen f.word ∧ items = .word f.word :: (f.payload.map .sample ++ f.rest) := by
  obtain ⟨w, payload, rest⟩ := f
  cases items with
  | nil => simp [fetch]
  | cons item items =>
    cases item with
    | sample x => simp [fetch]
    | word v =>
      simp only [fetch, Option.map_eq_some_iff, Prod.exists, Fetched.mk.injEq, List.cons.injEq, Item.word.injEq]
      constructor
      · rintro ⟨p, r, h, rfl, rfl, rfl⟩
        obtain ⟨hl, hi⟩ := takeSamples_eq_some.mp h
        exact ⟨hl, rfl, hi⟩
      · rintro ⟨hl, rfl, hi⟩
        exact ⟨payload, rest, takeSamples_eq_some.mpr ⟨hl, hi⟩, rfl, rfl, rfl⟩

/-- A drawn turn changes nothing but the schedule. -/
theorem drawTurn_cases (s : State) :
    (∃ a rest, s.sched = a :: rest ∧ drawTurn s = (a, { s with sched := rest })) ∨
    (s.sched = [] ∧ Config.hostBurst s.epoch = 0 ∧ drawTurn s = (.consumer, { s with epoch := s.epoch + 1 })) ∨
    (∃ n, s.sched = [] ∧ Config.hostBurst s.epoch = n + 1 ∧ drawTurn s =
      (.host, { s with sched := List.replicate n .host ++ [.consumer], epoch := s.epoch + 1 })) := by
  unfold drawTurn
  split
  · rename_i a rest h
    exact .inl ⟨a, rest, h, rfl⟩
  · rename_i h
    split
    · rename_i hb
      exact .inr (.inl ⟨h, hb, rfl⟩)
    · rename_i n hb
      exact .inr (.inr ⟨n, h, hb, rfl⟩)

/-- The four things a turn can be: a host step, a consumer step (either agent's own or in place of the other's), or a
stop where neither agent has a step. -/
theorem turn_cases (a : Agent) (s : State) :
    (∃ f, hostReady s = some f ∧ turn a s = hostStep f s) ∨
    (∃ t, consumerStep s = some t ∧ turn a s = .next t) ∨
    (hostReady s = none ∧ consumerStep s = none ∧ turn a s = .fault (stuck s)) := by
  cases a <;> cases hh : hostReady s <;> cases hc : consumerStep s <;> simp [turn, hh, hc]

/-- Every meaning answers a next state: no command stops the core (R156, 93_implementation_defined.md part 2). -/
theorem exec_eq_next (i : Instr) (s : State) : ∃ t, exec i s = .next t := by
  cases i <;> exact ⟨_, rfl⟩

/-- A host step answers a next state: the meaning's, or ERR_ILL, with the stream moved past the command. -/
theorem hostStep_cases (f : Fetched) (s : State) :
    (∃ i t, decode f.word f.payload = .ok i ∧ exec i s = .next t ∧ hostStep f s = .next { t with stream := f.rest }) ∨
    (∃ e, decode f.word f.payload = .error e ∧
      hostStep f s = .next { s.raiseFault .ill with stream := f.rest }) := by
  unfold hostStep
  split
  · rename_i i hi
    obtain ⟨t, ht⟩ := exec_eq_next i s
    exact .inl ⟨i, t, hi, ht, by simp [ht, withStream]⟩
  · rename_i e he
    exact .inr ⟨e, he, rfl⟩

/-- What the host has enabled is the command at the head of its stream, and not a SYNC that must wait. -/
theorem hostReady_eq_some {s : State} {f : Fetched} :
    hostReady s = some f ↔ fetch s.stream = some f ∧ (f.waits = false ∨ s.quiescent = true) := by
  unfold hostReady
  split
  · rename_i h
    simp [h]
  · rename_i g h
    cases hw : g.waits <;> cases hq : s.quiescent <;> simp [h, hw, hq] <;> grind

end Sys2Proof.Machine
end

