-- ==== Sys2Proof/Laws/PerInstr.lean ====
section
/-! SUPPORT. Laws of every instruction as syntax, one lemma per constructor. -/

/-- The word of a well-formed instruction asks for exactly the payload that the instruction has (R63, R69). -/
def Sys2Proof.Laws.PayloadLength.Statement (i : Sys2Proof.Instr) : Prop :=
  ∀ bits : Nat, i.wellFormed bits = true → Sys2Proof.payloadLen (Sys2Proof.encodeWord i) = i.payload.length

namespace Sys2Proof.Laws

/-- A word of another opcode has no payload. -/
theorem payloadLen_plainWord {op : BitVec 4} (h8 : op ≠ 0x8#4) (hA : op ≠ 0xA#4) (f : BitVec 24) :
    payloadLen (plainWord op f) = 0 := by
  have hop : opField (plainWord op f) = op := by
    apply BitVec.eq_of_toNat_eq
    have := f.isLt
    rw [opField_toNat, plainWord_toNat]
    omega
  simp [payloadLen, hop, h8, hA]

theorem payloadLen_regWord {op : BitVec 4} (h8 : op ≠ 0x8#4) (hA : op ≠ 0xA#4) (reg : BitVec 4) (f : BitVec 24) :
    payloadLen (op ++ reg ++ f) = 0 := by
  have hop : opField (op ++ reg ++ f) = op := by
    apply BitVec.eq_of_toNat_eq
    have := f.isLt
    have := reg.isLt
    rw [opField_toNat, regWord_toNat]
    omega
  simp [payloadLen, hop, h8, hA]

/-- A SLICE or PUSH word asks for as many samples as its `LEN` field says. -/
theorem payloadLen_lenWord {op : BitVec 4} (h : op = 0x8#4 ∨ op = 0xA#4) {n : Nat} (hn : n < 2 ^ 24) :
    payloadLen (plainWord op (BitVec.ofNat 24 n)) = n := by
  have hf : (BitVec.ofNat 24 n).toNat = n := by simp only [BitVec.toNat_ofNat]; omega
  have hop : opField (plainWord op (BitVec.ofNat 24 n)) = op := by
    apply BitVec.eq_of_toNat_eq
    rw [opField_toNat, plainWord_toNat, hf]
    omega
  rw [payloadLen, hop, if_pos h, dataField_toNat, plainWord_toNat, hf]
  omega

theorem PayloadLength.nop : PayloadLength.Statement .nop := fun _ _ => payloadLen_plainWord (by decide) (by decide) _

theorem PayloadLength.cfgWr (reg : BitVec 4) (data : BitVec 24) : PayloadLength.Statement (.cfgWr reg data) :=
  fun _ _ => payloadLen_regWord (by decide) (by decide) reg data

theorem PayloadLength.cfgRd (reg : BitVec 4) : PayloadLength.Statement (.cfgRd reg) :=
  fun _ _ => payloadLen_regWord (by decide) (by decide) reg 0

theorem PayloadLength.enc (char : Char8) : PayloadLength.Statement (.enc char) :=
  fun _ _ => payloadLen_plainWord (by decide) (by decide) _

theorem PayloadLength.dec (code : Code) : PayloadLength.Statement (.dec code) :=
  fun _ _ => payloadLen_plainWord (by decide) (by decide) _

theorem PayloadLength.frame (char : Char8) : PayloadLength.Statement (.frame char) :=
  fun _ _ => payloadLen_plainWord (by decide) (by decide) _

theorem PayloadLength.txBit (bit : LineBit) : PayloadLength.Statement (.txBit bit) :=
  fun _ _ => payloadLen_plainWord (by decide) (by decide) _

theorem PayloadLength.txChar (char : Char8) : PayloadLength.Statement (.txChar char) :=
  fun _ _ => payloadLen_plainWord (by decide) (by decide) _

/-- A payload that fits has a length that fits the `LEN` field. -/
theorem payloadFits_length {bits : Nat} {payload : List SampleBits} (h : payloadFits bits payload = true) :
    payload.length < 2 ^ 24 := by
  simp only [payloadFits, Bool.and_eq_true, decide_eq_true_eq] at h
  exact h.1

theorem PayloadLength.slice (payload : List SampleBits) : PayloadLength.Statement (.slice payload) :=
  fun _ h => payloadLen_lenWord (.inl rfl) (payloadFits_length h)

theorem PayloadLength.rxBit (bit : LineBit) : PayloadLength.Statement (.rxBit bit) :=
  fun _ _ => payloadLen_plainWord (by decide) (by decide) _

theorem PayloadLength.push (payload : List SampleBits) : PayloadLength.Statement (.push payload) :=
  fun _ h => payloadLen_lenWord (.inr rfl) (payloadFits_length h)

theorem PayloadLength.close : PayloadLength.Statement .close :=
  fun _ _ => payloadLen_plainWord (by decide) (by decide) _

theorem PayloadLength.sync : PayloadLength.Statement .sync :=
  fun _ _ => payloadLen_plainWord (by decide) (by decide) _

theorem PayloadLength.reset : PayloadLength.Statement .reset :=
  fun _ _ => payloadLen_plainWord (by decide) (by decide) _

end Sys2Proof.Laws
end

