-- ==== Sys2Proof/Laws/Roots.lean ====
section
/-! SUPPORT. The sums over the roots of unity: the value of each operation, the exact test for zero, and the sign that
the two together decide. -/

namespace Sys2Proof.Machine

/-- The `L`-th root of unity that a `Cyc` is a sum over. -/
noncomputable def root (L : ℕ) : ℂ := Complex.exp (2 * Real.pi * Complex.I / L)

theorem root_pow_order {L : ℕ} (hL : 0 < L) : root L ^ L = 1 :=
  (Complex.isPrimitiveRoot_exp L hL.ne').pow_eq_one

theorem root_pow_mod {L : ℕ} (hL : 0 < L) (e : ℕ) : root L ^ (e % L) = root L ^ e := by
  conv_rhs => rw [← Nat.mod_add_div e L, pow_add, pow_mul, root_pow_order hL, one_pow, mul_one]

theorem root_pow_eq_exp (L e : ℕ) : root L ^ e = Complex.exp ((2 * Real.pi * e / L : ℝ) * Complex.I) := by
  rw [root, ← Complex.exp_nat_mul]
  congr 1
  push_cast
  ring

/-- The value of a sum. -/
noncomputable def Cyc.val (L : ℕ) (t : Cyc) : ℂ := (t.map fun x => (x.1 : ℂ) * root L ^ x.2).sum

@[simp] theorem Cyc.val_nil (L : ℕ) : Cyc.val L [] = 0 := rfl

@[simp] theorem Cyc.val_cons (L : ℕ) (x : ℤ × ℕ) (t : Cyc) :
    Cyc.val L (x :: t) = x.1 * root L ^ x.2 + Cyc.val L t := by
  simp [Cyc.val]

@[simp] theorem Cyc.val_append (L : ℕ) (a b : Cyc) : Cyc.val L (a ++ b) = Cyc.val L a + Cyc.val L b := by
  simp [Cyc.val]

theorem Cyc.val_addTerm (L : ℕ) (c : ℤ) (e : ℕ) (t : Cyc) :
    Cyc.val L (Cyc.addTerm c e t) = c * root L ^ e + Cyc.val L t := by
  induction t with
  | nil =>
    unfold Cyc.addTerm
    split
    · rename_i h
      simp [h]
    · simp
  | cons x t ih =>
    obtain ⟨c', e'⟩ := x
    unfold Cyc.addTerm
    split
    · rename_i he
      subst he
      split
      · rename_i h0
        have h0' : (c : ℂ) + c' = 0 := by exact_mod_cast h0
        rw [Cyc.val_cons, ← add_assoc, ← add_mul, h0', zero_mul, zero_add]
      · rw [Cyc.val_cons, Cyc.val_cons]
        push_cast
        ring
    · rw [Cyc.val_cons, Cyc.val_cons, ih]
      ring

theorem Cyc.val_collect {L : ℕ} (hL : 0 < L) (t : Cyc) : Cyc.val L (Cyc.collect L t) = Cyc.val L t := by
  induction t with
  | nil => rfl
  | cons x t ih =>
    have h : Cyc.collect L (x :: t) = Cyc.addTerm x.1 (x.2 % L) (Cyc.collect L t) := rfl
    rw [h, Cyc.val_addTerm, ih, Cyc.val_cons, root_pow_mod hL]

theorem Cyc.val_shift (L : ℕ) (x : ℤ × ℕ) (b : Cyc) :
    Cyc.val L (b.map fun y => (x.1 * y.1, x.2 + y.2)) = x.1 * root L ^ x.2 * Cyc.val L b := by
  induction b with
  | nil => simp
  | cons y b ih =>
    rw [List.map_cons, Cyc.val_cons, Cyc.val_cons, ih]
    push_cast
    ring

theorem Cyc.val_mul (L : ℕ) (a b : Cyc) : Cyc.val L (Cyc.mul a b) = Cyc.val L a * Cyc.val L b := by
  induction a with
  | nil => simp [Cyc.mul]
  | cons x a ih =>
    have h : Cyc.mul (x :: a) b = b.map (fun y => (x.1 * y.1, x.2 + y.2)) ++ Cyc.mul a b := rfl
    rw [h, Cyc.val_append, Cyc.val_shift, ih, Cyc.val_cons]
    ring

theorem Cyc.val_neg (L : ℕ) (a : Cyc) : Cyc.val L (Cyc.neg a) = -Cyc.val L a := by
  induction a with
  | nil => simp [Cyc.neg]
  | cons x a ih =>
    have h : Cyc.neg (x :: a) = (-x.1, x.2) :: Cyc.neg a := rfl
    rw [h, Cyc.val_cons, Cyc.val_cons, ih]
    push_cast
    ring

theorem root_pow_conj {L : ℕ} (hL : 0 < L) (e : ℕ) :
    root L ^ (L - e % L) = (starRingEnd ℂ) (root L ^ e) := by
  have hlt : e % L ≤ L := (Nat.mod_lt e hL).le
  have h1 : root L ^ (L - e % L) * root L ^ e = 1 := by
    rw [← root_pow_mod hL e, ← pow_add, Nat.sub_add_cancel hlt, root_pow_order hL]
  have h2 : (starRingEnd ℂ) (root L ^ e) * root L ^ e = 1 := by
    rw [mul_comm, Complex.mul_conj, Complex.normSq_eq_norm_sq, root_pow_eq_exp, Complex.norm_exp_ofReal_mul_I]
    norm_num
  have h3 : root L ^ e ≠ 0 := by
    rw [root_pow_eq_exp]
    exact Complex.exp_ne_zero _
  exact mul_right_cancel₀ h3 (h1.trans h2.symm)

theorem Cyc.val_conj {L : ℕ} (hL : 0 < L) (a : Cyc) :
    Cyc.val L (Cyc.conj L a) = (starRingEnd ℂ) (Cyc.val L a) := by
  induction a with
  | nil => simp [Cyc.conj]
  | cons x a ih =>
    have h : Cyc.conj L (x :: a) = (x.1, L - x.2 % L) :: Cyc.conj L a := rfl
    rw [h, Cyc.val_cons, Cyc.val_cons, ih, map_add, map_mul, root_pow_conj hL, map_intCast]

theorem primesFrom_between (fuel : ℕ) :
    ∀ (d n : ℕ), 2 ≤ d → 1 ≤ n → ∀ q ∈ primesFrom fuel d n, 2 ≤ q ∧ q ≤ n := by
  induction fuel with
  | zero =>
    intro d n _ _ q hq
    unfold primesFrom at hq
    split at hq
    · simp only [List.mem_singleton] at hq
      omega
    · simp at hq
  | succ fuel ih =>
    intro d n hd hn q hq
    unfold primesFrom at hq
    split at hq
    · split at hq
      · simp only [List.mem_singleton] at hq
        omega
      · simp at hq
    · rename_i hdd
      have hdn : d ≤ n := by nlinarith
      split at hq
      · rcases List.mem_cons.mp hq with rfl | hq
        · exact ⟨hd, hdn⟩
        · have h := ih d (n / d) hd (Nat.div_pos hdn (by omega)) q hq
          exact ⟨h.1, h.2.trans (Nat.div_le_self n d)⟩
      · exact ih (d + 1) n (by omega) hn q hq

/-- Multiplying by the factors of the zero test multiplies the value by their values. -/
theorem Cyc.val_factors {L : ℕ} (hL : 0 < L) (qs : List ℕ) :
    ∀ t : Cyc, Cyc.val L (qs.foldl (fun a q => Cyc.collect L (Cyc.mul a [(1, L / q), (-1, 0)])) t)
      = Cyc.val L t * (qs.map fun q => root L ^ (L / q) - 1).prod := by
  induction qs with
  | nil => intro t; simp
  | cons q qs ih =>
    intro t
    rw [List.foldl_cons, ih, Cyc.val_collect hL, Cyc.val_mul, List.map_cons, List.prod_cons]
    have h : Cyc.val L [((1 : ℤ), L / q), ((-1 : ℤ), 0)] = root L ^ (L / q) - 1 := by
      simp [sub_eq_add_neg]
    rw [h, mul_assoc]

/-- What the zero test says: the value is zero. -/
theorem Cyc.val_eq_zero_of_isZero {L : ℕ} (hL : 0 < L) {t : Cyc} (h : t.isZero L = true) : Cyc.val L t = 0 := by
  unfold Cyc.isZero at h
  rw [List.isEmpty_iff] at h
  have hv := Cyc.val_factors hL (primesOf L) (Cyc.collect L t)
  rw [h, Cyc.val_nil, Cyc.val_collect hL] at hv
  rcases mul_eq_zero.mp hv.symm with h0 | h0
  · exact h0
  · exfalso
    rw [List.prod_eq_zero_iff, List.mem_map] at h0
    obtain ⟨q, hq, hq0⟩ := h0
    obtain ⟨h2, hqL⟩ := primesFrom_between L 2 L le_rfl hL q (List.mem_dedup.mp hq)
    exact (Complex.isPrimitiveRoot_exp L hL.ne').pow_ne_one_of_pos_of_lt (Nat.div_pos hqL (by omega)).ne'
      (Nat.div_lt_self hL (by omega)) (sub_eq_zero.mp hq0)

/-- What `signBy` says once it answers: the sign of the real that the enclosures hold and that the exact sum is a
positive multiple of. -/
theorem signBy_eq_sign {enclose : ℕ → Enc} {L : ℕ} {exact : Unit → Cyc} {x k : ℝ} {z : ℤ} (hL : 0 < L)
    (hx : ∀ P, (enclose P).Holds P x) (hk : 0 < k) (he : Cyc.val L (exact ()) = ((k * x : ℝ) : ℂ))
    (hz : signBy enclose L exact = some z) : z = SignType.sign x := by
  unfold signBy at hz
  split at hz
  · rename_i z' h64
    rw [← Option.some.inj hz]
    exact Enc.sign?_eq (hx 64) h64
  · split at hz
    · rename_i h0
      rw [Cyc.val_eq_zero_of_isZero hL h0] at he
      have hx0 : x = 0 := by
        have : k * x = 0 := by exact_mod_cast he.symm
        exact (mul_eq_zero.mp this).resolve_left hk.ne'
      rw [← Option.some.inj hz, hx0]
      simp
    · obtain ⟨P, _, hP⟩ := List.exists_of_findSome?_eq_some hz
      exact Enc.sign?_eq (hx P) hP

end Sys2Proof.Machine
end

