-- ==== Sys2Proof/Tests/Slice0.lean ====
section
/-! SUPPORT. Tests. Expected values are those of spec/95_test_vectors.md (section named at each group) or are written
out from the encoding tables of 30_encoding.md rules R57 and R71. The last part shows, for every obligation that has
hypotheses, a state and operands that meet them. -/

namespace Sys2Proof.Tests

open Sys2Proof.Machine Sys2Proof.Spec

/-- The tiny configuration's parameters (95_test_vectors.md). -/
def tiny : Params := { fs := 400, sampleBits := 16, queueCap := none, table := ita2, synth := .reference, slicer := .reference }

/-- The tiny configuration: mark 100 Hz, space 50 Hz, 100 baud, four samples a bit. -/
def base : State := { State.resetWith tiny with mark := 100, shift := 50, baud := 10000 }

/-- The state right after reset at `FS = 8000`. -/
def fresh : State := State.resetWith { tiny with fs := 8000 }

/-- The state after commands, one after another. -/
def after : List Instr → State → State
  | [], s => s
  | i :: is, s =>
    match exec i s with
    | .next t => after is t
    | .fault _ => s
    | .refused _ => s

/-- The host is offered the next step, with these items in its stream. -/
def offered (items : List Item) (s : State) : State := { s with stream := items, sched := [.host] }

/-- The next state of a step; the state itself where there is none. -/
def stepped (s : State) : State :=
  match step s with
  | .next t => t
  | .fault _ => s
  | .refused _ => s

/-- The next state of an outcome, as data that can be compared. -/
def nextOf : Host.Outcome State Fault Refusal → Option State
  | .next s => some s
  | .fault _ => none
  | .refused _ => none

theorem nextOf_iff {o : Host.Outcome State Fault Refusal} {s : State} : o = .next s ↔ nextOf o = some s := by
  cases o <;> simp [nextOf]

/-- The samples as an interface carries them. -/
def bitsOf (l : List Int) : List SampleBits := l.map (sampleBitsOf 16)

/-! ### Well-formedness: an ill-formed term for each check -/

theorem test_wellFormed_refuses_wide_sample : (Instr.slice [0x00010000]).wellFormed 16 = false := by decide

theorem test_wellFormed_refuses_wide_push_sample : (Instr.push [0, 0xFFFFFFFF]).wellFormed 31 = false := by decide

theorem test_wellFormed_refuses_long_slice :
    (Instr.slice (List.replicate (2 ^ 24) 0)).wellFormed 16 = false := by
  rw [Instr.wellFormed, payloadFits, List.length_replicate]
  rfl

theorem test_wellFormed_refuses_long_push :
    (Instr.push (List.replicate (2 ^ 24) 0)).wellFormed 16 = false := by
  rw [Instr.wellFormed, payloadFits, List.length_replicate]
  rfl

theorem test_wellFormed_accepts : (Instr.push [0x8000, 0x7FFF]).wellFormed 16 = true := by decide

/-! ### Decoding: words written out field by field, in the order OP, then the format's bits 27:0 (R57, R58) -/

theorem test_decode_nop : decode (0b0000#4 ++ 0#28) [] = .ok .nop := by decide
theorem test_decode_cfgWr :
    decode (0b0001#4 ++ 0b0010#4 ++ 0b000000000111010100110000#24) [] = .ok (.cfgWr 2 30000) := by decide
theorem test_decode_cfgRd : decode (0b0010#4 ++ 0b1101#4 ++ 0#24) [] = .ok (.cfgRd 13) := by decide
theorem test_decode_enc : decode (0b0011#4 ++ 0#20 ++ 0b01100101#8) [] = .ok (.enc 0x65) := by decide
theorem test_decode_dec : decode (0b0100#4 ++ 0#23 ++ 0b10011#5) [] = .ok (.dec 19) := by decide
theorem test_decode_frame : decode (0b0101#4 ++ 0#20 ++ 0b01000101#8) [] = .ok (.frame 0x45) := by decide
theorem test_decode_txBit : decode (0b0110#4 ++ 0#27 ++ 0b1#1) [] = .ok (.txBit true) := by decide
theorem test_decode_txChar : decode (0b0111#4 ++ 0#20 ++ 0b10000001#8) [] = .ok (.txChar 0x81) := by decide
theorem test_decode_slice :
    decode (0b1000#4 ++ 0b0000#4 ++ 0b000000000000000000000010#24) [7, 8] = .ok (.slice [7, 8]) := by decide
theorem test_decode_rxBit : decode (0b1001#4 ++ 0#27 ++ 0b0#1) [] = .ok (.rxBit false) := by decide
theorem test_decode_push :
    decode (0b1010#4 ++ 0b0000#4 ++ 0b000000000000000000000001#24) [9] = .ok (.push [9]) := by decide
theorem test_decode_close : decode (0b1011#4 ++ 0#28) [] = .ok .close := by decide
theorem test_decode_sync : decode (0b1100#4 ++ 0#28) [] = .ok .sync := by decide
theorem test_decode_reset : decode (0b1101#4 ++ 0#28) [] = .ok .reset := by decide

/-- Section 8's illegal words, with the vectors of sections 3.1 and 3.2. -/
theorem test_decode_rejects :
    decode 0xE0000000#32 [] = .error .reservedOpcode ∧ decode 0xF1234567#32 [] = .error .reservedOpcode ∧
    decode 0x00000001#32 [] = .error .reservedBits ∧ decode 0x27000001#32 [] = .error .reservedBits ∧
    decode 0x30000165#32 [] = .error .reservedBits ∧ decode 0x40000020#32 [] = .error .reservedBits ∧
    decode 0x60000002#32 [] = .error .reservedBits ∧ decode 0x90000002#32 [] = .error .reservedBits ∧
    decode 0xC0000001#32 [] = .error .reservedBits ∧ decode 0xD0000001#32 [] = .error .reservedBits ∧
    decode 0x81000003#32 [1, 2, 3] = .error .reservedBitsWithPayload ∧
    decode 0xA1000002#32 [1, 2] = .error .reservedBitsWithPayload := by decide

/-- The words of programs P1, P3 and P4. -/
theorem test_encode_words :
    encodeWord (.frame 0x45) = 0x50000045 ∧ encodeWord (.cfgWr 1 50) = 0x11000032 ∧
    encodeWord (.cfgWr 2 10000) = 0x12002710 ∧ encodeWord (.txChar 0x45) = 0x70000045 ∧
    encodeWord (.push [1, 2]) = 0xA0000002 ∧ encodeWord (.cfgRd 9) = 0x29000000 ∧
    encodeWord (.rxBit true) = 0x90000001 := by decide

theorem test_decodeTableWord_reads_payload : decodeTableWord 32 0x80000002 = some (.slice [0, 0]) := by decide

theorem test_withFetchWord_runs : (stepped (base.withFetchWord 32 0x30000045)).rsp = [0x00000001] := by decide

/-- SYNC as the first command after reset: evaluation alone does not settle it, since `SPB` rests on the open sample
rate; it is at least 1 at every legal rate. -/
theorem test_sync_from_reset :
    step (State.reset.withFetchWord 32 0xC0000000) = .next { State.reset with pc := 1 } := by
  have h : 0 < Config.sampleRate * 100 / 4545 := by
    have : 46 ≤ Config.sampleRate := Nat.le_add_right _ _
    omega
  have hs : State.quiescent { State.reset with stream := [.word 0xC0000000] } = true := by
    simp only [State.quiescent, State.spb, Bool.or_eq_true, Bool.and_eq_true]
    exact .inr ⟨decide_eq_true h, rfl⟩
  have hr : hostReady { State.reset with stream := [.word 0xC0000000] } = some ⟨0xC0000000, [], []⟩ := by
    simp only [hostReady, hs, Bool.not_true, Bool.and_false]
    rfl
  have ht : step (State.reset.withFetchWord 32 0xC0000000) =
      turn .host { State.reset with stream := [.word 0xC0000000] } := rfl
  have hq : turn .host { State.reset with stream := [.word 0xC0000000] } =
      hostStep ⟨0xC0000000, [], []⟩ { State.reset with stream := [.word 0xC0000000] } := by
    simp only [turn, hr]
  have he : hostStep ⟨0xC0000000, [], []⟩ { State.reset with stream := [.word 0xC0000000] } =
      withStream [] (execSync { State.reset with stream := [.word 0xC0000000] }) := rfl
  rw [ht, hq, he, execSync, hs]
  rfl

/-! ### Codec, section 3.1 and 3.2 -/

theorem test_enc_symbols : (after [.enc 0x65, .enc 0x5A, .enc 0x20] fresh).rsp = [0x01, 0x11, 0x04] := by decide
theorem test_enc_fallback :
    (after [.enc 0x31, .enc 0x40, .enc 0x5B, .enc 0x60, .enc 0x7B, .enc 0xFF] fresh).rsp =
      List.replicate 6 0x100 := by decide
theorem test_dec_symbols : (after [.dec 17, .dec 1, .dec 30] fresh).rsp = [0x5A, 0x45, 0x56] := by decide
theorem test_dec_unknown : (after [.dec 0, .dec 27] fresh).rsp = [0x13F, 0x13F] := by decide

/-! ### Frame encoder, section 3.3 -/

theorem test_frame_two_stop_bits :
    (after [.frame 0x45, .frame 0x59, .frame 0x31] fresh).rsp = [0x000800C2, 0x000800EA, 0x010800C0] := by decide
theorem test_frame_stop_counts :
    (after [.cfgWr 3 1, .frame 0x31, .cfgWr 3 7, .frame 0x45] fresh).rsp = [0x01070040, 0x000D1FC2] := by decide

/-! ### Tone synthesizer, sections 4.1 to 4.3 -/

theorem test_txBit_phase_reset :
    (after [.txBit false, .txBit true] base).tx = [0, 23170, 32767, 23170, 0, 32767, 0, -32767] := by
  decide +kernel
theorem test_txBit_phase_continuous :
    (after [.cfgWr 5 1, .txBit false, .txBit true] base).tx = [0, 23170, 32767, 23170, 0, -32767, 0, 32767] := by
  decide +kernel
/-- Program P3, pc 7 and 8. -/
theorem test_txChar_leaves_phase : (after [.cfgWr 5 1, .txChar 0x45] base).phase = 200 := by decide +kernel
theorem test_synth_rounds_half_away :
    synth { tiny with fs := 48000 } 32768 4000 = 16384 ∧ synth { tiny with fs := 48000 } 32768 28000 = -16384 := by
  decide +kernel

/-! ### Bit slicer, sections 5.1 and 5.2 -/

theorem test_nearest_bins :
    [0, 49, 50, 51, 149, 150, 151, 250, 1000].map (nearestBin 400 4) = [0, 0, 0, 1, 1, 1, 2, 2, 2] := by decide
theorem test_slice_bits :
    (after [.slice (bitsOf [0, 32767, 0, -32767]), .slice (bitsOf [0, 23170, 32767, 23170]),
      .slice (bitsOf [0, 0, 0, 0])] base).rsp = [1, 0, 0] := by decide +kernel
theorem test_slice_wrong_length : (after [.slice [1, 2, 3]] base).faults = 4 := by decide

/-! ### Frame recovery, section 6 -/

theorem test_rxBit_good_frame :
    (after (pseudoRxBits [false, true, true, false, false, false, true]) fresh).rx = [(0x41, false)] := by decide
theorem test_rxBit_framing_error :
    (after (pseudoRxBits [false, true, true, false, false, false, false] ++ [.cfgRd 9, .cfgRd 10]) fresh).rsp =
      [0x74, 1] := by decide

/-! ### Receive stream, sections 7 and 8 -/

theorem test_push_wakes_consumer : (consumerRun 9 (after [.push [1, 2, 3]] base)).buf = [1, 2, 3] := by decide
theorem test_push_full_queue :
    (after [.push [0], .push [0]] { base with cfg := { tiny with queueCap := some 1 } }).faults = 8 := by decide
theorem test_close_closes : (consumerRun 9 (after [.close, .push [0, 0, 0, 0]] base)).closed = true := by decide
theorem test_close_leaves_later_chunk :
    (consumerRun 9 (after [.close, .push [0, 0, 0, 0]] base)).q = [.chunk [0, 0, 0, 0]] := by decide
theorem test_sync_waits : after [.push [0, 0, 0], .sync] base = after [.push [0, 0, 0]] base := by decide
theorem test_sync_proceeds : (after [.sync] base).pc = 1 := by decide

/-! ### Control, section 8 -/

theorem test_cfgWr_refuses :
    (after [.cfgWr 1 49] fresh).faults = 2 ∧ (after [.cfgWr 0 170] fresh).faults = 2 ∧
    (after [.cfgWr 6 8000] fresh).faults = 1 ∧ (after [.cfgWr 0xF 0] fresh).faults = 1 := by decide
/-- Program P7: an accepted write of the same value flushes. -/
theorem test_cfgWr_flushes :
    (after [.rxBit false, .rxBit true, .cfgRd 9, .cfgWr 5 2, .cfgWr 2 10000, .cfgRd 9] base).rsp = [0x25, 0] := by
  decide
theorem test_cfgRd_reset_values :
    (after ((List.range 14).map (fun i => .cfgRd (BitVec.ofNat 4 i))) fresh).rsp =
      [0x84D, 0xAA, 0x11C1, 2, 0x8000, 0, 0x1F40, 0xB0, 0, 0, 0, 0, 0, 0] := by decide
theorem test_cfgRd_reserved : (after [.cfgRd 0xE] fresh).faults = 1 := by decide
theorem test_nop_advances : (after [.nop] base).pc = 1 := by decide
/-- Program P6. -/
theorem test_reset_clears_faults :
    (after [.cfgWr 1 850, .slice [1, 2, 3], .cfgRd 8, .reset, .cfgRd 8, .cfgRd 1] fresh).rsp = [6, 0, 0xAA] := by
  decide

/-! ### The assembler and the byte transport, R71, R72, R44 -/

theorem test_transport_words : streamBytes 16 [.word 0x12002710, .sample 0x7FFF] = [0x10, 0x27, 0x00, 0x12, 0xFF, 0x7F] := by
  decide

theorem test_assembler_line :
    assemble 16 ['C', 'F', 'G', '.', 'W', 'R', ' ', 'B', 'A', 'U', 'D', ',', ' ', '0', 'x', '2', '7', '1', '0', ' ', ';'] =
      some [.cfgWr 2 10000] := by decide

/-- The opening brace. -/
def lb : Char := Char.ofNat 0x7B

/-- The closing brace. -/
def rb : Char := Char.ofNat 0x7D

theorem test_assembler_samples_are_decimal :
    assemble 16 ['P', 'U', 'S', 'H', ' ', lb, '1', '6', ',', ' ', '-', '1', rb] = some [.push [16, 0xFFFF]] ∧
    assemble 16 ['P', 'U', 'S', 'H', ' ', lb, '0', 'x', '1', '0', rb] = none ∧
    assemble 16 ['P', 'U', 'S', 'H', ' ', lb, '-', '0', 'x', '1', '0', rb] = none := by decide

/-! ### Witnesses: for each obligation with hypotheses, what meets them -/

/-- A state of the invariant that is not the reset state: a full queue of two, samples waiting, a frame half
received, the phase at its last value. -/
def busy : State :=
  { base with
    cfg := { tiny with queueCap := some 2 }, ctrl := 3, fsm := .collectingData, acc := 0xF, count := 4, fecnt := 65535,
    buf := [0, 32767, 0, -32767, -32768], q := [.chunk [5, 6, 7], .close], phase := 399, faults := 5 }

theorem test_hypotheses_EncodedCommandDecodesToItself :
    (Instr.slice [0, 0xFFFF]).wellFormed 16 = true ∧ (Instr.push []).wellFormed 16 = true ∧
    (Instr.dec 31).wellFormed 16 = true := by decide

theorem test_hypotheses_DecodedWordEncodesBack :
    [7, 8].length = lenOf (0x80000002#32).toNat ∧ decode 0x80000002#32 [7, 8] = .ok (.slice [7, 8]) ∧
    ([] : List SampleBits).length = lenOf (0xB0000000#32).toNat ∧ decode 0xB0000000#32 [] = .ok .close := by decide

theorem test_hypotheses_ReservedOpcodeRaisesErrIll :
    (offered [.word 0xE0000000, .sample 1] base).sched = .host :: [] ∧
    (offered [.word 0xE0000000, .sample 1] base).stream = .word 0xE0000000#32 :: [.sample 1] ∧
    0xE ≤ (0xE0000000#32).toNat / 2 ^ 28 ∧ 0xE ≤ (0xFFFFFFFF#32).toNat / 2 ^ 28 := by decide

theorem test_hypotheses_ReservedBitRaisesErrIll :
    let w := 0x81000002#32
    let s := offered [.word w, .sample 1, .sample 2, .word 0] base
    s.sched = .host :: [] ∧ s.stream = .word w :: (([1, 2] : List SampleBits).map .sample ++ [.word 0]) ∧
    ([1, 2] : List SampleBits).length = lenOf w.toNat ∧ w.toNat / 2 ^ 28 ≤ 0xD ∧
    w.toNat &&& reservedBits (w.toNat / 2 ^ 28) ≠ 0 := by decide

theorem test_hypotheses_ReservedBitRaisesErrIll_no_payload :
    ([] : List SampleBits).length = lenOf (0xD8000000#32).toNat ∧ (0xD8000000#32).toNat / 2 ^ 28 ≤ 0xD ∧
    (0xD8000000#32).toNat &&& reservedBits ((0xD8000000#32).toNat / 2 ^ 28) ≠ 0 := by decide

theorem test_hypotheses_StepRunsDecodedCommand :
    (offered (encode .sync ++ [.word 0]) base).sched = .host :: [] ∧
    (offered (encode .sync ++ [.word 0]) base).stream = encode .sync ++ [.word 0] ∧
    Instr.sync.wellFormed 16 = true ∧ (offered (encode .sync ++ [.word 0]) base).quiescent = true ∧
    (offered (encode (.push [1])) busy).stream = encode (.push [1]) ++ [] ∧ (Instr.push [1]).wellFormed 16 = true := by
  decide

theorem test_hypotheses_ByteTransportCarriesCommands :
    ∀ i ∈ [Instr.push [0, 3], .nop, .slice []], i.wellFormed 2 = true ∧ i.wellFormed 32 = true := by decide

/-- A legal table; a character of it, a character that is not, a code of it and a code that is not. -/
theorem test_hypotheses_codec :
    base.cfg.table.legal = true ∧ ((0x5A#8, 17#5) ∈ base.cfg.table) ∧ (∀ k, (0x3F#8, k) ∉ base.cfg.table) ∧
    (∀ c, (c, 31#5) ∉ base.cfg.table) ∧ 0x5A#8 ∈ alphabet ∧ foldCase 0x7A#8 = 0x5A#8 ∧ foldCase 0x7B#8 ∉ alphabet := by
  decide +kernel

theorem test_hypotheses_tone :
    base.ctrl.getLsbD 0 = false ∧ busy.ctrl.getLsbD 0 = true ∧ busy.phase < busy.cfg.fs ∧ 1 ≤ base.cfg.sampleBits := by
  decide

theorem test_hypotheses_SynthReferenceIsExact :
    synthRef? 400 16 32768 50 = some 23170 ∧ synthRef? 1 1 32768 0 = some 0 ∧ tiny.synth = .reference ∧
    tiny.legal = true ∧ synthRef? tiny.fs tiny.sampleBits 32768 300 = some (-32767) := by decide +kernel

theorem test_hypotheses_slice :
    (bitsOf [0, 32767, 0, -32767]).length = spbOf base ∧ (bitsOf [1, 2, 3]).length ≠ spbOf base := by decide

theorem test_hypotheses_SameBinSlicesToSpace :
    ({ base with mark := 50, shift := 1 } : State).markBin = ({ base with mark := 50, shift := 1 } : State).spaceBin ∧
    spbOf { base with baud := 40000 } = 1 ∧
    (after [.cfgWr 2 30000] fresh).baud = 30000 ∧ (after [.cfgWr 2 30000] fresh).mark = 2125 ∧
    (after [.cfgWr 2 30000] fresh).shift = 170 := by decide

/-- A frequency above half the sample rate. -/
theorem test_hypotheses_NearestBinIsLeastNearest : 0 < 400 ∧ 400 < 2 * 201 ∧ nearestBin 400 4 201 = 2 := by decide

theorem test_hypotheses_SilenceSlicesToSpace : tiny.slicer = .reference := rfl

theorem test_hypotheses_SlicerReferenceIsExact :
    sliceRef? [0, 32767, 0, -32767] 1 0 = some true ∧ sliceRef? [0, 23170, 32767, 23170] 1 0 = some false ∧
    sliceRef? [0, 0, 0, 0] 1 0 = some false ∧ tiny.slicer = .reference := by decide +kernel

theorem test_hypotheses_RxBitTakesItsArm :
    base.fsm = .idle ∧ busy.fsm = .collectingData ∧ busy.count.toNat = 4 ∧
    (after [.rxBit false] busy).fsm = .awaitingStop := by decide

/-- Also the hypothesis of `FrameRecoveryLaws`. -/
theorem test_hypotheses_BuiltFrameIsRecovered : base.fsm = .idle ∧ 1 ≤ base.stopb.toNat := by decide

/-- A finite queue with one place left, a full one, and an unbounded one. -/
theorem test_hypotheses_queue :
    busy.cfg.queueCap = some 2 ∧ ({ busy with q := [.close] } : State).q.length < 2 ∧ 2 ≤ busy.q.length ∧
    base.cfg.queueCap = none := by decide

theorem test_hypotheses_ConsumerTakesEnabledStep :
    busy.closed = false ∧ spbOf busy ≤ busy.buf.length ∧
    ({ busy with buf := [1, 2, 3] } : State).buf.length < spbOf busy ∧ busy.q = .chunk [5, 6, 7] :: [.close] ∧
    ({ busy with q := [.close] } : State).q = .close :: [] ∧ base.q = [] ∧ base.buf.length < spbOf base ∧
    ({ base with closed := true } : State).closed = true := by decide

theorem test_hypotheses_ChunkingDoesNotMatter :
    let s := { base with q := [.chunk [1, 2, 3], .chunk [], .chunk [4, 5, 6]], buf := [7, 8] }
    s.closed = false ∧ 1 ≤ spbOf s ∧ (∀ e ∈ s.q, e ≠ .close) := by decide

theorem test_hypotheses_SyncEndsUnderEverySchedule :
    1 ≤ spbOf busy ∧ (offered [.word 0xC0000000, .word 0] busy).stream = .word 0xC0000000#32 :: [.word 0] := by decide

/-- A SYNC that waits: the consumer has a window to slice. -/
theorem test_hypotheses_SyncWaitsForQuiescence :
    (offered [.word 0xC0000000] busy).quiescent = false ∧ base.quiescent = true := by decide

/-- Both ends of each register's range, one value past each end, and indexes on both sides of 0x6. -/
theorem test_hypotheses_CfgWrStoresOrFaults :
    (base.legalValue .mark 51 && base.legalValue .mark 65535 && base.legalValue .shift 50 &&
      base.legalValue .shift 99 && fresh.legalValue .shift 500 && base.legalValue .baud 1 &&
      base.legalValue .baud 40000 && base.legalValue .stopb 1 && base.legalValue .stopb 7 &&
      base.legalValue .volume 32768 && base.legalValue .ctrl 3) = true ∧
    (base.legalValue .mark 50 || base.legalValue .mark 65536 || base.legalValue .shift 49 ||
      base.legalValue .shift 100 || fresh.legalValue .shift 501 || base.legalValue .baud 0 ||
      base.legalValue .baud 40001 || base.legalValue .stopb 0 || base.legalValue .stopb 8 ||
      base.legalValue .volume 32769 || base.legalValue .ctrl 4) = false ∧
    (5#4).toNat ≤ 5 ∧ 6 ≤ (6#4).toNat ∧ 6 ≤ (15#4).toNat := by decide

/-- The same in the statement's own terms, at the two clauses' common edge. -/
theorem test_hypotheses_legalAt :
    legalAt base 0 51 ∧ ¬ legalAt base 0 50 ∧ legalAt base 1 99 ∧ ¬ legalAt base 1 100 ∧ legalAt base 2 40000 ∧
    ¬ legalAt base 2 40001 ∧ legalAt base 3 7 ∧ ¬ legalAt base 3 8 ∧ legalAt base 4 32768 ∧ ¬ legalAt base 4 32769 ∧
    legalAt base 5 3 ∧ ¬ legalAt base 5 4 := by
  decide

theorem test_hypotheses_CfgRdAnswersRegister : (13#4).toNat ≤ 0xD ∧ 0xE ≤ (14#4).toNat := by decide

/-- The invariant holds of `busy`, so that statements about its states are not about reset alone. -/
theorem test_hypotheses_Inv : busy.Inv where
  params_legal := by decide +kernel
  shift_range := by decide
  shift_lt_mark := by decide
  baud_range := by decide
  stopb_pos := by decide
  volume_le := by decide
  collecting := by decide
  awaiting := by decide
  count_le := by decide
  phase_lt := by decide
  queue_cap := by
    intro cap h
    cases h
    decide
  queue_chunks := by
    intro l h
    simp only [busy, List.mem_cons, Entry.chunk.injEq, reduceCtorEq, List.not_mem_nil, or_false] at h
    subst h
    exact ⟨by decide, by simp [SampleInRange, busy, tiny]⟩
  buf_samples := by simp [SampleInRange, busy, tiny]
  buf_length := by decide

/-- Of the invariant's own hypotheses: a step that is a command, and steps that are the consumer's. -/
theorem test_hypotheses_steps :
    step (offered (encode (.rxBit true)) busy) = .next (stepped (offered (encode (.rxBit true)) busy)) ∧
    step { busy with sched := [.consumer] } = .next (stepped { busy with sched := [.consumer] }) ∧
    consumerStep busy = some (stepped { busy with sched := [.consumer] }) := by
  simp only [nextOf_iff]
  decide +kernel

/-- All hypotheses of `StepKeepsInvariant` at one state, in the middle of a received frame. -/
theorem test_hypotheses_StepKeepsInvariant :
    ({ busy with sched := [.consumer] } : State).Inv ∧
      step { busy with sched := [.consumer] } = .next (stepped { busy with sched := [.consumer] }) :=
  have h := test_hypotheses_Inv
  ⟨⟨h.params_legal, h.shift_range, h.shift_lt_mark, h.baud_range, h.stopb_pos, h.volume_le, h.collecting, h.awaiting,
    h.count_le, h.phase_lt, h.queue_cap, h.queue_chunks, h.buf_samples, h.buf_length⟩, test_hypotheses_steps.2.1⟩

theorem test_hypotheses_CfgToneWritesAreAccepted : busy.Inv ∧
    51 ≤ (51#24).toNat ∧ (51#24).toNat ≤ 65535 ∧ 50 ≤ (50#24).toNat ∧ (50#24).toNat ≤ 500 ∧
    (50#24).toNat < (51#24).toNat ∧ 1 ≤ (40000#24).toNat ∧ (40000#24).toNat ≤ 65535 ∧
    (40000#24).toNat ≤ 100 * busy.cfg.fs :=
  ⟨test_hypotheses_Inv, by decide⟩

/-- A fault whose bit is clear before it, one whose bit is set already (`busy` has ERR_ILL set), and an illegal word. -/
theorem test_hypotheses_FaultHasNoOtherEffect :
    exec (.cfgWr 6 0) { busy with faults := 0 } = .next (after [.cfgWr 6 0] { busy with faults := 0 }) ∧
    (after [.cfgWr 6 0] { busy with faults := 0 }).faults ≠ 0 ∧ busy.faults.getLsbD 0 = true ∧ base.faults = 0 ∧
    hostStep ⟨0xE0000000, [], []⟩ { busy with faults := 0 } = .next { busy with faults := 1, pc := 1 } := by
  simp only [nextOf_iff]
  decide +kernel

/-- A command of each cause, and the RESET word. -/
theorem test_hypotheses_HostStepRaisesExactlyItsFault :
    let s := offered [.word 0xD0000000, .word 0x80000001, .sample 0] busy
    let u := offered [.word 0x80000001, .sample 0] busy
    fetch s.stream = some ⟨0xD0000000, [], u.stream⟩ ∧ fetch u.stream = some ⟨0x80000001, [0], []⟩ ∧
    hostStep ⟨0x80000001, [0], []⟩ u = .next { u with faults := 5, pc := 1, stream := [] } := by
  simp only [nextOf_iff]
  decide +kernel

theorem test_hypotheses_FaultBitsAreSticky :
    let s := offered [.word 0xD0000001] busy
    step s = .next (stepped s) ∧
    hostReady (drawTurn s).2 = some ⟨0xD0000001, [], []⟩ ∧ decode 0xD0000001#32 [] ≠ .ok .reset := by
  simp only [nextOf_iff]
  decide +kernel

/-- The same at a consumer step taken while a RESET is the host's next command. -/
theorem test_hypotheses_FaultBitsAreSticky_consumer :
    let s := { offered [.word 0xD0000000] busy with sched := [.consumer] }
    step s = .next (stepped s) ∧ hostReady (drawTurn s).2 = some ⟨0xD0000000, [], []⟩ ∧ (stepped s).stream ≠ [] := by
  simp only [nextOf_iff]
  decide +kernel

theorem test_hypotheses_initial_and_reachable : (offered [.word 0] (State.resetWith tiny)).Initial ∧
    Reachable (offered [.word 0] (State.resetWith tiny)) :=
  have h : (offered [.word 0] (State.resetWith tiny)).Initial := ⟨tiny, _, _, _, by decide +kernel, rfl⟩
  ⟨h, .start h⟩

theorem test_hypotheses_SpbIsPositiveAndExact :
    1 ≤ (40000#24).toNat ∧ (40000#24).toNat ≤ 65535 ∧ (40000#24).toNat ≤ 100 * base.cfg.fs ∧
    exec (.cfgWr 2 40000) base = .next (after [.cfgWr 2 40000] base) := by
  simp only [nextOf_iff]
  decide +kernel

theorem test_hypotheses_PcCountsCommands :
    exec .sync busy = .next busy ∧ exec .nop busy = .next (after [.nop] busy) := by
  simp only [nextOf_iff]
  decide +kernel

theorem test_hypotheses_CommandsCommuteWithConsumer :
    let s := { base with q := [.chunk [1, 2, 3]] }
    besideReceive s (.push [1]) = true ∧ exec (.push [1]) s = .next (after [.push [1]] s) ∧
    consumerStep s = some { s with q := [], buf := [1, 2, 3] } ∧
    besideReceive s (.cfgWr 3 1) = true ∧ besideReceive s (.cfgWr 2 1) = false ∧ besideReceive s (.cfgRd 7) = true ∧
    besideReceive s (.cfgRd 8) = false ∧ besideReceive s (.cfgRd 0xC) = false ∧ besideReceive s (.cfgRd 0xD) = true := by
  simp only [nextOf_iff]
  decide +kernel

/-- The two stops: nothing left to do, and a command whose payload the host has not supplied. -/
theorem test_stops :
    step { base with sched := [.host] } = .fault .runFinished ∧
    step (offered [.word 0xA0000001] base) = .fault .streamIncomplete :=
  ⟨rfl, rfl⟩

/-- A step of each agent; the second is the consumer's at its offer. -/
theorem test_hypotheses_ConsumerIsOfferedStepsForever :
    let s := { busy with sched := [.consumer] }
    step (offered [.word 0] base) = .next (stepped (offered [.word 0] base)) ∧
    (drawTurn s).1 = .consumer ∧ consumerStep (drawTurn s).2 = some (stepped s) := by
  simp only [nextOf_iff]
  decide +kernel

end Sys2Proof.Tests
end

section
/-! PROOFS. What one step of either agent does to the whole state, and with it the statements of 10_state.md:
`pc` counts the commands (R33), the output streams only grow (R38), and every step keeps `State.Inv`. -/

namespace Sys2Proof.Machine

open Sys2Proof.Spec

/-! ### The inversion of a step -/

/-- A draw of the schedule writes `sched` and `epoch` only, so every other field is read from `s` itself. -/
theorem drawTurn_snd_eq (s : State) :
    (drawTurn s).2 = { s with sched := (drawTurn s).2.sched, epoch := (drawTurn s).2.epoch } := by
  rcases drawTurn_cases s with ⟨a, rest, -, hd⟩ | ⟨-, -, hd⟩ | ⟨n, -, -, hd⟩ <;> rw [hd]

@[simp] theorem drawTurn_stream (s : State) : (drawTurn s).2.stream = s.stream := by rw [drawTurn_snd_eq]
@[simp] theorem drawTurn_pc (s : State) : (drawTurn s).2.pc = s.pc := by rw [drawTurn_snd_eq]
@[simp] theorem drawTurn_rsp (s : State) : (drawTurn s).2.rsp = s.rsp := by rw [drawTurn_snd_eq]
@[simp] theorem drawTurn_tx (s : State) : (drawTurn s).2.tx = s.tx := by rw [drawTurn_snd_eq]
@[simp] theorem drawTurn_rx (s : State) : (drawTurn s).2.rx = s.rx := by rw [drawTurn_snd_eq]

/-- The three things a step that answers a next state can be, each taken at the state the draw leaves: a step of the
consumer, a legal command, or an illegal word (R47, R65, R66). -/
theorem step_cases {s t : State} (h : step s = .next t) :
    consumerStep (drawTurn s).2 = some t ∨
    (∃ f i u, hostReady (drawTurn s).2 = some f ∧ decode f.word f.payload = .ok i ∧
      exec i (drawTurn s).2 = .next u ∧ t = { u with stream := f.rest }) ∨
    (∃ f, hostReady (drawTurn s).2 = some f ∧
      t = { (drawTurn s).2.raiseFault .ill with stream := f.rest }) := by
  rcases turn_cases (drawTurn s).1 (drawTurn s).2 with ⟨f, hf, ht⟩ | ⟨u, hu, ht⟩ | ⟨-, -, ht⟩
  · rcases hostStep_cases f (drawTurn s).2 with ⟨i, u, hi, hu, hs⟩ | ⟨e, -, hs⟩
    · exact .inr (.inl ⟨f, i, u, hf, hi, hu, Host.Outcome.next.inj (h.symm.trans (ht.trans hs))⟩)
    · exact .inr (.inr ⟨f, hf, Host.Outcome.next.inj (h.symm.trans (ht.trans hs))⟩)
  · exact .inl (hu.trans (congrArg some (Host.Outcome.next.inj (ht.symm.trans h))))
  · exact absurd (h.symm.trans ht) nofun

/-- What the host has ready is fetched from the stream of the state the draw was made in. -/
theorem fetch_of_hostReady_drawTurn {s : State} {f : Fetched} (h : hostReady (drawTurn s).2 = some f) :
    fetch s.stream = some f := by
  simpa using (hostReady_eq_some.mp h).1

/-- A SYNC the host has ready does not wait (R150). -/
theorem quiescent_of_hostReady_sync {s : State} {f : Fetched} (h : hostReady s = some f)
    (hi : decode f.word f.payload = .ok .sync) : s.quiescent = true :=
  (hostReady_eq_some.mp h).2.resolve_left (by simp [Fetched.waits, hi])

/-! ### R33: `pc` counts the commands -/

@[simp] theorem State.offer_pc (s : State) (e : Entry) : (s.offer e).pc = s.pc + 1 := by
  rcases s.offer_cases e with ⟨-, h⟩ | ⟨-, h⟩ <;> simp [h]

@[simp] theorem State.acceptWrite_pc (s : State) (r : Reg) (v : Word) : (s.acceptWrite r v).pc = s.pc + 1 := by
  unfold State.acceptWrite
  split <;> simp

/-- Every command advances `pc` by one, but a SYNC that must wait, which answers the state it was given. -/
theorem exec_pc {i : Instr} {s t : State} (h : exec i s = .next t) :
    (t.pc = s.pc + 1 ∧ (i = .sync → s.quiescent = true)) ∨ (i = .sync ∧ s.quiescent = false ∧ t = s) := by
  cases i <;> cases h
  case sync =>
    cases hq : s.quiescent
    · exact .inr ⟨rfl, rfl, by simp⟩
    · exact .inl ⟨by simp, fun _ => rfl⟩
  case cfgWr reg data =>
    refine .inl ⟨?_, nofun⟩
    split
    · simp
    · split
      · split <;> simp
      · simp
  case cfgRd reg =>
    refine .inl ⟨?_, nofun⟩
    split <;> simp
  case slice payload =>
    refine .inl ⟨?_, nofun⟩
    split <;> simp
  all_goals exact .inl ⟨by simp, nofun⟩

/-- A consumer step is no command: it leaves `pc` and the host's stream as they are. -/
theorem consumerStep_pc_stream {s t : State} (h : consumerStep s = some t) : t.pc = s.pc ∧ t.stream = s.stream := by
  obtain ⟨-, ⟨-, rfl⟩ | ⟨-, l, rest, -, rfl⟩ | ⟨-, rest, -, rfl⟩⟩ := consumerStep_cases h
  · simp
  · exact ⟨rfl, rfl⟩
  · exact ⟨rfl, rfl⟩

/-- Settles O56: a step is the consumer's, which leaves `pc`, or takes the host's next command, which advances it. -/
theorem pcCountsCommands : Obligations.PcCountsCommands := by
  refine ⟨rfl, fun i s t => exec_pc, fun s t h => ?_⟩
  rcases step_cases h with hc | ⟨f, i, u, hf, hi, hu, rfl⟩ | ⟨f, hf, rfl⟩
  · exact .inl (by simpa using consumerStep_pc_stream hc)
  · refine .inr ⟨f, fetch_of_hostReady_drawTurn hf, hf, ?_, rfl⟩
    rcases exec_pc hu with ⟨hpc, -⟩ | ⟨rfl, hq, -⟩
    · simpa using hpc
    · exact absurd (quiescent_of_hostReady_sync hf hi) (by simp [hq])
  · exact .inr ⟨f, fetch_of_hostReady_drawTurn hf, hf, by simp, rfl⟩

/-! ### R38: the output streams only grow -/

/-- From `s` to `t` the three output streams were at most appended to (R38). -/
def OutputsGrow (s t : State) : Prop := s.rsp <+: t.rsp ∧ s.tx <+: t.tx ∧ s.rx <+: t.rx

/-- A step that writes none of the three streams is among those that only append. -/
theorem OutputsGrow.of_eq {s t : State} (hrsp : t.rsp = s.rsp) (htx : t.tx = s.tx) (hrx : t.rx = s.rx) :
    OutputsGrow s t := by
  simp [OutputsGrow, hrsp, htx, hrx]

theorem OutputsGrow.emitRsp_advance (s : State) (w : Word) : OutputsGrow s (s.emitRsp w).advance := by
  simp [OutputsGrow]

theorem OutputsGrow.raiseFault (s : State) (e : Cause) : OutputsGrow s (s.raiseFault e) := .of_eq rfl rfl rfl

theorem OutputsGrow.transmit_advance (s : State) (bits : List LineBit) :
    OutputsGrow s (s.transmit bits).advance := by
  simp [OutputsGrow]

theorem State.rx_grows_fsmStep (s : State) (b : LineBit) : s.rx <+: (s.fsmStep b).rx := by
  rcases s.fsmStep_cases b with ⟨-, -, h⟩ | ⟨-, -, h⟩ | ⟨-, h⟩ | ⟨-, -, h⟩ | ⟨-, -, h⟩ <;> simp [h]

/-- The frame recovery machine is the one writer of the RX stream, and it appends (R119). -/
theorem OutputsGrow.fsmStep (s : State) (b : LineBit) : OutputsGrow s (s.fsmStep b) := by
  simp [OutputsGrow, s.rx_grows_fsmStep b]

theorem OutputsGrow.offer (s : State) (e : Entry) : OutputsGrow s (s.offer e) := by
  rcases s.offer_cases e with ⟨-, h⟩ | ⟨-, h⟩ <;> rw [h] <;> exact .of_eq rfl rfl rfl

theorem OutputsGrow.acceptWrite (s : State) (r : Reg) (v : Word) : OutputsGrow s (s.acceptWrite r v) := by
  unfold State.acceptWrite
  split <;> exact .of_eq (by simp) (by simp) (by simp)

theorem exec_outputsGrow {i : Instr} {s t : State} (h : exec i s = .next t) : OutputsGrow s t := by
  cases i <;> cases h
  case nop => exact .of_eq rfl rfl rfl
  case cfgWr reg data =>
    split
    · exact .raiseFault s .ill
    · split
      · split
        · exact .acceptWrite s _ _
        · exact .raiseFault s .cfg
      · exact .raiseFault s .ill
  case cfgRd reg =>
    split
    · exact .raiseFault s .ill
    · exact .emitRsp_advance s _
  case enc char => exact .emitRsp_advance s _
  case dec code => exact .emitRsp_advance s _
  case frame char => exact .emitRsp_advance s _
  case txBit bit => exact .transmit_advance s _
  case txChar char => exact .transmit_advance s _
  case slice payload =>
    split
    · exact .emitRsp_advance s _
    · exact .raiseFault s .len
  case rxBit bit => exact .fsmStep s bit
  case push payload => exact .offer s _
  case close => exact .offer s _
  case sync => split <;> exact .of_eq rfl rfl rfl
  case reset => exact .of_eq rfl rfl rfl

theorem consumerStep_outputsGrow {s t : State} (h : consumerStep s = some t) : OutputsGrow s t := by
  obtain ⟨-, ⟨-, rfl⟩ | ⟨-, l, rest, -, rfl⟩ | ⟨-, rest, -, rfl⟩⟩ := consumerStep_cases h
  · exact .fsmStep { s with buf := s.buf.drop s.spb } _
  · exact .of_eq rfl rfl rfl
  · exact .of_eq rfl rfl rfl

/-- Settles O52: the draw leaves the streams, and each of the three kinds of step only appends to them. -/
theorem outputStreamsOnlyGrow : Obligations.OutputStreamsOnlyGrow := by
  intro s t h
  have hgrow : OutputsGrow (drawTurn s).2 t := by
    rcases step_cases h with hc | ⟨f, i, u, -, -, hu, rfl⟩ | ⟨f, -, rfl⟩
    · exact consumerStep_outputsGrow hc
    · exact (exec_outputsGrow hu : OutputsGrow (drawTurn s).2 u)
    · exact .raiseFault _ .ill
  simpa [OutputsGrow] using hgrow

/-! ### R27: the registers fit their reads -/

theorem Params.fs_range {p : Params} (h : p.legal = true) : 46 ≤ p.fs ∧ p.fs ≤ 16777215 := by
  simp only [Params.legal, Bool.and_eq_true, decide_eq_true_eq] at h
  obtain ⟨⟨⟨⟨⟨hlo, hhi⟩, -⟩, -⟩, -⟩, -⟩ := h
  exact ⟨hlo, hhi⟩

theorem State.spb_le (s : State) : s.spb ≤ 100 * s.cfg.fs := by
  rw [mul_comm]
  exact Nat.div_le_self _ _

/-- Settles O40: the stored registers fit by their widths, and the views by R5's bound on `FS` and by the bound on the
buffer. -/
theorem registerValuesFitWord : Obligations.RegisterValuesFitWord := by
  intro s reg h
  have hfs := (Params.fs_range h.params_legal).2
  have hspb : s.cfg.fs * 100 / s.baud.toNat ≤ 100 * s.cfg.fs := s.spb_le
  have hclosed := s.closed.toNat_le
  have hcode : fsmCode s.fsm ≤ 2 := by cases s.fsm <;> decide
  have hbuf := h.buf_length
  have hphase := h.phase_lt
  unfold valueAt
  split <;> omega

/-! ### What a payload holds -/

theorem payloadLen_lt (w : Word) : payloadLen w < 2 ^ 24 := by
  unfold payloadLen
  split
  · exact (dataField w).isLt
  · decide

theorem ifReserved_eq_ok {ok : Bool} {e : DecodeError} {i j : Instr} (h : ifReserved ok e i = .ok j) : j = i := by
  unfold ifReserved at h
  split at h
  · exact (Except.ok.inj h).symm
  · exact absurd h nofun

/-- A decoded PUSH has the payload that stood in the stream, and no samples of its own (R69). -/
theorem payload_of_decode_push {w : Word} {payload l : List SampleBits} (h : decode w payload = .ok (.push l)) :
    l = payload := by
  unfold decode at h
  split at h
  case h_2 => exact absurd h nofun
  case h_15 => exact absurd h nofun
  case h_11 => exact Instr.push.inj (ifReserved_eq_ok h)
  all_goals exact absurd (ifReserved_eq_ok h) nofun

/-- A sample read at a width is in the range of that width (R63). -/
theorem readSample_inRange (bits : Nat) (x : SampleBits) : SampleInRange bits (readSample bits x) :=
  ⟨BitVec.le_toInt _, BitVec.toInt_lt⟩

theorem readSamples_inRange {bits : Nat} {payload : List SampleBits} :
    ∀ z ∈ readSamples bits payload, SampleInRange bits z := by
  intro z hz
  obtain ⟨x, -, rfl⟩ := List.mem_map.mp hz
  exact readSample_inRange bits x

/-! ### R36: the phase stays below `FS` -/

theorem renderBit_phase_lt {cfg : Params} (hfs : 0 < cfg.fs) (volume f n : Nat) {p : Nat} (hp : p < cfg.fs) :
    (renderBit cfg volume f n p).2 < cfg.fs := by
  induction n generalizing p with
  | zero => exact hp
  | succ n ih => exact ih (Nat.mod_lt _ hfs)

theorem renderBits_phase_lt {s : State} (hfs : 0 < s.cfg.fs) (bits : List LineBit) {p : Nat} (hp : p < s.cfg.fs) :
    (renderBits s bits p).2 < s.cfg.fs := by
  induction bits generalizing p with
  | nil => exact hp
  | cons b bs ih =>
    refine ih (renderBit_phase_lt hfs _ _ _ ?_)
    split
    · exact hp
    · exact hfs

theorem render_phase_lt {s : State} (hfs : 0 < s.cfg.fs) (bits : List LineBit) {p : Nat} (hp : p < s.cfg.fs) :
    (render s bits p).2 < s.cfg.fs := by
  unfold render
  split
  · exact renderBits_phase_lt hfs bits hp
  · exact hfs

/-! ### R31: the accumulator holds the bits collected so far -/

/-- A bit placed above the first `n` bits of the accumulator keeps it below the next power of two. -/
theorem acc_or_bit_lt {acc : Code} {n : Nat} (h : acc.toNat < 2 ^ n) (b : LineBit) :
    (acc ||| ((BitVec.ofBool b).setWidth 5 <<< n)).toNat < 2 ^ (n + 1) := by
  rw [BitVec.toNat_or, BitVec.toNat_shiftLeft, Nat.shiftLeft_eq]
  refine Nat.or_lt_two_pow (by omega) (lt_of_le_of_lt (Nat.mod_le _ _) ?_)
  have hb : ((BitVec.ofBool b).setWidth 5).toNat ≤ 1 := by cases b <;> decide
  calc ((BitVec.ofBool b).setWidth 5).toNat * 2 ^ n ≤ 1 * 2 ^ n := Nat.mul_le_mul_right _ hb
    _ < 2 ^ (n + 1) := by rw [pow_succ]; have := Nat.two_pow_pos n; omega

/-! ### Values that fit the width they are written to, queues that have room -/

theorem toNat_setWidth_of_lt {v : Word} {n : Nat} (h : v.toNat < 2 ^ n) : (v.setWidth n).toNat = v.toNat := by
  rw [BitVec.toNat_setWidth, Nat.mod_eq_of_lt h]

theorem State.length_lt_of_queueFull_eq_false (s : State) {cap : Nat} (hfull : s.queueFull = false)
    (hcap : s.cfg.queueCap = some cap) : s.q.length < cap := by
  simpa [State.queueFull, hcap] using hfull

/-! ### Each operation keeps the invariant -/

section Operations

variable {s : State}

theorem State.Inv.fs_pos (h : s.Inv) : 0 < s.cfg.fs := by
  have := (Params.fs_range h.params_legal).1
  omega

theorem State.Inv.withStream (h : s.Inv) (items : List Item) : State.Inv { s with stream := items } := { h with }

theorem State.Inv.drawTurn (h : s.Inv) : (drawTurn s).2.Inv := by
  rw [drawTurn_snd_eq]
  exact { h with }

theorem State.Inv.advance (h : s.Inv) : s.advance.Inv := { h with }

theorem State.Inv.emitRsp (h : s.Inv) (w : Word) : (s.emitRsp w).Inv := { h with }

theorem State.Inv.raiseFault (h : s.Inv) (e : Cause) : (s.raiseFault e).Inv := { h with }

theorem State.Inv.transmit (h : s.Inv) (bits : List LineBit) : (s.transmit bits).Inv :=
  { h with phase_lt := render_phase_lt h.fs_pos bits h.phase_lt }

theorem State.Inv.flushRx (h : s.Inv) : s.flushRx.Inv :=
  { h with
    collecting := nofun
    awaiting := nofun
    count_le := by simp
    buf_samples := by simp
    buf_length := by simp }

theorem State.Inv.resetCore (h : s.Inv) : s.resetCore.Inv where
  params_legal := h.params_legal
  shift_range := by simp
  shift_lt_mark := by simp
  baud_range := by
    have := (Params.fs_range h.params_legal).1
    simp
    omega
  stopb_pos := by simp
  volume_le := by simp
  collecting := nofun
  awaiting := nofun
  count_le := by simp
  phase_lt := h.fs_pos
  queue_cap := by simp
  queue_chunks := by simp
  buf_samples := by simp
  buf_length := by simp

/-- A legal value (R144) goes whole into its register's width, where it keeps the register's rule (R15 to R20). -/
theorem State.Inv.writeReg (h : s.Inv) {r : Reg} {v : Word} (hv : s.legalValue r v = true) :
    (s.writeReg r v).Inv := by
  cases r <;> simp only [State.legalValue, decide_eq_true_eq, Bool.false_eq_true] at hv
  case mark =>
    have hw : (v.setWidth 16).toNat = v.toNat := toNat_setWidth_of_lt (by omega)
    exact { h with shift_lt_mark := by simpa [State.writeReg, hw] using hv.1 }
  case shift =>
    obtain ⟨hlo, hhi, hmark⟩ := hv
    have hw : (v.setWidth 16).toNat = v.toNat := toNat_setWidth_of_lt (by omega)
    exact { h with
      shift_range := by simp [State.writeReg, hw, hlo, hhi]
      shift_lt_mark := by simpa [State.writeReg, hw] using hmark }
  case baud =>
    obtain ⟨hlo, hhi, hfs⟩ := hv
    have hw : (v.setWidth 16).toNat = v.toNat := toNat_setWidth_of_lt (by omega)
    exact { h with baud_range := by simp [State.writeReg, hw, hlo, hfs] }
  case stopb =>
    have hw : (v.setWidth 3).toNat = v.toNat := toNat_setWidth_of_lt (by omega)
    exact { h with stopb_pos := by simp [State.writeReg, hw, hv.1] }
  case volume =>
    have hw : (v.setWidth 16).toNat = v.toNat := toNat_setWidth_of_lt (by omega)
    exact { h with volume_le := by simp [State.writeReg, hw, hv] }
  case ctrl => exact { h with }

theorem State.Inv.acceptWrite (h : s.Inv) {r : Reg} {v : Word} (hv : s.legalValue r v = true) :
    (s.acceptWrite r v).Inv := by
  unfold State.acceptWrite
  split
  · exact (h.writeReg hv).flushRx.advance
  · exact (h.writeReg hv).advance

/-- The frame recovery machine moves through its states with the bit count and the accumulator they stand for (R31). -/
theorem State.Inv.fsmStep (h : s.Inv) (b : LineBit) : (s.fsmStep b).Inv := by
  rcases s.fsmStep_cases b with ⟨-, -, e⟩ | ⟨-, -, e⟩ | ⟨hfsm, e⟩ | ⟨-, -, e⟩ | ⟨-, -, e⟩ <;> rw [e]
  · exact h
  · exact { h with collecting := by simp, awaiting := nofun, count_le := by simp }
  · obtain ⟨hcount, hacc⟩ := h.collecting hfsm
    have hsucc : (s.count + 1).toNat = s.count.toNat + 1 := by bv_omega
    have hfive : s.count + 1#3 = 5#3 ↔ s.count.toNat = 4 := by bv_omega
    refine { h with collecting := fun hnew => ?_, awaiting := fun hnew => ?_, count_le := ?_ }
    · have hlt : s.count.toNat ≠ 4 := by simpa [hfive] using hnew
      refine ⟨?_, ?_⟩
      · simp only [hsucc]
        omega
      · simpa only [hsucc] using acc_or_bit_lt hacc b
    · have heq : s.count.toNat = 4 := by simpa [hfive] using hnew
      simp only [hsucc, heq]
    · simp only [hsucc]
      omega
  · exact { h with collecting := nofun, awaiting := nofun }
  · exact { h with collecting := nofun, awaiting := nofun }

/-- An entry joins the queue only where there is room for it (R34, R129, R135). -/
theorem State.Inv.offer (h : s.Inv) {e : Entry}
    (he : ∀ l, e = .chunk l → l.length < 2 ^ 24 ∧ ∀ z ∈ l, SampleInRange s.cfg.sampleBits z) : (s.offer e).Inv := by
  rcases s.offer_cases e with ⟨-, ho⟩ | ⟨hfull, ho⟩ <;> rw [ho]
  · exact h.raiseFault .ovf
  · refine { h with queue_cap := fun cap hcap => ?_, queue_chunks := fun l hl => ?_ }
    · simpa using s.length_lt_of_queueFull_eq_false hfull hcap
    · rcases List.mem_append.mp hl with hl | hl
      · exact h.queue_chunks l hl
      · exact he l (List.mem_singleton.mp hl).symm

theorem State.Inv.dropBuf (h : s.Inv) (n : Nat) : State.Inv { s with buf := s.buf.drop n } :=
  { h with
    buf_samples := fun z hz => h.buf_samples z (List.mem_of_mem_drop hz)
    buf_length := lt_of_le_of_lt (by simp) h.buf_length }

/-- What is left of a queue whose head is taken. -/
theorem State.Inv.tailQueue (h : s.Inv) {e : Entry} {rest : List Entry} (hq : s.q = e :: rest) :
    State.Inv { s with q := rest } :=
  { h with
    queue_cap := fun cap hcap => by
      have hlen := h.queue_cap cap hcap
      rw [hq, List.length_cons] at hlen
      exact Nat.le_of_succ_le hlen
    queue_chunks := fun l hl => h.queue_chunks l (hq ▸ List.mem_cons_of_mem e hl) }

/-- A chunk goes to the buffer only while that is below a window, which bounds the buffer's length (R27, R130). -/
theorem State.Inv.appendBuf (h : s.Inv) (hbuf : s.buf.length < s.spb) {l : List Sample} (hlen : l.length < 2 ^ 24)
    (hl : ∀ z ∈ l, SampleInRange s.cfg.sampleBits z) : State.Inv { s with buf := s.buf ++ l } :=
  { h with
    buf_samples := fun z hz => (List.mem_append.mp hz).elim (h.buf_samples z) (hl z)
    buf_length := by
      have hspb := s.spb_le
      simp only [List.length_append]
      omega }

end Operations

/-! ### Both agents keep the invariant -/

theorem consumerStep_keeps_inv {s t : State} (h : s.Inv) (ht : consumerStep s = some t) : t.Inv := by
  obtain ⟨-, ⟨-, rfl⟩ | ⟨hbuf, l, rest, hq, rfl⟩ | ⟨-, rest, hq, rfl⟩⟩ := consumerStep_cases ht
  · exact (h.dropBuf s.spb).fsmStep _
  · obtain ⟨hlen, hl⟩ := h.queue_chunks l (hq ▸ List.mem_cons_self)
    exact (h.tailQueue hq).appendBuf hbuf hlen hl
  · exact { h.tailQueue hq with }

/-- Every command keeps the invariant, a PUSH where its payload is one that `LEN` can ask for. -/
theorem exec_keeps_inv {i : Instr} {s t : State} (h : s.Inv)
    (hpush : ∀ payload, i = .push payload → payload.length < 2 ^ 24) (ht : exec i s = .next t) : t.Inv := by
  cases i <;> cases ht
  case nop => exact h.advance
  case cfgWr reg data =>
    split
    · exact h.raiseFault .ill
    · split
      · split
        case isTrue hv => exact h.acceptWrite hv
        case isFalse => exact h.raiseFault .cfg
      · exact h.raiseFault .ill
  case cfgRd reg =>
    split
    · exact h.raiseFault .ill
    · exact (h.emitRsp _).advance
  case enc char => exact (h.emitRsp _).advance
  case dec code => exact (h.emitRsp _).advance
  case frame char => exact (h.emitRsp _).advance
  case txBit bit => exact (h.transmit _).advance
  case txChar char => exact (h.transmit _).advance
  case slice payload =>
    split
    · exact (h.emitRsp _).advance
    · exact h.raiseFault .len
  case rxBit bit => exact (h.fsmStep bit).advance
  case push payload =>
    refine h.offer fun l hl => ?_
    obtain rfl := Entry.chunk.inj hl
    exact ⟨by simpa [readSamples] using hpush payload rfl, readSamples_inRange⟩
  case close => exact h.offer nofun
  case sync =>
    split
    · exact h.advance
    · exact h
  case reset => exact h.resetCore.advance

/-- Settles O53: the draw of the schedule, each command with the payload its word asks for, an illegal word and each
consumer step keep the invariant. -/
theorem stepKeepsInvariant : Obligations.StepKeepsInvariant := by
  intro s t h hs
  rcases step_cases hs with hc | ⟨f, i, u, hf, hi, hu, rfl⟩ | ⟨f, -, rfl⟩
  · exact consumerStep_keeps_inv h.drawTurn hc
  · refine (exec_keeps_inv h.drawTurn (fun payload hp => ?_) hu).withStream f.rest
    subst hp
    rw [payload_of_decode_push hi, (fetch_eq_some.mp (fetch_of_hostReady_drawTurn hf)).1]
    exact payloadLen_lt f.word
  · exact (h.drawTurn.raiseFault .ill).withStream f.rest

end Sys2Proof.Machine
end

section
/-! PROOFS. The commands and the agents of 20_memory.md: a host step runs the command it decodes (R47), the byte
transport carries the command stream (R44), commands beside the receive path commute with the consumer (R47, R50), and
the schedule is fair to the consumer (R47). -/

namespace Sys2Proof

/-! ### R57, R68: a well-formed command is decoded from its own word -/

theorem opField_plainWord (op : BitVec 4) (f : BitVec 24) : opField (plainWord op f) = op := by
  apply BitVec.eq_of_toNat_eq
  have := f.isLt
  rw [opField_toNat, plainWord_toNat]
  omega

theorem opField_regWord (op reg : BitVec 4) (data : BitVec 24) : opField (op ++ reg ++ data) = op := by
  apply BitVec.eq_of_toNat_eq
  have := data.isLt
  have := reg.isLt
  rw [opField_toNat, regWord_toNat]
  omega

theorem regField_regWord (op reg : BitVec 4) (data : BitVec 24) : regField (op ++ reg ++ data) = reg := by
  apply BitVec.eq_of_toNat_eq
  have := data.isLt
  have := reg.isLt
  rw [regField_toNat, regWord_toNat]
  omega

theorem dataField_regWord (op reg : BitVec 4) (data : BitVec 24) : dataField (op ++ reg ++ data) = data := by
  apply BitVec.eq_of_toNat_eq
  have := data.isLt
  rw [dataField_toNat, regWord_toNat]
  omega

/-- The body of a plain word is zero from the first bit that its field leaves free (R57). -/
theorem bodyZeroFrom_plainWord {lo : Nat} (hlo : lo ≤ 28) (op : BitVec 4) {f : BitVec 24} (hf : f.toNat < 2 ^ lo) :
    bodyZeroFrom lo (plainWord op f) = true := by
  have hsplit : 2 ^ 28 = 2 ^ lo * 2 ^ (28 - lo) := by rw [← pow_add, Nat.add_sub_cancel' hlo]
  rw [bodyZeroFrom_iff, plainWord_toNat, hsplit, mul_left_comm, Nat.mul_add_div (Nat.two_pow_pos lo),
    Nat.div_eq_of_lt hf, Nat.add_zero, Nat.mul_mod_left]

theorem charField_plainWord (op : BitVec 4) (c : Char8) : charField (plainWord op (c.setWidth 24)) = c := by
  apply BitVec.eq_of_toNat_eq
  have := c.isLt
  rw [charField_toNat, plainWord_toNat, BitVec.toNat_setWidth]
  omega

theorem codeField_plainWord (op : BitVec 4) (k : Code) : codeField (plainWord op (k.setWidth 24)) = k := by
  apply BitVec.eq_of_toNat_eq
  have := k.isLt
  rw [codeField_toNat, plainWord_toNat, BitVec.toNat_setWidth]
  omega

theorem bitField_plainWord (op : BitVec 4) (b : LineBit) :
    bitField (plainWord op ((BitVec.ofBool b).setWidth 24)) = b := by
  rw [bitField_eq, plainWord_toNat, ofBool_setWidth_toNat]
  cases b <;> simp <;> omega

theorem bodyZeroFrom_charWord (op : BitVec 4) (c : Char8) :
    bodyZeroFrom 8 (plainWord op (c.setWidth 24)) = true :=
  bodyZeroFrom_plainWord (by omega) op (by have := c.isLt; rw [BitVec.toNat_setWidth]; omega)

theorem bodyZeroFrom_codeWord (op : BitVec 4) (k : Code) :
    bodyZeroFrom 5 (plainWord op (k.setWidth 24)) = true :=
  bodyZeroFrom_plainWord (by omega) op (by have := k.isLt; rw [BitVec.toNat_setWidth]; omega)

theorem bodyZeroFrom_bitWord (op : BitVec 4) (b : LineBit) :
    bodyZeroFrom 1 (plainWord op ((BitVec.ofBool b).setWidth 24)) = true :=
  bodyZeroFrom_plainWord (by omega) op (by rw [ofBool_setWidth_toNat]; exact Nat.lt_succ_of_le b.toNat_le)

theorem bodyZeroFrom_lenWord (op : BitVec 4) (f : BitVec 24) : bodyZeroFrom 24 (plainWord op f) = true :=
  bodyZeroFrom_plainWord (by omega) op f.isLt

theorem bodyZeroFrom_bareWord (op : BitVec 4) : bodyZeroFrom 0 (plainWord op 0#24) = true :=
  bodyZeroFrom_plainWord (by omega) op (by decide)

/-- Every command is decoded from its own word and payload: the opcode selects its arm, where the reserved bits are
zero and the fields are its operands (R57, R68). -/
theorem decode_encodeWord (i : Instr) : decode (encodeWord i) i.payload = .ok i := by
  cases i with
  | nop | close | sync | reset =>
    simp [encodeWord, decode, opField_plainWord, bodyZeroFrom_bareWord, ifReserved]
  | cfgWr reg data =>
    simp [encodeWord, decode, opField_regWord, regField_regWord, dataField_regWord]
  | cfgRd reg =>
    simp [encodeWord, decode, opField_regWord, regField_regWord, dataField_regWord, ifReserved]
  | enc char | frame char | txChar char =>
    simp [encodeWord, decode, opField_plainWord, bodyZeroFrom_charWord, charField_plainWord, ifReserved]
  | dec code =>
    simp [encodeWord, decode, opField_plainWord, bodyZeroFrom_codeWord, codeField_plainWord, ifReserved]
  | txBit bit | rxBit bit =>
    simp [encodeWord, decode, opField_plainWord, bodyZeroFrom_bitWord, bitField_plainWord, ifReserved]
  | slice payload | push payload =>
    simp [encodeWord, decode, opField_plainWord, bodyZeroFrom_lenWord, Instr.payload, ifReserved]

/-- A well-formed command's word asks for the payload that the command has (R63, R69). -/
theorem payloadLen_encodeWord {bits : Nat} {i : Instr} (h : i.wellFormed bits = true) :
    payloadLen (encodeWord i) = i.payload.length := by
  have hlaw : Laws.PayloadLength.Statement i := by
    cases i with
    | nop => exact Laws.PayloadLength.nop
    | cfgWr reg data => exact Laws.PayloadLength.cfgWr reg data
    | cfgRd reg => exact Laws.PayloadLength.cfgRd reg
    | enc char => exact Laws.PayloadLength.enc char
    | dec code => exact Laws.PayloadLength.dec code
    | frame char => exact Laws.PayloadLength.frame char
    | txBit bit => exact Laws.PayloadLength.txBit bit
    | txChar char => exact Laws.PayloadLength.txChar char
    | slice payload => exact Laws.PayloadLength.slice payload
    | rxBit bit => exact Laws.PayloadLength.rxBit bit
    | push payload => exact Laws.PayloadLength.push payload
    | close => exact Laws.PayloadLength.close
    | sync => exact Laws.PayloadLength.sync
    | reset => exact Laws.PayloadLength.reset
  exact hlaw bits h

end Sys2Proof

namespace Sys2Proof.Machine

open Sys2Proof.Spec

/-! ### R47: the host offered a step takes its command -/

theorem fetch_encode {bits : Nat} {i : Instr} (h : i.wellFormed bits = true) (rest : List Item) :
    fetch (encode i ++ rest) = some ⟨encodeWord i, i.payload, rest⟩ :=
  fetch_eq_some.mpr ⟨(payloadLen_encodeWord h).symm, rfl⟩

theorem drawTurn_of_sched_cons {s : State} {a : Agent} {sched : List Agent} (h : s.sched = a :: sched) :
    drawTurn s = (a, { s with sched := sched }) := by
  simp [drawTurn, h]

/-- A fetched command that decodes waits just when it is a SYNC (R150). -/
theorem Fetched.waits_iff {f : Fetched} {i : Instr} (hi : decode f.word f.payload = .ok i) :
    f.waits = true ↔ i = .sync := by
  unfold Fetched.waits
  rw [hi]
  cases i <;> simp

theorem turn_host_of_ready {s : State} {f : Fetched} (h : hostReady s = some f) : turn .host s = hostStep f s := by
  simp [turn, h]

theorem hostStep_of_decode {f : Fetched} {i : Instr} {s t : State} (hi : decode f.word f.payload = .ok i)
    (ht : exec i s = .next t) : hostStep f s = .next { t with stream := f.rest } := by
  simp [hostStep, hi, ht, withStream]

/-- Settles O7: the draw offers the step to the host, which has its command ready, and a command that decodes to `i`
runs the meaning of `i`. -/
theorem stepRunsDecodedCommand : Obligations.StepRunsDecodedCommand := by
  intro s sched bits i rest hsched hstream hwf hsync
  let f : Fetched := ⟨encodeWord i, i.payload, rest⟩
  have hdec : decode f.word f.payload = .ok i := decode_encodeWord i
  have hready : hostReady { s with sched := sched } = some f := by
    refine hostReady_eq_some.mpr ⟨by simpa [hstream] using fetch_encode hwf rest, ?_⟩
    by_cases hi : i = .sync
    · exact .inr (hsync hi)
    · exact .inl (Bool.eq_false_iff.mpr (hi ∘ (Fetched.waits_iff hdec).mp))
  obtain ⟨t, ht⟩ := exec_eq_next i { s with sched := sched }
  refine ⟨t, ht, ?_⟩
  rw [step, drawTurn_of_sched_cons hsched, turn_host_of_ready hready, hostStep_of_decode hdec ht]

/-! ### R44: the byte transport carries the command stream -/

/-- The bytes of a value are its lowest one and then those of the value shifted down by it. -/
theorem lowBytes_succ (n : Nat) (x : BitVec 32) :
    lowBytes (n + 1) x = x.extractLsb' 0 8 :: lowBytes n (x >>> 8) := by
  simp only [lowBytes, List.range_succ_eq_map, List.map_cons, List.map_map]
  refine congrArg₂ _ rfl (List.map_congr_left fun i _ => ?_)
  ext j
  simp [Nat.mul_succ, Nat.add_comm, Nat.add_left_comm]

@[simp] theorem lowBytes_length (n : Nat) (x : BitVec 32) : (lowBytes n x).length = n := by
  simp [lowBytes]

/-- A value is its lowest byte and, above it, the rest. -/
theorem lowByte_or_shifted (x : BitVec 32) :
    (x.extractLsb' 0 8).setWidth 32 ||| ((x >>> 8) <<< 8) = x := by
  ext j hj
  by_cases h : j < 8
  · simp [h, BitVec.getLsbD_eq_getElem hj]
  · have hback : 8 + (j - 8) = j := by omega
    simp [h, hback, BitVec.getLsbD_eq_getElem hj]

/-- A value that fits `n` bytes is read back from them (R44). -/
theorem ofLowBytes_lowBytes {n : Nat} {x : BitVec 32} (h : x.toNat < 2 ^ (8 * n)) :
    ofLowBytes (lowBytes n x) = x := by
  induction n generalizing x with
  | zero =>
    apply BitVec.eq_of_toNat_eq
    simpa [lowBytes, ofLowBytes, eq_comm] using h
  | succ n ih =>
    have hshift : (x >>> 8).toNat < 2 ^ (8 * n) := by
      rw [BitVec.toNat_ushiftRight, Nat.shiftRight_eq_div_pow]
      exact Nat.div_lt_of_lt_mul (by rwa [← pow_add, Nat.add_comm])
    rw [lowBytes_succ, ofLowBytes, ih hshift, lowByte_or_shifted]

theorem sampleFits_lt_bytes {bits : Nat} {x : SampleBits} (h : sampleFits bits x = true) :
    x.toNat < 2 ^ (8 * sampleByteCount bits) :=
  lt_of_lt_of_le (of_decide_eq_true h) (Nat.pow_le_pow_right (by decide) (by unfold sampleByteCount; omega))

/-- Where a word is due, the transport reads back the word that was sent, and then waits for its payload. -/
theorem streamOfBytes_word (bits fuel : Nat) (w : Word) (bytes : List (BitVec 8)) :
    streamOfBytes bits (fuel + 1) 0 (itemBytes bits (.word w) ++ bytes) =
      (streamOfBytes bits fuel (payloadLen w) bytes).map (.word w :: ·) := by
  have hlen : (lowBytes 4 w).length = 4 := lowBytes_length 4 w
  have hw : ofLowBytes (lowBytes 4 w) = w := ofLowBytes_lowBytes w.isLt
  have hne : lowBytes 4 w ≠ [] := List.ne_nil_of_length_pos (by omega)
  simp [itemBytes, streamOfBytes, List.take_left' hlen, List.drop_left' hlen, hw, hne]

/-- Where a sample is due, the transport reads back the sample that was sent. -/
theorem streamOfBytes_sample {bits : Nat} (hbits : 1 ≤ bits) {x : SampleBits} (hx : sampleFits bits x = true)
    (fuel pending : Nat) (bytes : List (BitVec 8)) :
    streamOfBytes bits (fuel + 1) (pending + 1) (itemBytes bits (.sample x) ++ bytes) =
      (streamOfBytes bits fuel pending bytes).map (.sample x :: ·) := by
  have hlen : (lowBytes (sampleByteCount bits) x).length = sampleByteCount bits := lowBytes_length _ x
  have hval : ofLowBytes (lowBytes (sampleByteCount bits) x) = x := ofLowBytes_lowBytes (sampleFits_lt_bytes hx)
  have hne : lowBytes (sampleByteCount bits) x ≠ [] :=
    List.ne_nil_of_length_pos (by rw [hlen, sampleByteCount]; omega)
  simp [itemBytes, streamOfBytes, List.take_left' hlen, List.drop_left' hlen, hval, hne]

theorem streamBytes_append (bits : Nat) (items items' : List Item) :
    streamBytes bits (items ++ items') = streamBytes bits items ++ streamBytes bits items' :=
  List.flatMap_append

theorem streamBytes_cons (bits : Nat) (item : Item) (items : List Item) :
    streamBytes bits (item :: items) = itemBytes bits item ++ streamBytes bits items := rfl

/-- A payload that is due is read back whole, and a word is due after it. -/
theorem streamOfBytes_payload {bits : Nat} (hbits : 1 ≤ bits) {payload : List SampleBits}
    (hfits : ∀ x ∈ payload, sampleFits bits x = true) (fuel : Nat) (bytes : List (BitVec 8)) :
    streamOfBytes bits (payload.length + fuel) payload.length (streamBytes bits (payload.map .sample) ++ bytes) =
      (streamOfBytes bits fuel 0 bytes).map (payload.map .sample ++ ·) := by
  induction payload with
  | nil => simp [streamBytes]
  | cons x xs ih =>
    obtain ⟨hx, hxs⟩ := List.forall_mem_cons.mp hfits
    rw [List.map_cons, streamBytes_cons, List.append_assoc, List.length_cons, Nat.add_right_comm,
      streamOfBytes_sample hbits hx, ih hxs, Option.map_map]
    rfl

theorem payload_fits {bits : Nat} {i : Instr} (h : i.wellFormed bits = true) :
    ∀ x ∈ i.payload, sampleFits bits x = true := by
  cases i with
  | slice payload | push payload =>
    simp only [Instr.wellFormed, payloadFits, Bool.and_eq_true, List.all_eq_true] at h
    exact h.2
  | _ => exact nofun

/-- A command is read back whole: its word asks for just the payload that follows it (R69). -/
theorem streamOfBytes_encode {bits : Nat} (hbits : 1 ≤ bits) {i : Instr} (h : i.wellFormed bits = true) (fuel : Nat)
    (bytes : List (BitVec 8)) :
    streamOfBytes bits ((encode i).length + fuel) 0 (streamBytes bits (encode i) ++ bytes) =
      (streamOfBytes bits fuel 0 bytes).map (encode i ++ ·) := by
  rw [encode, streamBytes_cons, List.append_assoc, List.length_cons, List.length_map, Nat.add_right_comm,
    streamOfBytes_word, payloadLen_encodeWord h, streamOfBytes_payload hbits (payload_fits h), Option.map_map]
  rfl

/-- Settles O8, by induction on the commands, each of which is read back whole. -/
theorem byteTransportCarriesCommands : Obligations.ByteTransportCarriesCommands := by
  intro bits cmds hlo _ hwf
  induction cmds with
  | nil => rfl
  | cons i cmds ih =>
    obtain ⟨hi, hcmds⟩ := List.forall_mem_cons.mp hwf
    rw [List.flatMap_cons, streamBytes_append, List.length_append, streamOfBytes_encode (by omega) hi, ih hcmds]
    rfl

/-! ### R47, R50: commands beside the receive path commute with the consumer -/

/-- `s` with the receive path of `r`: what a consumer step writes (R131 to R133). -/
def State.withReceive (s r : State) : State :=
  { s with fsm := r.fsm, acc := r.acc, count := r.count, fecnt := r.fecnt, buf := r.buf, q := r.q, closed := r.closed,
           rx := r.rx }

/-- `s` with the host's part of `t`: what a command beside the receive path writes, none of which a consumer step
reads. -/
def State.withHostPart (s t : State) : State :=
  { s with stopb := t.stopb, volume := t.volume, ctrl := t.ctrl, faults := t.faults, phase := t.phase, pc := t.pc,
           rsp := t.rsp, tx := t.tx }

/-- `s` with the host's part of `t` and further entries behind its queue (R55). -/
def State.withHostWork (s t : State) (entries : List Entry) : State :=
  { s.withHostPart t with q := s.q ++ entries }

theorem State.withReceive_withHostPart (s r t : State) :
    (s.withReceive r).withHostPart t = (s.withHostPart t).withReceive r := rfl

theorem State.withHostWork_nil (s t : State) : s.withHostWork t [] = s.withHostPart t := by
  simp [State.withHostWork, State.withHostPart]

/-- The consumer's step at a state, from the conditions on it (R130 to R133). -/
theorem consumerStep_eq_some {s t : State} :
    consumerStep s = some t ↔ s.closed = false ∧
      ((s.spb ≤ s.buf.length ∧ t = s.consumerWin) ∨
       (s.buf.length < s.spb ∧ ∃ l rest, s.q = .chunk l :: rest ∧ t = { s with q := rest, buf := s.buf ++ l }) ∨
       (s.buf.length < s.spb ∧ ∃ rest, s.q = .close :: rest ∧ t = { s with q := rest, closed := true })) := by
  refine ⟨consumerStep_cases, ?_⟩
  rintro ⟨hopen, ⟨hwin, rfl⟩ | ⟨hbuf, l, rest, hq, rfl⟩ | ⟨hbuf, rest, hq, rfl⟩⟩
  · simp [consumerStep, hopen, hwin]
  · simp [consumerStep, hopen, hbuf, hq]
  · simp [consumerStep, hopen, hbuf, hq]

/-! #### The consumer -/

theorem State.fsmStep_withHostWork (s t : State) (entries : List Entry) (b : LineBit) :
    (s.withHostWork t entries).fsmStep b = (s.fsmStep b).withHostWork t entries := by
  cases hfsm : s.fsm <;> cases b <;>
    simp [State.fsmStep, State.fsmIdle, State.fsmCollect, State.fsmStop, State.emitRx, State.withHostWork,
      State.withHostPart, hfsm]

/-- A consumer step reads nothing of the host's part and leaves it, and what it takes from the queue's head is not
what has joined the tail (R55). -/
theorem consumerStep_withHostWork {s u : State} (h : consumerStep s = some u) (t : State) (entries : List Entry) :
    consumerStep (s.withHostWork t entries) = some (u.withHostWork t entries) := by
  obtain ⟨hopen, ⟨hwin, rfl⟩ | ⟨hbuf, l, rest, hq, rfl⟩ | ⟨hbuf, rest, hq, rfl⟩⟩ := consumerStep_cases h
  · exact consumerStep_eq_some.mpr ⟨hopen, .inl ⟨hwin, (State.fsmStep_withHostWork _ t entries _).symm⟩⟩
  · exact consumerStep_eq_some.mpr
      ⟨hopen, .inr (.inl ⟨hbuf, l, rest ++ entries, by simp [State.withHostWork, hq], rfl⟩)⟩
  · exact consumerStep_eq_some.mpr
      ⟨hopen, .inr (.inr ⟨hbuf, rest ++ entries, by simp [State.withHostWork, hq], rfl⟩)⟩

theorem consumerStep_withHostPart {s u : State} (h : consumerStep s = some u) (t : State) :
    consumerStep (s.withHostPart t) = some (u.withHostPart t) := by
  simpa only [State.withHostWork_nil] using consumerStep_withHostWork h t []

theorem State.fsmStep_writes_receive (s : State) (b : LineBit) : s.fsmStep b = s.withReceive (s.fsmStep b) := by
  rcases s.fsmStep_cases b with ⟨-, -, h⟩ | ⟨-, -, h⟩ | ⟨-, h⟩ | ⟨-, -, h⟩ | ⟨-, -, h⟩ <;> rw [h] <;> rfl

/-- A consumer step writes the receive path only. -/
theorem consumerStep_writes_receive {s u : State} (h : consumerStep s = some u) : u = s.withReceive u := by
  obtain ⟨-, ⟨-, rfl⟩ | ⟨-, l, rest, -, rfl⟩ | ⟨-, rest, -, rfl⟩⟩ := consumerStep_cases h
  · exact State.fsmStep_writes_receive { s with buf := s.buf.drop s.spb } _
  · rfl
  · rfl

/-! #### The commands that append to an unbounded queue -/

theorem State.offer_of_unbounded {s : State} (h : s.cfg.queueCap = none) (e : Entry) :
    s.offer e = s.withHostWork s.advance [e] := by
  have hroom : ¬ s.queueFull = true := by simp [State.queueFull, h]
  rw [State.offer, if_neg hroom]
  rfl

theorem consumerStep_cfg {s u : State} (h : consumerStep s = some u) : u.cfg = s.cfg := by
  rw [consumerStep_writes_receive h]
  rfl

/-- An offer to an unbounded queue is never refused, and commutes with a consumer step (R55, R129, R135). -/
theorem consumerStep_offer {s u : State} (hcap : s.cfg.queueCap = none) (h : consumerStep s = some u) (e : Entry) :
    consumerStep (s.offer e) = some (u.offer e) := by
  rw [State.offer_of_unbounded hcap, State.offer_of_unbounded ((consumerStep_cfg h).symm ▸ hcap),
    consumerStep_withHostWork h, consumerStep_writes_receive h]
  rfl

/-! #### The commands that leave the receive path alone -/

/-- At `s` the command `i` answers `t`, writes the host's part only, and does the same whatever the receive path
holds. -/
structure RunsBeside (i : Instr) (s t : State) : Prop where
  writes : t = s.withHostPart t
  reads : ∀ r : State, exec i (s.withReceive r) = .next (t.withReceive r)

/-- The two orders of such a command and a consumer step end in the same state (R47). -/
theorem RunsBeside.commutes {i : Instr} {s t u : State} (hi : RunsBeside i s t) (hc : consumerStep s = some u) :
    ∃ v, consumerStep t = some v ∧ exec i u = .next v := by
  refine ⟨t.withReceive u, ?_, ?_⟩
  · have hu : u.withHostPart t = t.withReceive u := by
      calc u.withHostPart t = (s.withReceive u).withHostPart t := by rw [← consumerStep_writes_receive hc]
        _ = (s.withHostPart t).withReceive u := s.withReceive_withHostPart u t
        _ = t.withReceive u := by rw [← hi.writes]
    have hstep : consumerStep (s.withHostPart t) = some (u.withHostPart t) := consumerStep_withHostPart hc t
    rwa [← hi.writes, hu] at hstep
  · rw [consumerStep_writes_receive hc]
    exact hi.reads u

/-- The tone rendered depends on nothing of the receive path (R102). -/
theorem renderBits_withReceive (s t : State) (bits : List LineBit) (p : Nat) :
    renderBits (s.withReceive t) bits p = renderBits s bits p := by
  induction bits generalizing p with
  | nil => rfl
  | cons b bs ih => simp only [renderBits, ih]; rfl

theorem State.transmit_withReceive (s t : State) (bits : List LineBit) :
    (s.withReceive t).transmit bits = (s.transmit bits).withReceive t := by
  simp only [State.transmit, render, renderBits_withReceive]
  rfl

theorem runsBeside_transmit {i : Instr} {s : State} {bits : List LineBit}
    (hi : ∀ r : State, exec i (s.withReceive r) = .next ((s.withReceive r).transmit bits).advance) :
    RunsBeside i s (s.transmit bits).advance :=
  ⟨rfl, fun r => by rw [hi, s.transmit_withReceive]; rfl⟩

/-- The registers whose reads show what a consumer step writes (R24 to R28). -/
def Reg.viewsReceive : Reg → Bool
  | .status | .rxstate | .fecnt | .buflen | .qlen => true
  | .mark | .shift | .baud | .stopb | .volume | .ctrl | .fs | .spb | .phase => false

theorem State.readReg_withReceive {r : Reg} (h : r.viewsReceive = false) (s t : State) :
    (s.withReceive t).readReg r = s.readReg r := by
  cases r
  case status | rxstate | fecnt | buflen | qlen => exact absurd h nofun
  all_goals rfl

/-- The indices outside 8 to 12 name no view of the receive path (R14). -/
theorem Reg.viewsReceive_of_ofIndex {i : BitVec 4} {r : Reg} (h : Reg.ofIndex i = some r)
    (hi : i.toNat ≤ 7 ∨ 0xD ≤ i.toNat) : r.viewsReceive = false := by
  have hall : ∀ i : BitVec 4, i.toNat ≤ 7 ∨ 0xD ≤ i.toNat → (Reg.ofIndex i).any Reg.viewsReceive = false := by
    decide
  simpa [h] using hall i hi

/-- The registers that 3 and the indices above it name are no tone registers (R14). -/
theorem Reg.isTone_of_ofIndex {i : BitVec 4} {r : Reg} (h : Reg.ofIndex i = some r) (hi : 3 ≤ i.toNat) :
    r.isTone = false := by
  have hall : ∀ i : BitVec 4, 3 ≤ i.toNat → (Reg.ofIndex i).any Reg.isTone = false := by decide
  simpa [h] using hall i hi

theorem State.legalValue_withReceive (s t : State) (r : Reg) (v : Word) :
    (s.withReceive t).legalValue r v = s.legalValue r v := by
  cases r <;> rfl

theorem State.writeReg_withReceive (s t : State) (r : Reg) (v : Word) :
    (s.withReceive t).writeReg r v = (s.writeReg r v).withReceive t := by
  cases r <;> rfl

section NotTone

variable {r : Reg} (h : r.isTone = false) (s t : State) (v : Word)
include h

/-- An accepted write of a register that is no tone register flushes nothing (R142, R147). -/
theorem State.acceptWrite_of_not_tone : s.acceptWrite r v = (s.writeReg r v).advance := by
  simp [State.acceptWrite, h]

theorem State.acceptWrite_withHostPart : s.acceptWrite r v = s.withHostPart (s.acceptWrite r v) := by
  rw [State.acceptWrite_of_not_tone h]
  cases r
  case mark | shift | baud => exact absurd h nofun
  all_goals rfl

theorem State.acceptWrite_withReceive : (s.withReceive t).acceptWrite r v = (s.acceptWrite r v).withReceive t := by
  rw [State.acceptWrite_of_not_tone h, State.acceptWrite_of_not_tone h, State.writeReg_withReceive]
  rfl

end NotTone

theorem exec_cfgWr_reserved {reg : BitVec 4} (h : Reg.ofIndex reg = none) (data : BitVec 24) (s : State) :
    exec (.cfgWr reg data) s = .next (s.raiseFault .ill) := by
  simp only [exec, execCfgWr, h]

theorem exec_cfgWr_register {reg : BitVec 4} {r : Reg} (h : Reg.ofIndex reg = some r) (data : BitVec 24) (s : State) :
    exec (.cfgWr reg data) s = .next
      (if r.writable then
        if s.legalValue r (writeValue data) then s.acceptWrite r (writeValue data) else s.raiseFault .cfg
      else s.raiseFault .ill) := by
  simp only [exec, execCfgWr, h]

theorem exec_cfgRd_reserved {reg : BitVec 4} (h : Reg.ofIndex reg = none) (s : State) :
    exec (.cfgRd reg) s = .next (s.raiseFault .ill) := by
  simp only [exec, execCfgRd, h]

theorem exec_cfgRd_register {reg : BitVec 4} {r : Reg} (h : Reg.ofIndex reg = some r) (s : State) :
    exec (.cfgRd reg) s = .next (s.emitRsp (s.readReg r)).advance := by
  simp only [exec, execCfgRd, h]

/-- CFG.WR to an index from 3 on: a fault, or a register of the host's part written. -/
theorem runsBeside_cfgWr {reg : BitVec 4} (h : 3 ≤ reg.toNat) {data : BitVec 24} {s t : State}
    (ht : exec (.cfgWr reg data) s = .next t) : RunsBeside (.cfgWr reg data) s t := by
  cases hr : Reg.ofIndex reg with
  | none =>
    obtain rfl := Host.Outcome.next.inj ((exec_cfgWr_reserved hr data s).symm.trans ht)
    exact ⟨rfl, fun u => exec_cfgWr_reserved hr data _⟩
  | some r =>
    obtain rfl := Host.Outcome.next.inj ((exec_cfgWr_register hr data s).symm.trans ht)
    have hexec (u : State) := exec_cfgWr_register hr data (s.withReceive u)
    simp only [State.legalValue_withReceive] at hexec
    split
    case isTrue hw =>
      split
      case isTrue hv =>
        have htone := Reg.isTone_of_ofIndex hr h
        exact ⟨State.acceptWrite_withHostPart htone s _, fun u => by
          rw [hexec, if_pos hw, if_pos hv, State.acceptWrite_withReceive htone]⟩
      case isFalse hv => exact ⟨rfl, fun u => by rw [hexec, if_pos hw, if_neg hv]; rfl⟩
    case isFalse hw => exact ⟨rfl, fun u => by rw [hexec, if_neg hw]; rfl⟩

/-- CFG.RD of an index that is no view of the receive path: a fault, or an answer that the consumer cannot change. -/
theorem runsBeside_cfgRd {reg : BitVec 4} (h : reg.toNat ≤ 7 ∨ 0xD ≤ reg.toNat) {s t : State}
    (ht : exec (.cfgRd reg) s = .next t) : RunsBeside (.cfgRd reg) s t := by
  cases hr : Reg.ofIndex reg with
  | none =>
    obtain rfl := Host.Outcome.next.inj ((exec_cfgRd_reserved hr s).symm.trans ht)
    exact ⟨rfl, fun u => exec_cfgRd_reserved hr _⟩
  | some r =>
    obtain rfl := Host.Outcome.next.inj ((exec_cfgRd_register hr s).symm.trans ht)
    exact ⟨rfl, fun u => by
      rw [exec_cfgRd_register hr, State.readReg_withReceive (Reg.viewsReceive_of_ofIndex hr h)]; rfl⟩

/-- SLICE: its window and its bins are no part of the receive path (R103, R111). -/
theorem runsBeside_slice {payload : List SampleBits} {s t : State}
    (ht : exec (.slice payload) s = .next t) : RunsBeside (.slice payload) s t := by
  cases ht
  split
  case isTrue hlen => exact ⟨rfl, fun u => congrArg _ (if_pos hlen)⟩
  case isFalse hlen => exact ⟨rfl, fun u => congrArg _ (if_neg hlen)⟩

/-- Settles O57: PUSH and CLOSE append behind the entry a consumer step takes; every other command beside the receive
path writes the host's part only and reads nothing that a consumer step writes. -/
theorem commandsCommuteWithConsumer : Obligations.CommandsCommuteWithConsumer := by
  intro i s t u hbeside ht hc
  cases i with
  | nop | enc _ | dec _ | frame _ =>
    cases ht
    exact (RunsBeside.mk (s := s) rfl fun _ => rfl).commutes hc
  | txBit _ | txChar _ =>
    cases ht
    exact (runsBeside_transmit (s := s) fun _ => rfl).commutes hc
  | slice payload => exact (runsBeside_slice ht).commutes hc
  | cfgWr reg data => exact (runsBeside_cfgWr (of_decide_eq_true hbeside) ht).commutes hc
  | cfgRd reg => exact (runsBeside_cfgRd (of_decide_eq_true hbeside) ht).commutes hc
  | push payload =>
    cases ht
    refine ⟨_, consumerStep_offer (Option.isNone_iff_eq_none.mp hbeside) hc _, ?_⟩
    rw [← consumerStep_cfg hc]
    rfl
  | close =>
    cases ht
    exact ⟨_, consumerStep_offer (Option.isNone_iff_eq_none.mp hbeside) hc _, rfl⟩
  | rxBit _ | sync | reset => exact absurd hbeside nofun

/-! ### R47: the schedule is fair to the consumer -/

/-- A consumer's offer that is pending comes up before the pending offers are used up. -/
theorem drawn_offers_pending_consumer {s : State} (h : .consumer ∈ s.sched) :
    ∃ n < s.sched.length, (drawTurn (drawn n s)).1 = .consumer := by
  generalize hsched : s.sched = sched at h
  induction sched generalizing s with
  | nil => exact absurd h (List.not_mem_nil)
  | cons a rest ih =>
    have hdraw := drawTurn_of_sched_cons hsched
    cases a with
    | consumer => exact ⟨0, by simp, by simp [drawn, hdraw]⟩
    | host =>
      have hrest : .consumer ∈ rest := by simpa using h
      obtain ⟨n, hn, hc⟩ := ih (s := { s with sched := rest }) rfl hrest
      exact ⟨n + 1, by simpa using hn, by simpa [drawn, hdraw] using hc⟩

/-- The consumer's offer comes after the pending offers and the next stretch of host offers at the latest. -/
theorem drawn_offers_consumer (s : State) :
    ∃ n ≤ s.sched.length + Config.hostBurst s.epoch, (drawTurn (drawn n s)).1 = .consumer := by
  generalize hsched : s.sched = sched
  induction sched generalizing s with
  | nil =>
    rcases drawTurn_cases s with ⟨a, rest, hcons, -⟩ | ⟨-, -, hdraw⟩ | ⟨k, -, hburst, hdraw⟩
    · exact absurd (hsched.symm.trans hcons) nofun
    · exact ⟨0, Nat.zero_le _, by simp [drawn, hdraw]⟩
    · obtain ⟨n, hn, hc⟩ := drawn_offers_pending_consumer (s := (drawTurn s).2) (by simp [hdraw])
      have hlt : n < k + 1 := by simpa [hdraw] using hn
      exact ⟨n + 1, by rw [hburst, List.length_nil]; omega, hc⟩
  | cons a rest ih =>
    have hdraw := drawTurn_of_sched_cons hsched
    cases a with
    | consumer => exact ⟨0, Nat.zero_le _, by simp [drawn, hdraw]⟩
    | host =>
      obtain ⟨n, hn, hc⟩ := ih { s with sched := rest } rfl
      exact ⟨n + 1, by simp only [List.length_cons]; simp only at hn; omega, by simpa [drawn, hdraw] using hc⟩

/-- From `s` to `t` nothing of the schedule was used up. -/
def SameSchedule (s t : State) : Prop := t.sched = s.sched ∧ t.epoch = s.epoch

theorem SameSchedule.offer (s : State) (e : Entry) : SameSchedule s (s.offer e) := by
  rcases s.offer_cases e with ⟨-, h⟩ | ⟨-, h⟩ <;> rw [h] <;> exact ⟨rfl, rfl⟩

theorem SameSchedule.fsmStep (s : State) (b : LineBit) : SameSchedule s (s.fsmStep b) := by
  simp [SameSchedule]

theorem SameSchedule.acceptWrite (s : State) (r : Reg) (v : Word) : SameSchedule s (s.acceptWrite r v) := by
  unfold State.acceptWrite
  split <;> simp [SameSchedule]

/-- No command reads the interleaving or writes it (R12). -/
theorem exec_sameSchedule {i : Instr} {s t : State} (h : exec i s = .next t) : SameSchedule s t := by
  cases i <;> cases h
  case cfgWr reg data =>
    split
    · exact ⟨rfl, rfl⟩
    · split
      · split
        · exact .acceptWrite s _ _
        · exact ⟨rfl, rfl⟩
      · exact ⟨rfl, rfl⟩
  case cfgRd reg => split <;> exact ⟨rfl, rfl⟩
  case slice payload => split <;> exact ⟨rfl, rfl⟩
  case sync => split <;> exact ⟨rfl, rfl⟩
  case rxBit bit => exact .fsmStep s bit
  case push payload => exact .offer s _
  case close => exact .offer s _
  all_goals exact ⟨rfl, rfl⟩

theorem consumerStep_sameSchedule {s t : State} (h : consumerStep s = some t) : SameSchedule s t := by
  obtain ⟨-, ⟨-, rfl⟩ | ⟨-, l, rest, -, rfl⟩ | ⟨-, rest, -, rfl⟩⟩ := consumerStep_cases h
  · simp [SameSchedule]
  · exact ⟨rfl, rfl⟩
  · exact ⟨rfl, rfl⟩

/-- A step of the run uses up its own draw and no other. -/
theorem step_sameSchedule {s t : State} (h : step s = .next t) : SameSchedule (drawTurn s).2 t := by
  rcases step_cases h with hc | ⟨f, i, u, -, -, hu, rfl⟩ | ⟨f, -, rfl⟩
  · exact consumerStep_sameSchedule hc
  · exact (exec_sameSchedule hu : SameSchedule (drawTurn s).2 u)
  · exact ⟨rfl, rfl⟩

theorem turn_consumer_of_enabled {s t : State} (h : consumerStep s = some t) : turn .consumer s = .next t := by
  simp [turn, h]

/-- Settles O58: the draws reach the consumer's offer, a step uses up one draw, and the consumer takes its offer. -/
theorem consumerIsOfferedStepsForever : Obligations.ConsumerIsOfferedStepsForever := by
  refine ⟨drawn_offers_consumer, fun s t => step_sameSchedule, fun s t hturn hc => ?_⟩
  rw [step, hturn, turn_consumer_of_enabled hc]

end Sys2Proof.Machine
end

section
/-! PROOFS. The encoding of 30_encoding.md: decoder and encoder are inverse to each other (R57, R68, R69), the decoder
rejects just the words with a reserved opcode or a reserved bit (R65, R66), such a word raises ERR_ILL and does nothing
else, and CFG.TONE's four writes are accepted (R72). -/

namespace Sys2Proof

open Sys2Proof.Machine Sys2Proof.Spec

/-! ### R57, R68, R69: what is encoded is decoded -/

/-- Settles O1: the word asks for the payload that follows it, and its opcode selects the arm its fields came from. -/
theorem encodedCommandDecodesToItself : Obligations.EncodedCommandDecodesToItself :=
  fun _ i rest hwf => ⟨fetch_encode hwf rest, decode_encodeWord i⟩

/-- Settles O6: each of the words is the encoder's word of the command beside it. -/
theorem writtenOutWordsDecode : Obligations.WrittenOutWordsDecode :=
  ⟨decode_encodeWord .nop, decode_encodeWord (.cfgWr 2 30000), decode_encodeWord (.cfgRd 7),
    decode_encodeWord (.enc 0x65), decode_encodeWord (.dec 3), decode_encodeWord (.frame 0x45),
    decode_encodeWord (.txBit true), decode_encodeWord (.slice [1, 2]), decode_encodeWord (.rxBit false),
    decode_encodeWord .sync⟩

/-! ### R65, R66: the reserved bits -/

/-- Masking `n` with `k` ones from bit `lo` on leaves nothing just when those bits of `n` are 0. -/
theorem and_mask_eq_zero_iff (n lo k : Nat) : n &&& (2 ^ k - 1) * 2 ^ lo = 0 ↔ n / 2 ^ lo % 2 ^ k = 0 := by
  have hmask : n &&& (2 ^ k - 1) * 2 ^ lo = n / 2 ^ lo % 2 ^ k * 2 ^ lo := by
    rw [← Nat.and_two_pow_sub_one_eq_mod, ← Nat.shiftRight_eq_div_pow, ← Nat.shiftLeft_eq, ← Nat.shiftLeft_eq]
    apply Nat.eq_of_testBit_eq
    intro i
    by_cases h : lo ≤ i <;> simp [h, Bool.and_comm]
  rw [hmask, Nat.mul_eq_zero, or_iff_left (Nat.two_pow_pos lo).ne']

/-- The decoder's test of bits 27:`lo` as a mask on the word's value. -/
theorem bodyZeroFrom_eq_decide (lo : Nat) (w : Word) :
    bodyZeroFrom lo w = decide (w.toNat &&& (2 ^ (28 - lo) - 1) * 2 ^ lo = 0) := by
  rw [Bool.eq_iff_iff, bodyZeroFrom_iff, decide_eq_true_iff, and_mask_eq_zero_iff]

theorem dataField_beq_zero_eq_decide (w : Word) :
    (dataField w == 0) = decide (w.toNat &&& (2 ^ 24 - 1) * 2 ^ 0 = 0) := by
  rw [Bool.eq_iff_iff, decide_eq_true_iff, and_mask_eq_zero_iff, beq_iff_eq, BitVec.toNat_eq, dataField_toNat]
  simp

theorem ifReserved_eq_ok_iff {ok : Bool} {e : DecodeError} {i j : Instr} :
    ifReserved ok e i = .ok j ↔ ok = true ∧ i = j := by
  cases ok <;> simp [ifReserved]

theorem ifReserved_isError_iff {ok : Bool} {e : DecodeError} {i : Instr} :
    (∃ e', ifReserved ok e i = .error e') ↔ ok = false := by
  cases ok <;> simp [ifReserved]

/-- A word with OP 0xE or 0xF has no arm of its own (R66). -/
theorem decode_of_reservedOpcode {w : Word} (hop : 0xE ≤ w.toNat / 2 ^ 28) (payload : List SampleBits) :
    decode w payload = .error .reservedOpcode := by
  unfold decode
  rw [opField_toNat]
  split
  case h_15 => rfl
  all_goals omega

/-- Each opcode from 0x0 to 0xD has an arm that accepts just the words in which the bits that R57 reserves are 0. Arm
`h_n` is that of opcode `n - 1`. CFG.WR reserves no bit, CFG.RD its data field, and the others every bit above their
field. -/
theorem decode_eq_ifReserved {w : Word} (hop : w.toNat / 2 ^ 28 ≤ 0xD) (payload : List SampleBits) :
    ∃ e i, decode w payload = ifReserved (decide (w.toNat &&& reservedBits (w.toNat / 2 ^ 28) = 0)) e i := by
  unfold decode
  rw [opField_toNat]
  split
  case h_2 h =>
    refine ⟨.reservedBits, .cfgWr (regField w) (dataField w), ?_⟩
    simp only [h, reservedBits, Nat.and_zero]
    rfl
  case h_3 h => exact ⟨_, _, by rw [h, dataField_beq_zero_eq_decide]; rfl⟩
  case h_15 => interval_cases w.toNat / 2 ^ 28 <;> contradiction
  all_goals
    rename_i h
    exact ⟨_, _, by rw [h, bodyZeroFrom_eq_decide]; rfl⟩

/-- Settles O3: an opcode from 0xE on has no arm, and every other arm tests its reserved bits. -/
theorem decoderRejectsExactlyReservedWords : Obligations.DecoderRejectsExactlyReservedWords := by
  intro w payload
  by_cases hop : 0xE ≤ w.toNat / 2 ^ 28
  · exact iff_of_true ⟨_, decode_of_reservedOpcode hop payload⟩ (.inl hop)
  · obtain ⟨e, i, hdec⟩ := decode_eq_ifReserved (w := w) (by omega) payload
    rw [hdec, ifReserved_isError_iff, decide_eq_false_iff_not, or_iff_right hop]

/-! ### R57, R68: what is decoded is encoded -/

/-- A word is put together again from its opcode and its field, where the bits between them are 0 (R57). -/
theorem plainWord_of_fields {lo : Nat} (hlo : lo ≤ 28) {op : BitVec 4} {f : BitVec 24} {w : Word}
    (hop : w.toNat / 2 ^ 28 = op.toNat) (hbody : bodyZeroFrom lo w = true) (hf : f.toNat = w.toNat % 2 ^ lo) :
    plainWord op f = w := by
  have hlow : w.toNat % 2 ^ 28 = w.toNat % 2 ^ lo := by
    rw [← Nat.add_sub_cancel' hlo, pow_add, Nat.mod_mul, (bodyZeroFrom_iff lo w).mp hbody, mul_zero, add_zero]
  apply BitVec.eq_of_toNat_eq
  rw [plainWord_toNat, hf, ← hlow, ← hop, Nat.div_add_mod']

theorem regWord_of_fields {op : BitVec 4} {w : Word} (hop : w.toNat / 2 ^ 28 = op.toNat) :
    op ++ regField w ++ dataField w = w := by
  apply BitVec.eq_of_toNat_eq
  rw [regWord_toNat, regField_toNat, dataField_toNat]
  omega

section Fields

variable {op : BitVec 4} {w : Word} (hop : w.toNat / 2 ^ 28 = op.toNat)
include hop

theorem bareWord_of_fields (hbody : bodyZeroFrom 0 w = true) : plainWord op 0 = w :=
  plainWord_of_fields (by omega) hop hbody (Nat.mod_one _).symm

theorem charWord_of_fields (hbody : bodyZeroFrom 8 w = true) : plainWord op ((charField w).setWidth 24) = w :=
  plainWord_of_fields (by omega) hop hbody (by rw [BitVec.toNat_setWidth, charField_toNat]; omega)

theorem codeWord_of_fields (hbody : bodyZeroFrom 5 w = true) : plainWord op ((codeField w).setWidth 24) = w :=
  plainWord_of_fields (by omega) hop hbody (by rw [BitVec.toNat_setWidth, codeField_toNat]; omega)

theorem bitWord_of_fields (hbody : bodyZeroFrom 1 w = true) :
    plainWord op ((BitVec.ofBool (bitField w)).setWidth 24) = w := by
  refine plainWord_of_fields (by omega) hop hbody ?_
  rw [ofBool_setWidth_toNat, bitField_eq]
  rcases Nat.mod_two_eq_zero_or_one w.toNat with h | h <;> simp [h]

theorem lenWord_of_fields (hbody : bodyZeroFrom 24 w = true) {n : Nat} (hn : n = w.toNat % 2 ^ 24) :
    plainWord op (BitVec.ofNat 24 n) = w :=
  plainWord_of_fields (by omega) hop hbody (by rw [BitVec.toNat_ofNat, hn]; omega)

end Fields

/-- SLICE and PUSH words ask for `LEN` samples (R69). -/
theorem lenOf_of_lenWord {n : Nat} (h : n / 2 ^ 28 = 0x8 ∨ n / 2 ^ 28 = 0xA) : lenOf n = n % 2 ^ 24 := if_pos h

/-- The words of every other opcode ask for none (R69). -/
theorem lenOf_of_otherWord {n : Nat} (h8 : n / 2 ^ 28 ≠ 0x8) (hA : n / 2 ^ 28 ≠ 0xA) : lenOf n = 0 :=
  if_neg (not_or.mpr ⟨h8, hA⟩)

/-- Settles O2: in the arm of each opcode, the fields the decoder reads, with the reserved bits 0 between them, make
up the whole word. Arm `h_n` of the decoder is that of opcode `n - 1`. -/
theorem decodedWordEncodesBack : Obligations.DecodedWordEncodesBack := by
  intro w payload i hlen hdec
  have hnil (h8 : w.toNat / 2 ^ 28 ≠ 0x8) (hA : w.toNat / 2 ^ 28 ≠ 0xA) : [] = payload :=
    (List.eq_nil_of_length_eq_zero (hlen.trans (lenOf_of_otherWord h8 hA))).symm
  unfold decode at hdec
  rw [opField_toNat] at hdec
  split at hdec
  case h_2 hop =>
    cases hdec
    exact ⟨regWord_of_fields hop, hnil (by omega) (by omega)⟩
  case h_15 => exact absurd hdec nofun
  all_goals
    rename_i hop
    obtain ⟨hbody, rfl⟩ := ifReserved_eq_ok_iff.mp hdec
  case h_3 =>
    refine ⟨?_, hnil (by omega) (by omega)⟩
    have hword := regWord_of_fields (op := 0x2) hop
    rwa [beq_iff_eq.mp hbody] at hword
  case h_4 | h_6 | h_8 => exact ⟨charWord_of_fields hop hbody, hnil (by omega) (by omega)⟩
  case h_5 => exact ⟨codeWord_of_fields hop hbody, hnil (by omega) (by omega)⟩
  case h_7 | h_10 => exact ⟨bitWord_of_fields hop hbody, hnil (by omega) (by omega)⟩
  case h_9 => exact ⟨lenWord_of_fields hop hbody (hlen.trans (lenOf_of_lenWord (.inl hop))), rfl⟩
  case h_11 => exact ⟨lenWord_of_fields hop hbody (hlen.trans (lenOf_of_lenWord (.inr hop))), rfl⟩
  case h_1 | h_12 | h_13 | h_14 => exact ⟨bareWord_of_fields hop hbody, hnil (by omega) (by omega)⟩

end Sys2Proof

namespace Sys2Proof.Machine

open Sys2Proof.Spec

/-! ### R65, R66: an illegal word raises ERR_ILL and has no other effect -/

/-- The payload that a word asks for, by `OP` and `LEN` alone (R65, R69). -/
theorem payloadLen_eq_lenOf (w : Word) : payloadLen w = lenOf w.toNat := by
  simp only [payloadLen, lenOf, BitVec.toNat_eq, opField_toNat, dataField_toNat]
  rfl

/-- The host, offered the step, takes an illegal word with the payload it asks for, and the word raises ERR_ILL. -/
theorem step_of_illegal {s : State} {sched : List Agent} {w : Word} {payload : List SampleBits} {rest : List Item}
    {e : DecodeError} (hsched : s.sched = .host :: sched)
    (hstream : s.stream = .word w :: (payload.map .sample ++ rest)) (hlen : payload.length = lenOf w.toNat)
    (hdec : decode w payload = .error e) :
    step s = .next { s with sched := sched, stream := rest, faults := s.faults ||| 1#4, pc := s.pc + 1 } := by
  let f : Fetched := ⟨w, payload, rest⟩
  have hfetch : fetch s.stream = some f := fetch_eq_some.mpr ⟨hlen.trans (payloadLen_eq_lenOf w).symm, hstream⟩
  have hwaits : f.waits = false := by simp [Fetched.waits, f, hdec]
  have hready : hostReady { s with sched := sched } = some f := hostReady_eq_some.mpr ⟨hfetch, .inl hwaits⟩
  rw [step, drawTurn_of_sched_cons hsched, turn_host_of_ready hready]
  rcases hostStep_cases f { s with sched := sched } with ⟨i, t, hi, -, -⟩ | ⟨e', -, hstep⟩
  · exact absurd (hi.symm.trans hdec) nofun
  · exact hstep

/-- Settles O4: such a word asks for no payload, and the decoder rejects it. -/
theorem reservedOpcodeRaisesErrIll : Obligations.ReservedOpcodeRaisesErrIll := by
  intro s sched w rest hsched hstream hop
  have hlen : lenOf w.toNat = 0 := lenOf_of_otherWord (by omega) (by omega)
  exact step_of_illegal (payload := []) hsched hstream hlen.symm (decode_of_reservedOpcode hop [])

/-- Settles O5: the decoder rejects the word, whose payload is fetched with it. -/
theorem reservedBitRaisesErrIll : Obligations.ReservedBitRaisesErrIll := by
  intro s sched w payload rest hsched hstream hlen _ hbits
  obtain ⟨e, hdec⟩ := (decoderRejectsExactlyReservedWords w payload).mpr (.inr hbits)
  exact step_of_illegal hsched hstream hlen hdec

/-! ### R72: CFG.TONE's writes -/

@[simp] theorem writeValue_toNat (data : BitVec 24) : (writeValue data).toNat = data.toNat := by
  rw [writeValue, BitVec.toNat_setWidth, Nat.mod_eq_of_lt (by omega)]

/-- A write of a legal value to a read-write register is accepted (R142). -/
theorem exec_cfgWr_accepted {reg : BitVec 4} {r : Reg} (h : Reg.ofIndex reg = some r) (hw : r.writable = true)
    {data : BitVec 24} {s : State} (hv : s.legalValue r (writeValue data) = true) :
    exec (.cfgWr reg data) s = .next (s.acceptWrite r (writeValue data)) := by
  rw [exec_cfgWr_register h, if_pos hw, if_pos hv]

section AcceptWrite

variable (s : State) (r : Reg) (v : Word)

/-- An accepted write sets its register, flushes the receive state or not (R147), and advances `pc`. -/
theorem State.acceptWrite_cases :
    s.acceptWrite r v = (s.writeReg r v).advance ∨ s.acceptWrite r v = (s.writeReg r v).flushRx.advance := by
  unfold State.acceptWrite
  split
  · exact .inr rfl
  · exact .inl rfl

@[simp] theorem State.acceptWrite_cfg : (s.acceptWrite r v).cfg = s.cfg := by
  rcases s.acceptWrite_cases r v with h | h <;> simp [h]
@[simp] theorem State.acceptWrite_faults : (s.acceptWrite r v).faults = s.faults := by
  rcases s.acceptWrite_cases r v with h | h <;> simp [h]
@[simp] theorem State.acceptWrite_mark : (s.acceptWrite r v).mark = (s.writeReg r v).mark := by
  rcases s.acceptWrite_cases r v with h | h <;> simp [h]
@[simp] theorem State.acceptWrite_shift : (s.acceptWrite r v).shift = (s.writeReg r v).shift := by
  rcases s.acceptWrite_cases r v with h | h <;> simp [h]
@[simp] theorem State.acceptWrite_baud : (s.acceptWrite r v).baud = (s.writeReg r v).baud := by
  rcases s.acceptWrite_cases r v with h | h <;> simp [h]

@[simp] theorem State.writeReg_mark_mark : (s.writeReg .mark v).mark = v.setWidth 16 := rfl
@[simp] theorem State.writeReg_mark_shift : (s.writeReg .mark v).shift = s.shift := rfl
@[simp] theorem State.writeReg_shift_mark : (s.writeReg .shift v).mark = s.mark := rfl
@[simp] theorem State.writeReg_shift_shift : (s.writeReg .shift v).shift = v.setWidth 16 := rfl
@[simp] theorem State.writeReg_baud_mark : (s.writeReg .baud v).mark = s.mark := rfl
@[simp] theorem State.writeReg_baud_shift : (s.writeReg .baud v).shift = s.shift := rfl
@[simp] theorem State.writeReg_baud_baud : (s.writeReg .baud v).baud = v.setWidth 16 := rfl

end AcceptWrite

theorem writeValue_setWidth_toNat {data : BitVec 24} (h : data.toNat ≤ 65535) :
    ((writeValue data).setWidth 16).toNat = data.toNat := by
  rw [toNat_setWidth_of_lt (by rw [writeValue_toNat]; omega), writeValue_toNat]

/-- Settles O46: the shift of 50 is below the old MARK, since the old SHIFT is, and below the new one; so each of the
four values is legal where it is written. -/
theorem cfgToneWritesAreAccepted : Obligations.CfgToneWritesAreAccepted := by
  intro s m sh b hinv hmLo hmHi hshLo hshHi hsh hbLo hbHi hbFs
  have hmark : 50 < s.mark.toNat := hinv.shift_range.1.trans_lt hinv.shift_lt_mark
  have hm := writeValue_setWidth_toNat hmHi
  have hshift := writeValue_setWidth_toNat (data := sh) (by omega)
  have hb := writeValue_setWidth_toNat hbHi
  have h50 : ((writeValue 50).setWidth 16).toNat = 50 := writeValue_setWidth_toNat (by decide)
  refine ⟨_, _, _, _, rfl,
    exec_cfgWr_accepted (r := .shift) rfl rfl ?_, exec_cfgWr_accepted (r := .mark) rfl rfl ?_,
    exec_cfgWr_accepted (r := .shift) rfl rfl ?_, exec_cfgWr_accepted (r := .baud) rfl rfl ?_, ?_⟩
  · simpa [State.legalValue] using hmark
  · simpa [State.legalValue] using ⟨hmLo, hmHi⟩
  · simpa [State.legalValue, hm] using ⟨hshLo, hshHi, hsh⟩
  · simpa [State.legalValue] using ⟨hbLo, hbHi, hbFs⟩
  · simp [hm, hshift, hb]

end Sys2Proof.Machine
end

section
/-! PROOFS. The codec of 40_codec.md: in a legal table the two lookups find exactly the table's pairs (R76), from which
follow what ENC and DEC answer (R78, R80), the fallback flag (R79) and the laws of the round trip (R81). -/

namespace Sys2Proof

/-! ### R75: the alphabet -/

theorem alphabet_nodup : alphabet.Nodup := by decide

/-- `'?'` is no symbol, so the decoder's sentinel stands for no other character. -/
theorem sentinel_notMem_alphabet : 0x3F#8 ∉ alphabet := by decide

/-! ### R76: what a legal table holds -/

/-- The properties of R76 as propositions: the symbols cover the alphabet in as many pairs, no two pairs share a code,
and code 0 is in no pair. -/
theorem BaudotTable.legal_iff {t : BaudotTable} :
    t.legal = true ↔
      t.length = 27 ∧ alphabet ⊆ t.map (·.1) ∧ (t.map (·.2)).Nodup ∧ ∀ e ∈ t, e.2 ≠ 0#5 := by
  simp [BaudotTable.legal, List.subset_def, and_assoc]

section LegalTable

variable {t : BaudotTable}

/-- The table's symbols are the alphabet: 27 of them cover the 27 of the alphabet, so none is left over or twice. -/
theorem BaudotTable.alphabet_perm_symbols (h : t.legal = true) : alphabet.Perm (t.map (·.1)) := by
  obtain ⟨hlen, hcover, -, -⟩ := legal_iff.mp h
  exact (alphabet_nodup.subperm hcover).perm_of_length_le (by rw [List.length_map, hlen]; rfl)

theorem BaudotTable.symbols_nodup (h : t.legal = true) : (t.map (·.1)).Nodup :=
  (alphabet_perm_symbols h).nodup_iff.mp alphabet_nodup

theorem BaudotTable.codes_nodup (h : t.legal = true) : (t.map (·.2)).Nodup := by
  obtain ⟨-, -, hcodes, -⟩ := legal_iff.mp h
  exact hcodes

theorem BaudotTable.mem_alphabet_iff (h : t.legal = true) {u : Char8} : u ∈ alphabet ↔ ∃ k, (u, k) ∈ t := by
  rw [(alphabet_perm_symbols h).mem_iff]
  simp

theorem BaudotTable.notMem_alphabet_iff (h : t.legal = true) {u : Char8} : u ∉ alphabet ↔ ∀ k, (u, k) ∉ t := by
  rw [mem_alphabet_iff h, not_exists]

theorem BaudotTable.code_ne_zero (h : t.legal = true) {u : Char8} {k : Code} (hmem : (u, k) ∈ t) : k ≠ 0#5 := by
  obtain ⟨-, -, -, hzero⟩ := legal_iff.mp h
  exact hzero _ hmem

end LegalTable

end Sys2Proof

namespace Sys2Proof.Machine

/-! ### R76: the lookups of the ROM -/

/-- Where no two elements share a key, the search for a key finds exactly the element that has it. -/
theorem find?_key_eq_some_iff {α β : Type} [BEq β] [LawfulBEq β] {f : α → β} {l : List α} (h : (l.map f).Nodup)
    {b : β} {a : α} : l.find? (fun x => f x == b) = some a ↔ a ∈ l ∧ f a = b := by
  refine ⟨fun hfind => ⟨List.mem_of_find?_eq_some hfind, by simpa using List.find?_some hfind⟩, ?_⟩
  rintro ⟨ha, rfl⟩
  obtain ⟨a', hfind⟩ : ∃ a', l.find? (fun x => f x == f a) = some a' :=
    Option.isSome_iff_exists.mp (List.find?_isSome.mpr ⟨a, ha, by simp⟩)
  have hkey : f a' = f a := by simpa using List.find?_some hfind
  rwa [List.inj_on_of_nodup_map h (List.mem_of_find?_eq_some hfind) ha hkey] at hfind

section LegalTable

variable {t : BaudotTable} (h : t.legal = true)
include h

/-- The encode ROM holds just the table's pairs, since no symbol is in two of them. -/
theorem romCode_eq_some_iff {u : Char8} {k : Code} : romCode t u = some k ↔ (u, k) ∈ t := by
  simp [romCode, find?_key_eq_some_iff (BaudotTable.symbols_nodup h)]

/-- The decode ROM holds just the table's pairs, since no code is in two of them. -/
theorem romSymbol_eq_some_iff {u : Char8} {k : Code} : romSymbol t k = some u ↔ (u, k) ∈ t := by
  simp [romSymbol, find?_key_eq_some_iff (BaudotTable.codes_nodup h)]

/-! ### R78, R80: the two ROM functions -/

theorem encRom_of_mem {c : Char8} {k : Code} (hmem : (foldCase c, k) ∈ t) : encRom t c = (k, false) := by
  rw [encRom, (romCode_eq_some_iff h).mpr hmem]

theorem encRom_of_notMem_alphabet {c : Char8} (hc : foldCase c ∉ alphabet) : encRom t c = (0#5, true) := by
  have hnone : romCode t (foldCase c) = none := Option.eq_none_iff_forall_ne_some.mpr fun k hk =>
    (BaudotTable.notMem_alphabet_iff h).mp hc k ((romCode_eq_some_iff h).mp hk)
  rw [encRom, hnone]

theorem decRom_of_mem {c : Char8} {k : Code} (hmem : (c, k) ∈ t) : decRom t k = (c, false) := by
  rw [decRom, (romSymbol_eq_some_iff h).mpr hmem]

theorem decRom_of_notMem {k : Code} (hk : ∀ c, (c, k) ∉ t) : decRom t k = (0x3F#8, true) := by
  have hnone : romSymbol t k = none := Option.eq_none_iff_forall_ne_some.mpr fun c hc =>
    hk c ((romSymbol_eq_some_iff h).mp hc)
  rw [decRom, hnone]

/-- The two things `enc` can answer: the code of a symbol, or the fallback code for a character that is none. -/
theorem encRom_cases (c : Char8) :
    (foldCase c ∈ alphabet ∧ ∃ k, (foldCase c, k) ∈ t ∧ encRom t c = (k, false)) ∨
    (foldCase c ∉ alphabet ∧ encRom t c = (0#5, true)) := by
  by_cases hc : foldCase c ∈ alphabet
  · obtain ⟨k, hk⟩ := (BaudotTable.mem_alphabet_iff h).mp hc
    exact .inl ⟨hc, k, hk, encRom_of_mem h hk⟩
  · exact .inr ⟨hc, encRom_of_notMem_alphabet h hc⟩

/-- The two things `dec` can answer: the symbol of an assigned code, or the sentinel (R80). -/
theorem decRom_cases (k : Code) :
    (∃ c ∈ alphabet, (c, k) ∈ t ∧ decRom t k = (c, false)) ∨
    ((∀ c, (c, k) ∉ t) ∧ decRom t k = (0x3F#8, true)) := by
  by_cases hk : ∃ c, (c, k) ∈ t
  · obtain ⟨c, hc⟩ := hk
    exact .inl ⟨c, (BaudotTable.mem_alphabet_iff h).mpr ⟨k, hc⟩, hc, decRom_of_mem h hc⟩
  · have hfree := not_exists.mp hk
    exact .inr ⟨hfree, decRom_of_notMem h hfree⟩

/-- Code 0 is unassigned, so it decodes to the sentinel (R76, R81). -/
theorem decRom_zero : decRom t 0 = (0x3F#8, true) :=
  decRom_of_notMem h fun _ hmem => BaudotTable.code_ne_zero h hmem rfl

/-- `UNK` marks the sentinel: `'?'` is no symbol of the alphabet (R75, R80). -/
theorem decRom_unk_iff (k : Code) : (decRom t k).2 = true ↔ (decRom t k).1 = 0x3F#8 := by
  rcases decRom_cases h k with ⟨c, hc, -, hdec⟩ | ⟨-, hdec⟩
  · simpa [hdec] using fun hq : c = 0x3F#8 => sentinel_notMem_alphabet (hq ▸ hc)
  · simp [hdec]

end LegalTable

/-! ### R78: the folding as arithmetic -/

theorem foldCase_eq_ofNat (c : Char8) :
    foldCase c = BitVec.ofNat 8 (if 0x61 ≤ c.toNat ∧ c.toNat ≤ 0x7A then c.toNat - 0x20 else c.toNat) := by
  unfold foldCase
  simp only [BitVec.le_def, BitVec.reduceToNat]
  split
  · bv_omega
  · simp

/-! ### R82, R83: the response words and the commands that send them -/

/-- The flag of ENC's and DEC's responses stands just above the eight bits of the field. -/
theorem flagged_toNat {n : Nat} (hn : n ≤ 8) (b : Bool) (x : BitVec n) :
    (flagWord b <<< 8 ||| x.setWidth 32).toNat = 2 ^ 8 * b.toNat + x.toNat := by
  have hx : x.toNat < 2 ^ 8 := x.isLt.trans_le (Nat.pow_le_pow_right (by decide) hn)
  have hflag : (flagWord b <<< 8).toNat = b.toNat <<< 8 := by cases b <;> rfl
  have hfield : (x.setWidth 32).toNat = x.toNat := by
    rw [BitVec.toNat_setWidth, Nat.mod_eq_of_lt (by omega)]
  rw [BitVec.toNat_or, hflag, hfield, ← Nat.shiftLeft_add_eq_or_of_lt hx, Nat.shiftLeft_eq, Nat.mul_comm]

theorem encWord_toNat (r : Code × Bool) : (encWord r).toNat = 2 ^ 8 * r.2.toNat + r.1.toNat :=
  flagged_toNat (by decide) r.2 r.1

theorem decWord_toNat (r : Char8 × Bool) : (decWord r).toNat = 2 ^ 8 * r.2.toNat + r.1.toNat :=
  flagged_toNat le_rfl r.2 r.1

@[simp] theorem decWord_setWidth_eight (r : Char8 × Bool) : (decWord r).setWidth 8 = r.1 := by
  apply BitVec.eq_of_toNat_eq
  rw [BitVec.toNat_setWidth, decWord_toNat, Nat.mul_add_mod, Nat.mod_eq_of_lt r.1.isLt]

@[simp] theorem decWord_getElem_eight (r : Char8 × Bool) : (decWord r)[8] = r.2 := by
  simp [decWord, flagWord]

theorem exec_enc (c : Char8) (s : State) :
    exec (.enc c) s = .next { s with rsp := s.rsp ++ [encWord (encRom s.cfg.table c)], pc := s.pc + 1 } := rfl

theorem exec_dec (k : Code) (s : State) :
    exec (.dec k) s = .next { s with rsp := s.rsp ++ [decWord (decRom s.cfg.table k)], pc := s.pc + 1 } := rfl

/-! ### The statements of 40_codec.md -/

/-- Settles O9: the word carries what the encode ROM answers for the folded character. -/
theorem encAnswersTableCode : Obligations.EncAnswersTableCode := by
  intro s c h
  refine ⟨_, exec_enc c s, ?_⟩
  simp only [← foldCase_eq_ofNat]
  refine ⟨fun k hmem => ?_, fun hnone => ?_⟩
  · simp [encRom_of_mem h hmem, encWord_toNat]
  · have hc := (BaudotTable.notMem_alphabet_iff h).mpr hnone
    simp [encRom_of_notMem_alphabet h hc, encWord_toNat]

/-- Settles O10: the word carries what the decode ROM answers, and `UNK` marks the sentinel. -/
theorem decAnswersTableSymbol : Obligations.DecAnswersTableSymbol := by
  intro s k h
  refine ⟨_, exec_dec k s, fun c hmem => ?_, fun hnone => ?_, ?_⟩
  · simp [decRom_of_mem h hmem, decWord_toNat]
  · simp [decRom_of_notMem h hnone, decWord_toNat]
  · simpa using decRom_unk_iff h k

/-- Settles O11: the pair that encodes a symbol is the pair that decodes its code. -/
theorem codecRoundTrip : Obligations.CodecRoundTrip := by
  intro t h
  refine ⟨?_, fun c hc => ?_, encRom_of_notMem_alphabet h sentinel_notMem_alphabet, decRom_zero h⟩
  · rintro _ hc c rfl
    obtain ⟨k, hmem⟩ := (BaudotTable.mem_alphabet_iff h).mp hc
    rw [encRom_of_mem h hmem]
    exact decRom_of_mem h hmem
  · have henc := encRom_of_notMem_alphabet h hc
    exact ⟨henc, by rw [henc]; exact decRom_zero h⟩

/-- Settles O12: a symbol's code is assigned, hence not 0, and the fallback code is 0. -/
theorem fallbackFlagMarksCodeZero : Obligations.FallbackFlagMarksCodeZero := by
  intro t c h
  rcases encRom_cases h c with ⟨hc, k, hmem, henc⟩ | ⟨hc, henc⟩
  · simp [henc, hc, BaudotTable.code_ne_zero h hmem]
  · simp [henc, hc]

/-- Settles O13: the table of R77 is a literal, so its legality and its 32 codes are finite facts. -/
theorem defaultTableIsLegal : Obligations.DefaultTableIsLegal :=
  ⟨rfl, by decide, by decide⟩

end Sys2Proof.Machine
end

section
/-! PROOFS. The frame encoder of 41_frame_encoder.md: what a frame holds (R85, R86), the bits of the frame word (R87,
R88), and the receiver of 44_frame_recovery.md on the frame's bits (R117 to R119), which recovers the character. -/

namespace Sys2Proof.Machine

open Sys2Proof.Spec

/-! ### R85: the frame -/

theorem buildFrame_fst (t : BaudotTable) (c : Char8) (stops : Nat) :
    (buildFrame t c stops).1 =
      LineBit.space :: ((List.range 5).map (encRom t c).1.getLsbD ++ List.replicate stops LineBit.mark) := rfl

@[simp] theorem buildFrame_snd (t : BaudotTable) (c : Char8) (stops : Nat) :
    (buildFrame t c stops).2 = (encRom t c).2 := rfl

@[simp] theorem length_buildFrame (t : BaudotTable) (c : Char8) (stops : Nat) :
    (buildFrame t c stops).1.length = 6 + stops := by
  simp only [buildFrame_fst, List.length_cons, List.length_append, List.length_map, List.length_range,
    List.length_replicate]
  omega

/-- Settles O15: the start bit and the code bits are the first six elements, and what follows are the stop bits. -/
theorem frameLength : Obligations.FrameLength := by
  intro t c stops
  simp only [length_buildFrame]
  exact ⟨trivial, by omega, trivial, rfl, rfl, rfl⟩

/-- The position of a bit says whether it is the start bit, a code bit, a stop bit or past the frame's end. -/
theorem buildFrame_getD (t : BaudotTable) (c : Char8) (stops i : Nat) :
    (buildFrame t c stops).1.getD i false =
      ((decide (1 ≤ i ∧ i ≤ 5) && (encRom t c).1.getLsbD (i - 1)) || decide (6 ≤ i ∧ i < 6 + stops)) := by
  rw [buildFrame_fst]
  rcases i with _ | i
  · rfl
  rcases Nat.lt_or_ge i 5 with hi | hi
  · simp [List.getElem?_append_left, hi, show i + 1 ≤ 5 by omega]
  · have hpos : 6 ≤ i + 1 ∧ i + 1 < 6 + stops ↔ i - 5 < stops := by omega
    have hstop : (List.replicate stops LineBit.mark).getD (i - 5) false =
        decide (6 ≤ i + 1 ∧ i + 1 < 6 + stops) := by
      simp only [hpos]
      by_cases h : i - 5 < stops <;> simp [h]
    rw [List.getD_cons_succ, List.getD_append_right _ _ _ _ (by simpa using hi), List.length_map, List.length_range,
      hstop]
    simp [show ¬ i + 1 ≤ 5 by omega]

/-! ### R87, R88: the frame word -/

theorem bitsValue_testBit (bits : List LineBit) (i : Nat) : (bitsValue bits).testBit i = bits.getD i false := by
  induction bits generalizing i with
  | nil => simp [bitsValue]
  | cons b bs ih =>
    have hcons : bitsValue (b :: bs) = Nat.bit b (bitsValue bs) := by
      rw [bitsValue, Nat.bit_val]
      omega
    cases i with
    | zero => simp [hcons]
    | succ i => rw [hcons, Nat.testBit_bit_succ, ih, List.getD_cons_succ]

@[simp] theorem flagWord_getLsbD (b : Bool) (i : Nat) : (flagWord b).getLsbD i = (decide (i = 0) && b) := by
  rcases i with _ | i <;> simp [flagWord]

/-- The three fields of a frame word, for a frame that ends below the length field. -/
theorem frameWord_getLsbD {r : List LineBit × Bool} (hlen : r.1.length < 16) (i : Nat) :
    (frameWord r).getLsbD i =
      (r.1.getD i false || (decide (16 ≤ i ∧ i < 20) && r.1.length.testBit (i - 16)) || (decide (i = 24) && r.2)) := by
  have hbits : 16 ≤ i → r.1.getD i false = false := fun h => List.getD_eq_default _ _ (by omega)
  have hfield : 20 ≤ i → r.1.length.testBit (i - 16) = false := fun h =>
    Nat.testBit_lt_two_pow (hlen.trans_le (Nat.pow_le_pow_right Nat.two_pos (show 4 ≤ i - 16 by omega)))
  have hflag : (decide (i < 32) && !decide (i < 24) && decide (i - 24 = 0)) = decide (i = 24) := by
    grind
  simp only [frameWord, BitVec.getLsbD_or, BitVec.getLsbD_shiftLeft, BitVec.getLsbD_ofNat, flagWord_getLsbD,
    bitsValue_testBit]
  rw [← Bool.and_assoc, hflag]
  rcases Nat.lt_or_ge i 16 with hi | hi
  · simp [hi, hi.not_ge, show i < 32 by omega, Bool.or_comm]
  rw [hbits hi]
  rcases Nat.lt_or_ge i 20 with hi' | hi'
  · simp [hi, hi', hi.not_gt, show i < 32 by omega, show i - 16 < 32 by omega, Bool.or_comm]
  · simp [hfield hi']

theorem exec_frame (c : Char8) (s : State) :
    exec (.frame c) s =
      .next { s with
        rsp := s.rsp ++ [frameWord (buildFrame s.cfg.table c s.stopb.toNat)]
        pc := s.pc + 1 } := rfl

/-- Settles O14: three stop-count bits keep the frame's length below 16, so the fields of its word stand apart. -/
theorem frameAnswersFrameWord : Obligations.FrameAnswersFrameWord := by
  intro s c
  have hlen : (buildFrame s.cfg.table c s.stopb.toNat).1.length < 16 := by
    have := s.stopb.isLt
    rw [length_buildFrame]
    omega
  refine ⟨_, exec_frame c s, fun i => ?_⟩
  rw [frameWord_getLsbD hlen, buildFrame_getD, length_buildFrame, buildFrame_snd]

/-! ### R117 to R119: the receiver's arms on a frame without error -/

section Arms
variable {s : State}

theorem State.fsmStep_idle_mark (h : s.fsm = .idle) : s.fsmStep LineBit.mark = s := by
  simpa [h] using s.fsmStep_cases LineBit.mark

theorem State.fsmStep_idle_space (h : s.fsm = .idle) :
    s.fsmStep LineBit.space = { s with fsm := .collectingData, acc := 0, count := 0 } := by
  simpa [h] using s.fsmStep_cases LineBit.space

theorem State.fsmStep_collecting (h : s.fsm = .collectingData) (b : LineBit) :
    s.fsmStep b = { s with
      acc := s.acc ||| ((BitVec.ofBool b).setWidth 5 <<< s.count.toNat)
      count := s.count + 1
      fsm := if s.count + 1 = 5 then .awaitingStop else .collectingData } := by
  simpa [h] using s.fsmStep_cases b

theorem State.fsmStep_awaiting_mark (h : s.fsm = .awaitingStop) :
    s.fsmStep LineBit.mark = { s with rx := s.rx ++ [decRom s.cfg.table s.acc], fsm := .idle } := by
  simpa [h] using s.fsmStep_cases LineBit.mark

end Arms

/-! ### R118, R124: the receiver on the bits of a frame -/

@[simp] theorem feed_cons (b : LineBit) (bits : List LineBit) (s : State) :
    feed (b :: bits) s = feed bits (s.fsmStep b) := rfl

@[simp] theorem feed_append (bits bits' : List LineBit) (s : State) :
    feed (bits ++ bits') s = feed bits' (feed bits s) := List.foldl_append

/-- Idle tone of any length leaves an idle receiver alone. -/
theorem feed_replicate_mark {s : State} (h : s.fsm = .idle) (n : Nat) :
    feed (List.replicate n LineBit.mark) s = s := by
  induction n with
  | zero => rfl
  | succ n ih => rw [List.replicate_succ, feed_cons, State.fsmStep_idle_mark h, ih]

/-- The receiver with the `n` low bits of the code `k` in its accumulator. -/
def State.collected (k : Code) (n : Nat) (s : State) : State :=
  { s with
    fsm := if n = 5 then .awaitingStop else .collectingData
    acc := (k.setWidth n).setWidth 5
    count := BitVec.ofNat 3 n }

theorem State.collected_zero (k : Code) (s : State) :
    s.collected k 0 = { s with fsm := .collectingData, acc := 0, count := 0 } := by
  simp [State.collected, BitVec.of_length_zero]

theorem State.collected_five (k : Code) (s : State) :
    s.collected k 5 = { s with fsm := .awaitingStop, acc := k, count := 5 } := by
  simp [State.collected]

/-- The bit that `collecting-data` places extends the bits collected so far by one. -/
theorem setWidth_or_next_bit (k : Code) (n : Nat) :
    (k.setWidth n).setWidth 5 ||| ((BitVec.ofBool (k.getLsbD n)).setWidth 5 <<< n) =
      (k.setWidth (n + 1)).setWidth 5 := by
  ext i hi
  rcases lt_trichotomy i n with h | rfl | h
  · simp [h, h.le]
  · simp
  · simp [h.not_ge, h.not_gt, show i - n ≠ 0 by omega]

theorem State.fsmStep_collected (k : Code) {n : Nat} (hn : n < 5) (s : State) :
    (s.collected k n).fsmStep (k.getLsbD n) = s.collected k (n + 1) := by
  have hcount : (BitVec.ofNat 3 n).toNat = n := Nat.mod_eq_of_lt (by omega)
  have hnext : BitVec.ofNat 3 n + 1 = BitVec.ofNat 3 (n + 1) := (BitVec.ofNat_add n 1).symm
  have hfull : BitVec.ofNat 3 (n + 1) = (5 : BitVec 3) ↔ n + 1 = 5 := by bv_omega
  rw [State.fsmStep_collecting (by simp [State.collected, hn.ne])]
  simp only [State.collected, hcount, hnext, hfull, setWidth_or_next_bit]

theorem feed_codeBits (k : Code) {n : Nat} (hn : n ≤ 5) (s : State) :
    feed ((List.range n).map k.getLsbD) (s.collected k 0) = s.collected k n := by
  induction n with
  | zero => rfl
  | succ n ih =>
    rw [List.range_succ, List.map_append, feed_append, ih (by omega)]
    exact s.fsmStep_collected k hn

/-- Settles O30: the start bit clears the accumulator, the code bits fill it, the first stop bit emits the character
and the others are idle tone. -/
theorem builtFrameIsRecovered : Obligations.BuiltFrameIsRecovered := by
  intro s c stops hidle hstops
  obtain ⟨n, rfl⟩ := Nat.exists_eq_add_of_le' hstops
  have hstart : s.fsmStep LineBit.space = s.collected (encRom s.cfg.table c).1 0 := by
    rw [State.fsmStep_idle_space hidle, State.collected_zero]
  rw [buildFrame_fst, feed_cons, hstart, feed_append, feed_codeBits _ le_rfl, State.collected_five,
    List.replicate_succ, feed_cons, State.fsmStep_awaiting_mark rfl, feed_replicate_mark rfl, hidle]

end Sys2Proof.Machine
end

section
/-! PROOFS. The tone synthesizer of 42_tone_synth.md: the samples of one bit and of a list of bits in both phase modes
(R93 to R95, R98 to R100), the range of a sample (R97), and the evaluated reference sample, which is the real-valued
one wherever it is decided (R96). -/

namespace Sys2Proof.Machine

open Sys2Proof.Spec

/-! ### R92, R93: the samples of one bit -/

/-- The samples of one bit that starts at the phase `q mod FS`, each with its phase as one remainder. -/
def State.bitSamples (s : State) (q : Nat) (b : LineBit) : List Sample :=
  (List.range (spbOf s)).map fun n => synth s.cfg s.volume.toNat ((q + n * freqOf s b) % s.cfg.fs)

theorem State.bitSamples_zero (s : State) :
    s.bitSamples 0 = fun b =>
      (List.range (spbOf s)).map fun n => synth s.cfg s.volume.toNat (n * freqOf s b % s.cfg.fs) :=
  funext fun b => by simp only [State.bitSamples, Nat.zero_add]

/-- The oscillator adds the frequency modulo `FS` at each sample, so that the phase at sample `i` is a remainder of one
sum, and no phase is rounded on the way. -/
theorem renderBit_mod (cfg : Params) (volume f n q : Nat) :
    renderBit cfg volume f n (q % cfg.fs) =
      ((List.range n).map (fun i => synth cfg volume ((q + i * f) % cfg.fs)), (q + n * f) % cfg.fs) := by
  induction n generalizing q with
  | zero => simp [renderBit]
  | succ n ih =>
    have hshift (i : Nat) : q + f + i * f = q + (i + 1) * f := by ring
    simp only [renderBit, Nat.mod_add_mod, ih, hshift, List.range_succ_eq_map, List.map_cons, List.map_map,
      Function.comp_def, Nat.zero_mul, Nat.add_zero]

theorem renderBit_tone (s : State) (b : LineBit) (q : Nat) :
    renderBit s.cfg s.volume.toNat (s.toneFreq b) s.spb (q % s.cfg.fs) =
      (s.bitSamples q b, (q + spbOf s * freqOf s b) % s.cfg.fs) :=
  renderBit_mod s.cfg s.volume.toNat (s.toneFreq b) s.spb q

/-! ### R94: every bit from phase 0 -/

theorem renderBits_phaseReset {s : State} (h : s.phaseCont = false) (bits : List LineBit) (p : Nat) :
    (renderBits s bits p).1 = bits.flatMap (s.bitSamples 0) := by
  induction bits generalizing p with
  | nil => rfl
  | cons b bs ih =>
    have hbit := renderBit_tone s b 0
    rw [Nat.zero_mod] at hbit
    simp [renderBits, h, hbit, ih]

theorem render_phaseReset {s : State} (h : s.phaseCont = false) (bits : List LineBit) (p : Nat) :
    render s bits p = (bits.flatMap (s.bitSamples 0), 0) := by
  simp [render, h, renderBits_phaseReset h]

/-! ### R95, R100: the phase carried from bit to bit -/

/-- How far a list of bits advances the oscillator. -/
def State.toneAdvance (s : State) (bits : List LineBit) : Nat := (bits.map fun b => spbOf s * freqOf s b).sum

@[simp] theorem State.toneAdvance_nil (s : State) : s.toneAdvance [] = 0 := rfl

@[simp] theorem State.toneAdvance_cons (s : State) (b : LineBit) (bits : List LineBit) :
    s.toneAdvance (b :: bits) = spbOf s * freqOf s b + s.toneAdvance bits := List.sum_cons

/-- Bit number `i` starts where the bits before it have brought the oscillator. -/
theorem renderBits_phaseContinuous {s : State} (h : s.phaseCont = true) (bits : List LineBit) (q : Nat) :
    renderBits s bits (q % s.cfg.fs) =
      ((List.range bits.length).flatMap (fun i => s.bitSamples (q + s.toneAdvance (bits.take i)) (bits.getD i false)),
        (q + s.toneAdvance bits) % s.cfg.fs) := by
  induction bits generalizing q with
  | nil => rfl
  | cons b bs ih =>
    simp only [renderBits, h, if_true, renderBit_tone, ih, List.length_cons, List.range_succ_eq_map, List.flatMap_cons,
      List.flatMap_map, List.take_zero, List.take_succ_cons, List.getD_cons_zero, List.getD_cons_succ,
      State.toneAdvance_nil, State.toneAdvance_cons, Nat.add_zero, Nat.add_assoc]

theorem render_phaseContinuous {s : State} (h : s.phaseCont = true) (bits : List LineBit) {p : Nat}
    (hp : p < s.cfg.fs) :
    render s bits p =
      ((List.range bits.length).flatMap (fun i => s.bitSamples (p + s.toneAdvance (bits.take i)) (bits.getD i false)),
        (p + s.toneAdvance bits) % s.cfg.fs) := by
  have hbits := renderBits_phaseContinuous h bits p
  rw [Nat.mod_eq_of_lt hp] at hbits
  simp only [render, h, if_true, hbits]

/-! ### R98, R99: the two commands -/

/-- The whole effect of a transmission: the samples, the phase and `pc`. -/
theorem State.transmit_advance {s : State} {bits : List LineBit} {r : List Sample × Nat}
    (h : render s bits s.phase = r) :
    (s.transmit bits).advance = { s with tx := s.tx ++ r.1, phase := r.2, pc := s.pc + 1 } := by
  subst h
  rfl

theorem exec_txBit (b : LineBit) (s : State) : exec (.txBit b) s = .next (s.transmit [b]).advance := rfl

theorem exec_txChar (c : Char8) (s : State) :
    exec (.txChar c) s = .next (s.transmit (buildFrame s.cfg.table c s.stopb.toNat).1).advance := rfl

/-- Settles O16: one bit rendered from phase 0. -/
theorem txBitPhaseReset : Obligations.TxBitPhaseReset := by
  intro s b h
  rw [exec_txBit, State.transmit_advance (render_phaseReset h _ _), List.flatMap_singleton, State.bitSamples_zero]

/-- Settles O17: one bit rendered from `S.phase`. -/
theorem txBitPhaseContinuous : Obligations.TxBitPhaseContinuous := by
  intro s b h hphase
  rw [exec_txBit, State.transmit_advance (render_phaseContinuous h _ hphase)]
  simp [State.bitSamples]

/-- Settles O18: the bits of the frame rendered each from phase 0. -/
theorem txCharPhaseReset : Obligations.TxCharPhaseReset := by
  intro s c h
  rw [exec_txChar, State.transmit_advance (render_phaseReset h _ _), State.bitSamples_zero]

/-- Settles O19: the bits of the frame rendered from `S.phase` on, the phase carried from each to the next. -/
theorem txCharPhaseContinuous : Obligations.TxCharPhaseContinuous := by
  intro s c h hphase
  rw [exec_txChar, State.transmit_advance (render_phaseContinuous h _ hphase)]
  rfl

/-! ### R97: the range of a sample -/

theorem fullScale_cast {R : Type} [Ring R] (bits : Nat) : (fullScale bits : R) = 2 ^ (bits - 1) - 1 := by
  rw [fullScale, Nat.cast_sub Nat.one_le_two_pow]
  push_cast
  rfl

theorem clampSample_range (bits : Nat) (z : Int) :
    -(fullScale bits : Int) ≤ clampSample bits z ∧ clampSample bits z ≤ fullScale bits :=
  ⟨le_max_left _ _, max_le (neg_le_self (Int.natCast_nonneg _)) (min_le_left _ _)⟩

theorem clampSample_of_range {bits : Nat} {z : Int} (h : |z| ≤ fullScale bits) : clampSample bits z = z := by
  obtain ⟨hlo, hhi⟩ := abs_le.mp h
  rw [clampSample, min_eq_right hhi, max_eq_right hlo]

/-- Settles O20: whatever the realization answers, the sample is clamped. -/
theorem synthStaysInRange : Obligations.SynthStaysInRange := by
  intro p volume phase _
  rw [← fullScale_cast]
  exact clampSample_range _ _

/-! ### R8: rounding half away from zero -/

theorem roundHalfAway_of_nonneg {x : ℝ} (hx : 0 ≤ x) : roundHalfAway x = ⌊x + 1 / 2⌋ := by
  rcases hx.eq_or_lt with rfl | hpos
  · norm_num [roundHalfAway]
  · simp [roundHalfAway, sign_pos hpos, abs_of_pos hpos]

theorem roundHalfAway_neg (x : ℝ) : roundHalfAway (-x) = -roundHalfAway x := by
  simp [roundHalfAway, Left.sign_neg]

theorem abs_roundHalfAway_le_of_nonneg {x : ℝ} {m : ℕ} (hx : 0 ≤ x) (h : x ≤ m) : |roundHalfAway x| ≤ m := by
  rw [roundHalfAway_of_nonneg hx, abs_of_nonneg (Int.floor_nonneg.mpr (by linarith)), ← Int.lt_add_one_iff,
    Int.floor_lt]
  push_cast
  linarith

theorem abs_roundHalfAway_le {x : ℝ} {m : ℕ} (h : |x| ≤ m) : |roundHalfAway x| ≤ m := by
  obtain ⟨hlo, hhi⟩ := abs_le.mp h
  rcases le_total 0 x with hx | hx
  · exact abs_roundHalfAway_le_of_nonneg hx hhi
  · rw [← neg_neg x, roundHalfAway_neg, abs_neg]
    exact abs_roundHalfAway_le_of_nonneg (by linarith) (by linarith)

/-! ### R96: the sine of a phase -/

/-- The sine of the phase `r` of `fs`. -/
noncomputable def phaseSine (fs r : ℕ) : ℝ := Real.sin (2 * Real.pi * r / fs)

/-- A power of the root of unity and its conjugate add up to twice a cosine. -/
theorem root_pow_add_conj {L : ℕ} (hL : 0 < L) (e : ℕ) :
    root L ^ (e % L) + root L ^ (L - e % L) = ((2 * Real.cos (2 * Real.pi * e / L) : ℝ) : ℂ) := by
  rw [root_pow_mod hL, root_pow_conj hL, Complex.add_conj, root_pow_eq_exp, Complex.exp_ofReal_mul_I_re]

section Phase
variable {fs : ℕ} (hfs : 0 < fs)
include hfs

theorem phaseSine_mod (r : ℕ) : phaseSine fs (r % fs) = phaseSine fs r := by
  rw [phaseSine, phaseSine, turn_split r hfs, Real.sin_add_nat_mul_two_pi]

theorem phaseSine_nonneg {r : ℕ} (hr : 2 * r ≤ fs) : 0 ≤ phaseSine fs r := by
  have hfs' : (0 : ℝ) < fs := by exact_mod_cast hfs
  have hr' : (2 : ℝ) * r ≤ fs := by exact_mod_cast hr
  refine Real.sin_nonneg_of_nonneg_of_le_pi (by positivity) ?_
  rw [div_le_iff₀ hfs']
  nlinarith [Real.pi_pos]

/-- The second half turn mirrors the first. -/
theorem phaseSine_sub {r : ℕ} (hr : r ≤ fs) : phaseSine fs (fs - r) = -phaseSine fs r := by
  have hfs' : (fs : ℝ) ≠ 0 := by exact_mod_cast hfs.ne'
  have hangle : 2 * Real.pi * ((fs - r : ℕ) : ℝ) / fs = 2 * Real.pi - 2 * Real.pi * r / fs := by
    push_cast [hr]
    field_simp
  rw [phaseSine, phaseSine, hangle, Real.sin_two_pi_sub]

/-- The sine as the cosine a quarter turn earlier, at a quarter of the step. -/
theorem phaseSine_eq_cos (r : ℕ) :
    phaseSine fs r = Real.cos (2 * Real.pi * ((4 * r + 3 * fs : ℕ) : ℝ) / ((4 * fs : ℕ) : ℝ)) := by
  have hfs' : (fs : ℝ) ≠ 0 := by exact_mod_cast hfs.ne'
  have hangle : 2 * Real.pi * ((4 * r + 3 * fs : ℕ) : ℝ) / ((4 * fs : ℕ) : ℝ)
      = 2 * Real.pi * r / fs - Real.pi / 2 + 2 * Real.pi := by
    push_cast
    field_simp
    ring
  rw [hangle, Real.cos_add_two_pi, Real.cos_sub_pi_div_two, phaseSine]

/-! ### R96: what the machine's evaluation holds -/

theorem twiceSine_holds (P amp r : ℕ) : (twiceSine P fs amp r).Holds P (2 * amp * phaseSine fs r) := by
  simpa [twiceSine, phaseSine] using Enc.scale_holds (2 * amp) (sinEnc_holds P r hfs)

theorem twiceSineCyc_val (amp r : ℕ) (b : ℤ) :
    Cyc.val (4 * fs) (twiceSineCyc fs amp r b) = ((2 * amp * phaseSine fs r - b : ℝ) : ℂ) := by
  have hroots := root_pow_add_conj (show 0 < 4 * fs by omega) (4 * (r % fs) + 3 * fs)
  rw [← phaseSine_eq_cos hfs, phaseSine_mod hfs] at hroots
  simp only [twiceSineCyc, Cyc.val_cons, Cyc.val_nil, pow_zero]
  push_cast at hroots ⊢
  linear_combination (amp : ℂ) * hroots

end Phase

/-- The value that `halfUpFloor` and `pickRounded` evaluate, for the amplitude `amp` and the sine `y`. -/
noncomputable def roundedReal (amp : ℕ) (y : ℝ) : ℕ := ⌊amp * y / 32768 + 1 / 2⌋₊

/-- Rounding at the scale `2 ^ P` is rounding the real: `halfUpFloor` is a floor of reals. -/
theorem halfUpFloor_eq (P : ℕ) (z : ℤ) : halfUpFloor P z = ⌊(z : ℝ) / 2 ^ P / 65536 + 1 / 2⌋₊ := by
  have hdiv : (z : ℝ) / 2 ^ P / 65536 + 1 / 2 = ((z + 32768 * 2 ^ P : ℤ) : ℝ) / ((65536 * 2 ^ P : ℕ) : ℝ) := by
    push_cast
    field_simp
    ring
  rw [hdiv, ← Int.floor_toNat, Int.floor_div_natCast, Int.floor_intCast]
  push_cast
  rfl

/-- The two candidates of an enclosure have the rounded real between them. -/
theorem halfUpFloor_between {P amp : ℕ} {a : Enc} {y : ℝ} (ha : a.Holds P (2 * amp * y)) :
    halfUpFloor P a.lo ≤ roundedReal amp y ∧ roundedReal amp y ≤ halfUpFloor P a.hi := by
  obtain ⟨hlo, hhi⟩ := ha
  have hP : (0 : ℝ) < 2 ^ P := by positivity
  rw [← div_le_iff₀ hP] at hlo
  rw [← le_div_iff₀ hP] at hhi
  rw [halfUpFloor_eq, halfUpFloor_eq, roundedReal]
  constructor <;> exact Nat.floor_mono (by linarith)

theorem sign_cast_nonneg_iff : ∀ a : SignType, 0 ≤ (a : ℤ) ↔ 0 ≤ a := by decide

/-- Between two neighbouring candidates the sign of `2 * A * sin - 32768 * (2 * k + 1)` decides. -/
theorem pickRounded_eq {fs amp r k m : ℕ} (hfs : 0 < fs) (hlo : k ≤ roundedReal amp (phaseSine fs r))
    (hhi : roundedReal amp (phaseSine fs r) ≤ k + 1) (h : pickRounded fs amp r k = some m) :
    m = roundedReal amp (phaseSine fs r) := by
  obtain ⟨z, hz, rfl⟩ := Option.map_eq_some_iff.mp h
  have hsign := signBy_eq_sign (x := 2 * amp * phaseSine fs r - (32768 * (2 * k + 1) : ℤ)) (k := 1) (by omega)
    (fun P => Enc.sub_holds (twiceSine_holds hfs P amp r) (Enc.ofInt_holds P _)) one_pos
    (by rw [one_mul]; exact twiceSineCyc_val hfs amp r _) hz
  have hup : 0 ≤ z ↔ k + 1 ≤ roundedReal amp (phaseSine fs r) := by
    rw [hsign, sign_cast_nonneg_iff, sign_nonneg_iff, roundedReal, Nat.le_floor_iff' k.succ_ne_zero]
    push_cast
    constructor <;> intro <;> linarith
  split <;> omega

/-- The machine's rounding, where it is decided, is the rounded real. -/
theorem roundedSine?_eq {fs amp r m : ℕ} (hfs : 0 < fs) (h : roundedSine? fs amp r = some m) :
    m = roundedReal amp (phaseSine fs r) := by
  obtain ⟨hlo, hhi⟩ := halfUpFloor_between (twiceSine_holds hfs 64 amp r)
  simp only [roundedSine?] at h
  split at h
  · next heq =>
    obtain rfl := Option.some.inj h
    omega
  · split at h
    · next hnext => exact pickRounded_eq hfs hlo (hnext ▸ hhi) h
    · simp at h

theorem roundedReal_eq_roundHalfAway {amp : ℕ} {y : ℝ} (hy : 0 ≤ y) :
    (roundedReal amp y : ℤ) = roundHalfAway (amp * y / 32768) := by
  rw [roundHalfAway_of_nonneg (by positivity), roundedReal, Int.natCast_floor_eq_floor (by positivity)]

/-! ### R96: the reference sample -/

theorem synthRefReal_eq (fs bits volume phase : ℕ) :
    synthRefReal fs bits volume phase =
      roundHalfAway ((volume * fullScale bits : ℕ) * phaseSine fs phase / 32768) := by
  rw [synthRefReal, phaseSine]
  push_cast [fullScale_cast]
  ring_nf

/-- The half turn of the phase gives the sign, and the rounding is symmetric. -/
theorem synthRef?_eq {fs bits volume phase : ℕ} {z : Sample} (hfs : 0 < fs)
    (h : synthRef? fs bits volume phase = some z) : z = synthRefReal fs bits volume phase := by
  rw [synthRefReal_eq, ← phaseSine_mod hfs]
  simp only [synthRef?] at h
  have hlt := Nat.mod_lt phase hfs
  split at h
  · next hfirst =>
    obtain ⟨k, hk, rfl⟩ := Option.map_eq_some_iff.mp h
    rw [roundedSine?_eq hfs hk, roundedReal_eq_roundHalfAway (phaseSine_nonneg hfs hfirst)]
  · next hsecond =>
    obtain ⟨k, hk, rfl⟩ := Option.map_eq_some_iff.mp h
    rw [roundedSine?_eq hfs hk, roundedReal_eq_roundHalfAway (phaseSine_nonneg hfs (by omega)),
      phaseSine_sub hfs hlt.le, mul_neg, neg_div, roundHalfAway_neg, neg_neg]

/-- No volume that the register takes drives the reference beyond full scale. -/
theorem abs_synthRefReal_le {volume : ℕ} (hvol : volume ≤ 32768) (fs bits phase : ℕ) :
    |synthRefReal fs bits volume phase| ≤ fullScale bits := by
  rw [synthRefReal_eq]
  refine abs_roundHalfAway_le ?_
  have hamp : ((volume * fullScale bits : ℕ) : ℝ) ≤ 32768 * fullScale bits := by
    exact_mod_cast Nat.mul_le_mul_right _ hvol
  have hsine : |phaseSine fs phase| ≤ 1 := Real.abs_sin_le_one _
  calc |((volume * fullScale bits : ℕ) : ℝ) * phaseSine fs phase / 32768|
      = (volume * fullScale bits : ℕ) * |phaseSine fs phase| / 32768 := by
        rw [abs_div, abs_mul, Nat.abs_cast, Nat.abs_ofNat]
    _ ≤ 32768 * fullScale bits * 1 / 32768 := by gcongr
    _ = fullScale bits := by ring

theorem synth_of_reference {p : Params} (hp : p.synth = .reference) {volume phase : ℕ} {z : Sample}
    (h : synthRef? p.fs p.sampleBits volume phase = some z) :
    synth p volume phase = clampSample p.sampleBits z := by
  simp [synth, hp, h]

/-- Settles O21: the decided evaluation is the real-valued reference, which no clamping changes. -/
theorem synthReferenceIsExact : Obligations.SynthReferenceIsExact := by
  refine ⟨fun fs bits volume phase z hfs _ h => synthRef?_eq hfs h, fun p volume phase z hp hlegal hvol h => ?_⟩
  have hfs : 0 < p.fs := by
    have := (Params.fs_range hlegal).1
    omega
  rw [synth_of_reference hp h, synthRef?_eq hfs h, clampSample_of_range (abs_synthRefReal_le hvol _ _ _)]

end Sys2Proof.Machine
end

section
/-! PROOFS. The bit slicer of 43_bit_slicer.md: the selected bin is the first of the nearest ones (R107, R109), the
machine's evaluation of the reference decision compares the exact magnitudes wherever it is decided (R105, R106, R108),
and the SLICE command (R104, R111, R112). -/

namespace Sys2Proof.Machine

open Sys2Proof.Spec

/-! ### R107: the first of the nearest bins -/

/-- The bin `b` of `0 .. m` is nearest under the distance `d`, and every bin below it is farther. -/
def IsFirstNearest (d : ℕ → ℕ) (m b : ℕ) : Prop :=
  b ≤ m ∧ (∀ k ≤ m, d b ≤ d k) ∧ ∀ k < b, d b < d k

theorem IsFirstNearest.unique {d : ℕ → ℕ} {m b c : ℕ} (hb : IsFirstNearest d m b) (hc : IsFirstNearest d m c) :
    b = c := by
  obtain ⟨hbm, hbmin, hbfirst⟩ := hb
  obtain ⟨hcm, hcmin, hcfirst⟩ := hc
  rcases lt_trichotomy b c with h | h | h
  · exact absurd (hcfirst b h) (hbmin c hcm).not_gt
  · exact h
  · exact absurd (hbfirst c h) (hcmin b hbm).not_gt

/-- One more bin is examined: it is selected only where it is nearer than the one selected so far. -/
theorem IsFirstNearest.succ {d : ℕ → ℕ} {m b : ℕ} (h : IsFirstNearest d m b) :
    IsFirstNearest d (m + 1) (if d (m + 1) < d b then m + 1 else b) := by
  obtain ⟨hbm, hmin, hfirst⟩ := h
  split
  case isTrue hnew =>
    have hbelow (k : ℕ) (hk : k ≤ m) : d (m + 1) < d k := hnew.trans_le (hmin k hk)
    refine ⟨le_rfl, fun k hk => ?_, fun k hk => hbelow k (Nat.lt_succ_iff.mp hk)⟩
    rcases Nat.le_succ_iff.mp hk with hk | rfl
    · exact (hbelow k hk).le
    · exact le_rfl
  case isFalse hold =>
    refine ⟨hbm.trans m.le_succ, fun k hk => ?_, hfirst⟩
    rcases Nat.le_succ_iff.mp hk with hk | rfl
    · exact hmin k hk
    · exact not_lt.mp hold

theorem foldl_isFirstNearest (d : ℕ → ℕ) (m : ℕ) :
    IsFirstNearest d m ((List.range (m + 1)).foldl (fun best k => if d k < d best then k else best) 0) := by
  induction m with
  | zero => simp [IsFirstNearest]
  | succ m ih =>
    rw [List.range_succ, List.foldl_append]
    exact ih.succ

theorem nearestBin_isFirstNearest (fs n f : ℕ) :
    IsFirstNearest (binDistance fs n f) (n / 2) (nearestBin fs n f) :=
  foldl_isFirstNearest _ _

theorem binDistance_cast (fs n f k : ℕ) : (binDistance fs n f k : ℤ) = |(k * fs : ℤ) - f * n| :=
  Int.natCast_natAbs _

/-- A bin at less than half the spacing `FS` from the frequency is the selected one: every other is farther. -/
theorem nearestBin_eq_of_near {fs n f k : ℕ} (hk : k ≤ n / 2) (hnear : 2 * binDistance fs n f k < fs) :
    nearestBin fs n f = k := by
  have hfar (j : ℕ) (hj : j ≠ k) : binDistance fs n f k < binDistance fs n f j := by
    have hspacing : (fs : ℤ) ≤ |(j * fs : ℤ) - k * fs| := by
      rw [← sub_mul, abs_mul, Nat.abs_cast]
      exact le_mul_of_one_le_left (Int.natCast_nonneg _) (Int.one_le_abs (by omega))
    have htriangle := abs_sub_le (j * fs : ℤ) (f * n) (k * fs)
    rw [abs_sub_comm (f * n : ℤ) (k * fs), ← binDistance_cast fs n f j, ← binDistance_cast fs n f k] at htriangle
    omega
  refine (nearestBin_isFirstNearest fs n f).unique ⟨hk, fun j _ => ?_, fun j hj => hfar j hj.ne⟩
  rcases eq_or_ne j k with rfl | hj
  · exact le_rfl
  · exact (hfar j hj).le

/-- Above `FS / 2` every bin lies below the frequency, so that the last is the nearest. -/
theorem nearestBin_of_above {fs n f : ℕ} (hfs : 0 < fs) (hf : fs < 2 * f) : nearestBin fs n f = n / 2 := by
  obtain ⟨hle, hmin, -⟩ := nearestBin_isFirstNearest fs n f
  by_contra hne
  have hlt : nearestBin fs n f * fs < n / 2 * fs := Nat.mul_lt_mul_of_pos_right (by omega) hfs
  have hlast : n / 2 * fs ≤ f * n := by
    have hhalf : n / 2 * 2 ≤ n := Nat.div_mul_le_self n 2
    nlinarith
  have hnearer := hmin (n / 2) le_rfl
  zify at hnearer hlt hlast
  rw [binDistance_cast, binDistance_cast, abs_of_neg (by linarith), abs_of_nonpos (by push_cast; linarith)] at hnearer
  push_cast at hnearer
  linarith

theorem nearestBin_one (fs f : ℕ) : nearestBin fs 1 f = 0 :=
  Nat.le_zero.mp (nearestBin_isFirstNearest fs 1 f).1

theorem State.markBin_eq (s : State) : s.markBin = nearestBin s.cfg.fs (spbOf s) s.mark.toNat := rfl

theorem State.spaceBin_eq (s : State) :
    s.spaceBin = nearestBin s.cfg.fs (spbOf s) (s.mark.toNat - s.shift.toNat) := rfl

/-- Settles O22: what the fold over the bins keeps, read over the integers. -/
theorem nearestBinIsLeastNearest : Obligations.NearestBinIsLeastNearest := by
  refine ⟨fun fs n f => ?_, fun s => ⟨s.markBin_eq, s.spaceBin_eq⟩⟩
  obtain ⟨hle, hmin, hfirst⟩ := nearestBin_isFirstNearest fs n f
  refine ⟨hle, fun k hk => ?_, fun k hk => ?_, nearestBin_of_above⟩
  · rw [← binDistance_cast, ← binDistance_cast]
    exact_mod_cast hmin k hk
  · rw [← binDistance_cast, ← binDistance_cast]
    exact_mod_cast hfirst k hk

/-! ### R109: mark and space in one bin -/

theorem slice_sameBin (p : Params) (x : List Sample) (k : ℕ) : slice p x k k = false := if_pos rfl

theorem State.sliceWindow_of_sameBin {s : State} (h : s.markBin = s.spaceBin) (x : List Sample) :
    s.sliceWindow x = false := by
  rw [State.sliceWindow, h, slice_sameBin]

/-- Settles O25: one bin is a space by definition; a window of one sample has the bin 0 only, and bin 7 is the nearest
to both tones of the two settings. -/
theorem sameBinSlicesToSpace : Obligations.SameBinSlicesToSpace := by
  refine ⟨fun s x h => State.sliceWindow_of_sameBin h x, fun s x hspb => ?_, fun s hbaud hmark hshift => ?_⟩
  · have hm : s.markBin = 0 := by rw [State.markBin_eq, hspb, nearestBin_one]
    have hs : s.spaceBin = 0 := by rw [State.spaceBin_eq, hspb, nearestBin_one]
    exact ⟨hm, hs, State.sliceWindow_of_sameBin (hm.trans hs.symm) x⟩
  · have hboth (fs n : ℕ) (hfs : s.cfg.fs = fs) (hspb : spbOf s = n) (h7 : 7 ≤ n / 2)
        (hm : 2 * binDistance fs n 2125 7 < fs) (hs : 2 * binDistance fs n 1955 7 < fs) :
        spbOf s = n ∧ s.markBin = 7 ∧ s.spaceBin = 7 := by
      rw [State.markBin_eq, State.spaceBin_eq, hfs, hspb, hmark, hshift]
      exact ⟨rfl, nearestBin_eq_of_near h7 hm, nearestBin_eq_of_near h7 hs⟩
    exact ⟨fun hfs => hboth 48000 160 hfs (by rw [spbOf, hfs, hbaud]; rfl) (by decide) (by decide) (by decide),
      fun hfs => hboth 44100 147 hfs (by rw [spbOf, hfs, hbaud]; rfl) (by decide) (by decide) (by decide)⟩

/-! ### R105, R106: the transform as a sum from one sample on -/

/-- The summand of `X[k]` for the sample `x` at index `i` of `n`: its exponential is a conjugate power of the root of
unity. -/
noncomputable def dftTerm (n k i : ℕ) (x : Sample) : ℂ :=
  ((hammingReal n i * x : ℝ) : ℂ) * (starRingEnd ℂ) (root n ^ (k * i))

/-- `X[k]` over the samples from index `i` on, in the shape of `dftEnc` and `dftCyc`. -/
noncomputable def dftFrom (n k : ℕ) : ℕ → List Sample → ℂ
  | _, [] => 0
  | i, x :: xs => dftTerm n k i x + dftFrom n k (i + 1) xs

theorem conj_root_pow_eq_exp (n k i : ℕ) :
    (starRingEnd ℂ) (root n ^ (k * i)) = Complex.exp (-2 * Real.pi * Complex.I * k * i / n) := by
  rw [root_pow_eq_exp, ← Complex.exp_conj, map_mul, Complex.conj_ofReal, Complex.conj_I]
  congr 1
  push_cast
  ring

theorem dftFrom_eq_sum (n k i : ℕ) (xs : List Sample) :
    dftFrom n k i xs = ∑ j ∈ Finset.range xs.length, dftTerm n k (i + j) (xs.getD j 0) := by
  induction xs generalizing i with
  | nil => rfl
  | cons x xs ih =>
    have hindex (j : ℕ) : i + 1 + j = i + (j + 1) := by ring
    rw [dftFrom, ih, List.length_cons, Finset.sum_range_succ', add_comm]
    simp only [hindex, List.getD_cons_succ, List.getD_cons_zero, Nat.add_zero]

theorem dftReal_eq_dftFrom (x : List Sample) (k : ℕ) : dftReal x k = dftFrom x.length k 0 x := by
  rw [dftFrom_eq_sum, dftReal]
  refine Finset.sum_congr rfl fun i _ => ?_
  rw [dftTerm, conj_root_pow_eq_exp, Nat.zero_add]
  push_cast
  rfl

theorem dftTerm_re (n k i : ℕ) (x : Sample) :
    (dftTerm n k i x).re = hammingReal n i * x * Real.cos (2 * Real.pi * (k * i : ℕ) / n) := by
  rw [dftTerm, Complex.re_ofReal_mul, Complex.conj_re, root_pow_eq_exp, Complex.exp_ofReal_mul_I_re]

theorem dftTerm_im (n k i : ℕ) (x : Sample) :
    (dftTerm n k i x).im = -(hammingReal n i * x * Real.sin (2 * Real.pi * (k * i : ℕ) / n)) := by
  rw [dftTerm, Complex.im_ofReal_mul, Complex.conj_im, root_pow_eq_exp, Complex.exp_ofReal_mul_I_im, mul_neg]

/-- `10000 * mag[k] ^ 2`, what both evaluations compute. -/
noncomputable def powerReal (x : List Sample) (k : ℕ) : ℝ := 10000 * Complex.normSq (dftReal x k)

theorem powerReal_lt_iff (x : List Sample) (k l : ℕ) : powerReal x k < powerReal x l ↔ magReal x k < magReal x l := by
  rw [powerReal, powerReal, magReal, magReal, Complex.normSq_eq_norm_sq, Complex.normSq_eq_norm_sq,
    mul_lt_mul_iff_right₀ (by norm_num), sq_lt_sq₀ (norm_nonneg _) (norm_nonneg _)]

/-! ### R105, R106: the enclosures hold the window, the transform and the power -/

theorem hammingReal_one (i : ℕ) : hammingReal 1 i = 1 := if_pos rfl

theorem hammingReal_of_two_le {n : ℕ} (hn : 2 ≤ n) (i : ℕ) :
    100 * hammingReal n i = 54 - 46 * Real.cos (2 * Real.pi * i / (n - 1 : ℕ)) := by
  rw [hammingReal, if_neg (by omega), Nat.cast_sub (by omega)]
  push_cast
  ring

theorem hammingEnc_holds (P : ℕ) {n : ℕ} (hn : 0 < n) (i : ℕ) :
    (hammingEnc P n i).Holds P (100 * hammingReal n i) := by
  rw [hammingEnc]
  split
  case isTrue hle =>
    obtain rfl : n = 1 := by omega
    simpa [hammingReal_one] using Enc.ofInt_holds P 100
  case isFalse hgt =>
    rw [hammingReal_of_two_le (by omega)]
    simpa using Enc.sub_holds (Enc.ofInt_holds P 54) (Enc.scale_holds 46 (cosEnc_holds P i (L := n - 1) (by omega)))

theorem dftEnc_holds (P k : ℕ) {n : ℕ} (hn : 0 < n) (i : ℕ) (xs : List Sample) :
    (dftEnc P n k i xs).1.Holds P (100 * (dftFrom n k i xs).re) ∧
      (dftEnc P n k i xs).2.Holds P (-100 * (dftFrom n k i xs).im) := by
  induction xs generalizing i with
  | nil => simpa [dftEnc, dftFrom] using Enc.ofInt_holds P 0
  | cons x xs ih =>
    obtain ⟨hre, him⟩ := ih (i + 1)
    have hw := Enc.scale_holds x (hammingEnc_holds P hn i)
    simp only [dftEnc, dftFrom, Complex.add_re, Complex.add_im, dftTerm_re, dftTerm_im]
    constructor
    · convert Enc.add_holds (Enc.mul_holds hw (cosEnc_holds P (k * i) hn)) hre using 1
      ring
    · convert Enc.add_holds (Enc.mul_holds hw (sinEnc_holds P (k * i) hn)) him using 1
      ring

theorem powerEnc_holds (P k : ℕ) {x : List Sample} (hx : 0 < x.length) :
    (powerEnc P k x).Holds P (powerReal x k) := by
  obtain ⟨hre, him⟩ := dftEnc_holds P k hx 0 x
  simp only [powerEnc, powerReal, dftReal_eq_dftFrom, Complex.normSq_apply]
  convert Enc.add_holds (Enc.mul_holds hre hre) (Enc.mul_holds him him) using 1
  ring

/-! ### R105, R106: the exact sums have the value of the transform and the power -/

theorem slicerOrder_pos (n : ℕ) : 0 < slicerOrder n := by
  rw [slicerOrder]
  split
  case isTrue => exact Nat.one_pos
  case isFalse hgt => exact Nat.mul_pos (by omega) (by omega)

/-- A power of a root of unity is a power of a finer one. -/
theorem root_mul_pow {a b : ℕ} (ha : 0 < a) (hb : 0 < b) (e : ℕ) : root (a * b) ^ (e * b) = root a ^ e := by
  have ha' : (a : ℝ) ≠ 0 := by exact_mod_cast ha.ne'
  have hb' : (b : ℝ) ≠ 0 := by exact_mod_cast hb.ne'
  rw [root_pow_eq_exp, root_pow_eq_exp]
  congr 3
  push_cast
  field_simp

theorem root_pow_add_conj_eq_cos {L : ℕ} (hL : 0 < L) (e : ℕ) :
    root L ^ e + (starRingEnd ℂ) (root L ^ e) = ((2 * Real.cos (2 * Real.pi * e / L) : ℝ) : ℂ) := by
  rw [← root_pow_conj hL, ← root_pow_mod hL, root_pow_add_conj hL]

/-- The cosine of the window as a root of unity and its conjugate. -/
theorem hammingReal_eq_roots {n : ℕ} (hn : 2 ≤ n) (i : ℕ) :
    (100 : ℂ) * hammingReal n i = 54 - 23 * (root (n - 1) ^ i + (starRingEnd ℂ) (root (n - 1) ^ i)) := by
  have hreal := congrArg Complex.ofReal (hammingReal_of_two_le hn i)
  rw [root_pow_add_conj_eq_cos (by omega)]
  push_cast at hreal ⊢
  linear_combination hreal

theorem dftCyc_val (k : ℕ) {n : ℕ} (hn : 0 < n) (i : ℕ) (xs : List Sample) :
    Cyc.val (slicerOrder n) (dftCyc n k i xs) = 100 * dftFrom n k i xs := by
  induction xs generalizing i with
  | nil => simp [dftCyc, dftFrom]
  | cons x xs ih =>
    simp only [dftCyc]
    split
    case isTrue hle =>
      obtain rfl : n = 1 := by omega
      have hturn : root 1 ^ (k * i) = 1 := by simp [root]
      rw [Cyc.val_cons, ih, dftFrom, dftTerm, hammingReal_one, hturn]
      push_cast
      simp only [pow_zero, map_one]
      ring
    case isFalse hgt =>
      have hn1 : 0 < n - 1 := by omega
      have horder : slicerOrder n = n * (n - 1) := if_neg hgt
      have hwindow : root (n * (n - 1)) ^ (i * n) = root (n - 1) ^ i := by
        rw [mul_comm n, root_mul_pow hn1 hn]
      have hL : 0 < n * (n - 1) := Nat.mul_pos hn hn1
      rw [horder] at ih ⊢
      rw [Cyc.val_cons, Cyc.val_cons, Cyc.val_cons, ih, dftFrom, dftTerm, pow_add, pow_add, root_pow_conj hL,
        root_pow_conj hL, root_mul_pow hn hn1, hwindow]
      push_cast
      linear_combination -(x : ℂ) * (starRingEnd ℂ) (root n ^ (k * i)) * hammingReal_eq_roots (not_le.mp hgt) i

theorem powerCyc_val (k : ℕ) {x : List Sample} (hx : 0 < x.length) :
    Cyc.val (slicerOrder x.length) (powerCyc k x) = (powerReal x k : ℂ) := by
  have hL := slicerOrder_pos x.length
  rw [powerCyc, Cyc.val_collect hL, Cyc.val_mul, Cyc.val_conj hL, Cyc.val_collect hL, dftCyc_val k hx,
    ← dftReal_eq_dftFrom, Complex.mul_conj, map_mul, powerReal]
  norm_num [Complex.normSq_apply]

/-! ### R108: the decision -/

theorem sign_cast_pos_iff : ∀ a : SignType, 0 < (a : ℤ) ↔ a = 1 := by decide

/-- Both evaluations are of the difference of the powers, whose sign is decided exactly. -/
theorem sliceRef?_eq_some {x : List Sample} {km ks : ℕ} {b : LineBit} (hx : 0 < x.length)
    (h : sliceRef? x km ks = some b) : b = true ↔ magReal x ks < magReal x km := by
  obtain ⟨z, hz, rfl⟩ := Option.map_eq_some_iff.mp h
  have hsign := signBy_eq_sign (x := powerReal x km - powerReal x ks) (k := 1) (slicerOrder_pos _)
    (fun P => Enc.sub_holds (powerEnc_holds P km hx) (powerEnc_holds P ks hx)) one_pos
    (by rw [Cyc.val_append, Cyc.val_neg, powerCyc_val km hx, powerCyc_val ks hx]; push_cast; ring) hz
  rw [decide_eq_true_iff, hsign, sign_cast_pos_iff, sign_eq_one_iff, sub_pos, powerReal_lt_iff]

theorem slice_of_reference {p : Params} (hp : p.slicer = .reference) {x : List Sample} {km ks : ℕ} {b : LineBit}
    (hbins : km ≠ ks) (h : sliceRef? x km ks = some b) : slice p x km ks = b := by
  simp [slice, hbins, hp, h]

/-- Settles O27: the decided evaluation has the sign of the difference of the powers; with one bin the magnitudes are
equal and the bit is a space. -/
theorem slicerReferenceIsExact : Obligations.SlicerReferenceIsExact := by
  refine ⟨fun x km ks b hx h => sliceRef?_eq_some hx h, fun p x km ks b hp hx h => ?_⟩
  rcases eq_or_ne km ks with rfl | hbins
  · simp [slice_sameBin]
  · rw [slice_of_reference hp hbins h, sliceRef?_eq_some hx h]

/-! ### R112: silence -/

theorem collect_dftCyc_zeros (n k L i m : ℕ) : Cyc.collect L (dftCyc n k i (List.replicate m 0)) = [] := by
  induction m generalizing i with
  | zero => rfl
  | succ m ih =>
    rw [List.replicate_succ, dftCyc]
    simp only [Cyc.collect] at ih ⊢
    split <;> simp [ih, Cyc.addTerm]

/-- No term of the exact sum is left, so that the test for zero answers. -/
theorem powerCyc_zeros (k n : ℕ) : powerCyc k (List.replicate n 0) = [] := by
  simp only [powerCyc, collect_dftCyc_zeros]
  rfl

theorem Cyc.isZero_nil (L : ℕ) : Cyc.isZero L [] = true := by
  have hfactors (qs : List ℕ) :
      qs.foldl (fun a q => Cyc.collect L (Cyc.mul a [(1, L / q), (-1, 0)])) [] = [] := by
    induction qs with
    | nil => rfl
    | cons q qs ih => exact ih
  exact List.isEmpty_iff.mpr (hfactors _)

theorem signBy_isSome_of_isZero {enclose : ℕ → Enc} {L : ℕ} {exact : Unit → Cyc} (h : (exact ()).isZero L = true) :
    (signBy enclose L exact).isSome = true := by
  unfold signBy
  split
  · rfl
  · simp [h]

theorem magReal_zeros (n k : ℕ) : magReal (List.replicate n 0) k = 0 := by
  simp [magReal, dftReal]

theorem sliceRef?_zeros (n km ks : ℕ) : sliceRef? (List.replicate n 0) km ks = some false := by
  rcases n.eq_zero_or_pos with rfl | hn
  · rfl
  · have hsome : (sliceRef? (List.replicate n 0) km ks).isSome = true := by
      rw [sliceRef?, Option.isSome_map]
      refine signBy_isSome_of_isZero ?_
      rw [powerCyc_zeros, powerCyc_zeros]
      exact Cyc.isZero_nil _
    obtain ⟨b, hb⟩ := Option.isSome_iff_exists.mp hsome
    have hbit := sliceRef?_eq_some (by simpa using hn) hb
    rw [magReal_zeros, magReal_zeros] at hbit
    have hspace : b = false := by simpa using hbit
    exact hspace ▸ hb

/-- Settles O26: the evaluation of an all-zero window is decided, and its magnitudes are equal. -/
theorem silenceSlicesToSpace : Obligations.SilenceSlicesToSpace := by
  intro p n km ks hp
  rcases eq_or_ne km ks with rfl | hbins
  · exact slice_sameBin ..
  · exact slice_of_reference hp hbins (sliceRef?_zeros n km ks)

/-! ### R104, R111: the command -/

theorem sliceWord_eq (b : LineBit) : sliceWord b = if b then 1#32 else 0#32 := by
  cases b <;> rfl

theorem exec_slice_window {s : State} {payload : List SampleBits} (h : payload.length = spbOf s) :
    exec (.slice payload) s =
      .next (s.emitRsp (sliceWord (s.sliceWindow (readSamples s.cfg.sampleBits payload)))).advance :=
  congrArg _ (if_pos h)

theorem exec_slice_otherLength {s : State} {payload : List SampleBits} (h : payload.length ≠ spbOf s) :
    exec (.slice payload) s = .next (s.raiseFault .len) :=
  congrArg _ (if_neg h)

/-- Settles O23. -/
theorem sliceAnswersBit : Obligations.SliceAnswersBit := by
  intro s payload h
  rw [exec_slice_window h, sliceWord_eq]
  rfl

/-- Settles O24. -/
theorem sliceWrongLengthRaisesErrLen : Obligations.SliceWrongLengthRaisesErrLen := by
  intro s payload h
  exact exec_slice_otherLength h

end Sys2Proof.Machine
end

section
/-! PROOFS. The frame recovery machine of 44_frame_recovery.md: the RX.BIT command takes the machine's arms (R117 to
R120, R122), and the laws of whole frames, with and without a framing error, and of an endless space stream (R123). -/

namespace Sys2Proof.Machine

open Sys2Proof.Spec

/-! ### R120, R122: a framing error, and the command -/

theorem State.fsmStep_awaiting_space {s : State} (h : s.fsm = .awaitingStop) :
    s.fsmStep LineBit.space = { s with fecnt := s.fecnt + 1, fsm := .idle } := by
  simpa [h] using s.fsmStep_cases LineBit.space

theorem exec_rxBit (b : LineBit) (s : State) : exec (.rxBit b) s = .next (s.fsmStep b).advance := rfl

theorem setWidth_ofBool_eq_ite (b : LineBit) : (BitVec.ofBool b).setWidth 5 = if b then 1#5 else 0#5 := by
  cases b <;> rfl

/-- Settles O28: each clause is the machine's arm of that name, with pc advanced. -/
theorem rxBitTakesItsArm : Obligations.RxBitTakesItsArm := by
  intro s b
  refine ⟨?idleSpace, ?idleMark, ?collecting, ?awaitingMark, ?awaitingSpace⟩
  case idleSpace =>
    rintro h rfl
    rw [exec_rxBit, State.fsmStep_idle_space h]
    rfl
  case idleMark =>
    rintro h rfl
    rw [exec_rxBit, State.fsmStep_idle_mark h]
    rfl
  case collecting =>
    intro h
    have hlast : s.count + 1 = 5 ↔ s.count.toNat = 4 := by bv_omega
    rw [exec_rxBit, State.fsmStep_collecting h]
    simp only [State.advance, setWidth_ofBool_eq_ite, hlast]
  case awaitingMark =>
    rintro h rfl
    rw [exec_rxBit, State.fsmStep_awaiting_mark h]
    rfl
  case awaitingSpace =>
    rintro h rfl
    have hmod : BitVec.ofNat 16 (s.fecnt.toNat + 1) = s.fecnt + 1 := by bv_omega
    rw [exec_rxBit, State.fsmStep_awaiting_space h, hmod]
    rfl

/-! ### R123: whole frames -/

theorem dataBits_eq_map_codeOf (d0 d1 d2 d3 d4 : LineBit) :
    [d0, d1, d2, d3, d4] = (List.range 5).map (codeOf d0 d1 d2 d3 d4).getLsbD := by
  revert d0 d1 d2 d3 d4
  decide

theorem State.collected_not_idle (s : State) (k : Code) (n : Nat) : (s.collected k n).fsm ≠ .idle := by
  unfold State.collected
  split <;> nofun

section Idle
variable {s : State}

/-- A start bit and the first `n` data bits leave exactly those bits collected. -/
theorem feed_start_take (h : s.fsm = .idle) (d0 d1 d2 d3 d4 : LineBit) {n : Nat} (hn : n ≤ 5) :
    feed (LineBit.space :: [d0, d1, d2, d3, d4].take n) s = s.collected (codeOf d0 d1 d2 d3 d4) n := by
  rw [feed_cons, State.fsmStep_idle_space h, ← State.collected_zero (codeOf d0 d1 d2 d3 d4), dataBits_eq_map_codeOf,
    ← List.map_take, List.take_range, min_eq_left hn, feed_codeBits _ hn]

/-- A start bit and five data bits leave the stop position to a last bit. -/
theorem feed_frame (h : s.fsm = .idle) (d0 d1 d2 d3 d4 stop : LineBit) :
    feed [LineBit.space, d0, d1, d2, d3, d4, stop] s =
      ({ s with fsm := .awaitingStop, acc := codeOf d0 d1 d2 d3 d4, count := 5 } : State).fsmStep stop := by
  rw [← State.collected_five, ← feed_start_take h d0 d1 d2 d3 d4 le_rfl]
  rfl

theorem feed_frame_space (h : s.fsm = .idle) (d0 d1 d2 d3 d4 : LineBit) :
    feed [LineBit.space, d0, d1, d2, d3, d4, LineBit.space] s =
      { s with acc := codeOf d0 d1 d2 d3 d4, count := 5, fecnt := s.fecnt + 1 } := by
  rw [feed_frame h, State.fsmStep_awaiting_space rfl, h]

theorem feed_frame_mark (h : s.fsm = .idle) (d0 d1 d2 d3 d4 : LineBit) :
    feed [LineBit.space, d0, d1, d2, d3, d4, LineBit.mark] s =
      { s with
        acc := codeOf d0 d1 d2 d3 d4
        count := 5
        rx := s.rx ++ [decRom s.cfg.table (codeOf d0 d1 d2 d3 d4)] } := by
  rw [feed_frame h, State.fsmStep_awaiting_mark rfl, h]

end Idle

/-- Every seven spaces are one frame of the code 0 with a framing error, after which the machine is idle again. -/
theorem feed_replicate_space {s : State} (h : s.fsm = .idle) (n : Nat) :
    (feed (List.replicate (7 * n) LineBit.space) s).fecnt = s.fecnt + BitVec.ofNat 16 n ∧
      (feed (List.replicate (7 * n) LineBit.space) s).rx = s.rx ∧
      (feed (List.replicate (7 * n) LineBit.space) s).fsm = .idle := by
  induction n generalizing s with
  | zero => exact ⟨(BitVec.add_zero _).symm, rfl, h⟩
  | succ n ih =>
    have hframe : feed (List.replicate 7 LineBit.space) s = _ := feed_frame_space h false false false false false
    obtain ⟨hfecnt, hrx, hfsm⟩ := ih (s := feed (List.replicate 7 LineBit.space) s) (by rw [hframe, h])
    have hsucc : 7 * (n + 1) = 7 + 7 * n := by omega
    rw [hsucc, List.replicate_add, feed_append, hfecnt, hrx, hfsm, hframe]
    exact ⟨by bv_omega, rfl, rfl⟩

/-- Settles O29. -/
theorem frameRecoveryLaws : Obligations.FrameRecoveryLaws := by
  intro s h
  refine ⟨feed_replicate_mark h, fun d0 d1 d2 d3 d4 => ⟨feed_frame_space h .., feed_frame_mark h .., ?_⟩,
    feed_replicate_space h⟩
  intro n hpos hn
  obtain ⟨m, rfl⟩ := Nat.exists_eq_add_of_le' hpos
  rw [List.take_succ_cons, feed_start_take h d0 d1 d2 d3 d4 (by omega)]
  exact s.collected_not_idle _ m

end Sys2Proof.Machine
end

section
/-! PROOFS. The receive stream of 45_rx_stream.md: PUSH and CLOSE enqueue or raise ERR_OVF (R129, R135), the consumer's
step and when it has none (R130 to R134), what a consumer step writes (R140, R167), and that the windows sliced do not
depend on how the samples were chunked (R137). -/

namespace Sys2Proof.Machine

open Sys2Proof.Spec

/-! ### R129, R135: the two commands that enqueue -/

theorem State.queueFull_eq_false_iff {s : State} :
    s.queueFull = false ↔ ∀ cap, s.cfg.queueCap = some cap → s.q.length < cap := by
  refine ⟨fun h cap => s.length_lt_of_queueFull_eq_false h, fun h => ?_⟩
  cases hcap : s.cfg.queueCap with
  | none => simp [State.queueFull, hcap]
  | some cap => simpa [State.queueFull, hcap] using h cap hcap

theorem State.queueFull_of_cap_le {s : State} {cap : Nat} (hcap : s.cfg.queueCap = some cap)
    (hlen : cap ≤ s.q.length) : s.queueFull = true := by
  simpa [State.queueFull, hcap] using hlen

theorem State.offer_of_room {s : State} (h : s.queueFull = false) (e : Entry) :
    s.offer e = { s with q := s.q ++ [e], pc := s.pc + 1 } := by
  simpa [h] using s.offer_cases e

theorem State.offer_of_full {s : State} (h : s.queueFull = true) (e : Entry) :
    s.offer e = s.raiseFault .ovf := by
  simpa [h] using s.offer_cases e

theorem exec_push (payload : List SampleBits) (s : State) :
    exec (.push payload) s = .next (s.offer (.chunk (readSamples s.cfg.sampleBits payload))) := rfl

theorem exec_close (s : State) : exec .close s = .next (s.offer .close) := rfl

/-- Settles O31: an offer of the chunk, to a queue with room or to a full one. -/
theorem pushEnqueuesOrOverflows : Obligations.PushEnqueuesOrOverflows := by
  intro s payload
  refine ⟨fun hroom => ?_, fun cap hcap hlen => ?_⟩
  · rw [exec_push, State.offer_of_room (State.queueFull_eq_false_iff.mpr hroom)]
    rfl
  · rw [exec_push, State.offer_of_full (State.queueFull_of_cap_le hcap hlen)]
    rfl

/-- Settles O32: an offer of the sentinel, to a queue with room or to a full one. -/
theorem closeEnqueuesOrOverflows : Obligations.CloseEnqueuesOrOverflows := by
  intro s
  refine ⟨fun hroom => ?_, fun cap hcap hlen => ?_⟩
  · rw [exec_close, State.offer_of_room (State.queueFull_eq_false_iff.mpr hroom)]
  · rw [exec_close, State.offer_of_full (State.queueFull_of_cap_le hcap hlen)]
    rfl

/-! ### R130 to R134: the consumer's step -/

section ConsumerStep
variable {s : State}

theorem consumerStep_of_window (hopen : s.closed = false) (hwin : s.spb ≤ s.buf.length) :
    consumerStep s = some s.consumerWin :=
  consumerStep_eq_some.mpr ⟨hopen, .inl ⟨hwin, rfl⟩⟩

theorem consumerStep_of_chunk (hopen : s.closed = false) (hbuf : s.buf.length < s.spb) {l : List Sample}
    {rest : List Entry} (hq : s.q = .chunk l :: rest) :
    consumerStep s = some { s with q := rest, buf := s.buf ++ l } :=
  consumerStep_eq_some.mpr ⟨hopen, .inr (.inl ⟨hbuf, l, rest, hq, rfl⟩)⟩

theorem consumerStep_of_close (hopen : s.closed = false) (hbuf : s.buf.length < s.spb) {rest : List Entry}
    (hq : s.q = .close :: rest) : consumerStep s = some { s with q := rest, closed := true } :=
  consumerStep_eq_some.mpr ⟨hopen, .inr (.inr ⟨hbuf, rest, hq, rfl⟩)⟩

/-- The consumer waits when it is closed, or when it has neither a whole window nor an entry to take (R130). -/
theorem consumerStep_eq_none :
    consumerStep s = none ↔ s.closed = true ∨ (s.buf.length < s.spb ∧ s.q = []) := by
  constructor
  · intro hnone
    cases hopen : s.closed with
    | true => exact .inl rfl
    | false =>
      refine .inr ?_
      rcases le_or_gt s.spb s.buf.length with hwin | hbuf
      · simp [consumerStep_of_window hopen hwin] at hnone
      · match hq : s.q with
        | [] => exact ⟨hbuf, rfl⟩
        | .chunk l :: rest => simp [consumerStep_of_chunk hopen hbuf hq] at hnone
        | .close :: rest => simp [consumerStep_of_close hopen hbuf hq] at hnone
  · rintro (hclosed | ⟨hbuf, hq⟩)
    · simp [consumerStep, hclosed]
    · simp [consumerStep, hbuf, hq]

theorem State.quiescent_iff : s.quiescent = true ↔ s.closed = true ∨ (s.buf.length < s.spb ∧ s.q = []) := by
  simp [State.quiescent]

theorem consumerStep_eq_none_iff_quiescent : consumerStep s = none ↔ s.quiescent = true :=
  consumerStep_eq_none.trans State.quiescent_iff.symm

end ConsumerStep

/-- Settles O33: the closed consumer waits, a whole window goes before the queue's head, and an empty queue waits. -/
theorem consumerTakesEnabledStep : Obligations.ConsumerTakesEnabledStep := fun _ =>
  ⟨fun hclosed => consumerStep_eq_none.mpr (.inl hclosed),
    fun hopen hwin => consumerStep_of_window hopen hwin,
    fun hopen hbuf _ _ hq => consumerStep_of_chunk hopen hbuf hq,
    fun hopen hbuf _ hq => consumerStep_of_close hopen hbuf hq,
    fun _ hbuf hq => consumerStep_eq_none.mpr (.inr ⟨hbuf, hq⟩)⟩

/-- Settles O34: both are the one condition under which no step is enabled. -/
theorem quiescentIffNoConsumerStep : Obligations.QuiescentIffNoConsumerStep := fun _ =>
  ⟨consumerStep_eq_none_iff_quiescent.symm, State.quiescent_iff⟩

/-! ### R131 to R133, R167: what a consumer step writes -/

theorem State.rx_fsmStep_cases (s : State) (b : LineBit) :
    (s.fsmStep b).rx = s.rx ∨ ∃ c, (s.fsmStep b).rx = s.rx ++ [c] := by
  rcases s.fsmStep_cases b with ⟨-, -, h⟩ | ⟨-, -, h⟩ | ⟨-, h⟩ | ⟨-, -, h⟩ | ⟨-, -, h⟩ <;> simp [h]

/-- Only a WIN step can emit a character, and it emits at most one (R119, R132). -/
theorem consumerStep_rx {s t : State} (h : consumerStep s = some t) : t.rx = s.rx ∨ ∃ c, t.rx = s.rx ++ [c] := by
  obtain ⟨-, ⟨-, rfl⟩ | ⟨-, l, rest, -, rfl⟩ | ⟨-, rest, -, rfl⟩⟩ := consumerStep_cases h
  · exact State.rx_fsmStep_cases { s with buf := s.buf.drop s.spb } _
  · exact .inl rfl
  · exact .inl rfl

/-- Settles O50: the receive path is all a consumer step writes, and the RX stream gains its WIN step's character. -/
theorem consumerTouchesOnlyReceiveState : Obligations.ConsumerTouchesOnlyReceiveState := fun _ _ h =>
  ⟨consumerStep_writes_receive h, consumerStep_rx h⟩

/-! ### R151: a consumer run ends within its work -/

@[simp] theorem samplesOf_nil : samplesOf [] = [] := rfl

@[simp] theorem samplesOf_chunk_cons (l : List Sample) (q : List Entry) :
    samplesOf (.chunk l :: q) = l ++ samplesOf q := rfl

@[simp] theorem samplesOf_close_cons (q : List Entry) : samplesOf (.close :: q) = samplesOf q := rfl

theorem State.spbOf_eq (s : State) : spbOf s = s.spb := rfl

theorem consumerStep_spbOf {s t : State} (h : consumerStep s = some t) : spbOf t = spbOf s := by
  rw [consumerStep_writes_receive h]
  rfl

/-- A window takes samples, a DEQ and an END take an entry: every consumer step uses up some of the work. -/
theorem workLeft_lt_of_consumerStep {s t : State} (hspb : 1 ≤ spbOf s) (h : consumerStep s = some t) :
    workLeft t < workLeft s := by
  rw [State.spbOf_eq] at hspb
  obtain ⟨-, ⟨hwin, rfl⟩ | ⟨-, l, rest, hq, rfl⟩ | ⟨-, rest, hq, rfl⟩⟩ := consumerStep_cases h
  · simp only [workLeft, State.consumerWin_buf, State.consumerWin_q, List.length_drop]
    omega
  · simp only [workLeft, hq, samplesOf_chunk_cons, List.length_append, List.length_cons]
    omega
  · simp only [workLeft, hq, samplesOf_close_cons, List.length_cons]
    omega

theorem consumerRun_of_none {s : State} (h : consumerStep s = none) (n : Nat) : consumerRun n s = s := by
  cases n <;> simp [consumerRun, h]

theorem consumerRun_succ_of_some {s t : State} (h : consumerStep s = some t) (n : Nat) :
    consumerRun (n + 1) s = consumerRun n t := by
  simp [consumerRun, h]

/-- Induction along a consumer run that is given enough steps to reach its end: what holds of a waiting consumer, and
is carried back over each of its steps, relates every state to the end of its run. -/
theorem consumerRun_induction {motive : State → State → Prop}
    (waiting : ∀ s, consumerStep s = none → motive s s)
    (step : ∀ s t u, 1 ≤ spbOf s → consumerStep s = some t → motive t u → motive s u)
    {n : Nat} {s : State} (hspb : 1 ≤ spbOf s) (hn : workLeft s ≤ n) : motive s (consumerRun n s) := by
  induction n generalizing s with
  | zero =>
    refine waiting s (Option.eq_none_iff_forall_ne_some.mpr fun t ht => ?_)
    have := workLeft_lt_of_consumerStep hspb ht
    omega
  | succ n ih =>
    cases hstep : consumerStep s with
    | none =>
      rw [consumerRun_of_none hstep]
      exact waiting s hstep
    | some t =>
      have hlt := workLeft_lt_of_consumerStep hspb hstep
      rw [consumerRun_succ_of_some hstep]
      exact step s t _ hspb hstep (ih (consumerStep_spbOf hstep ▸ hspb) (by omega))

/-! ### R137: the windows of a list of samples -/

/-- The whole windows of `N` samples that a list of samples holds, first window first. -/
def windowsOf (N : Nat) (l : List Sample) : List (List Sample) :=
  (List.range (l.length / N)).map fun j => (l.drop (j * N)).take N

/-- The samples after the last whole window. -/
def samplesAfterWindows (N : Nat) (l : List Sample) : List Sample := l.drop (l.length / N * N)

section Windows
variable {N : Nat} {l : List Sample}

theorem windowsOf_of_short (h : l.length < N) : windowsOf N l = [] := by
  simp [windowsOf, Nat.div_eq_of_lt h]

theorem samplesAfterWindows_of_short (h : l.length < N) : samplesAfterWindows N l = l := by
  simp [samplesAfterWindows, Nat.div_eq_of_lt h]

theorem length_div_eq_succ_drop (hN : 1 ≤ N) (h : N ≤ l.length) :
    l.length / N = (l.drop N).length / N + 1 := by
  rw [List.length_drop, Nat.div_eq_sub_div hN h]

theorem windowsOf_eq_cons (hN : 1 ≤ N) (h : N ≤ l.length) :
    windowsOf N l = l.take N :: windowsOf N (l.drop N) := by
  simp only [windowsOf, length_div_eq_succ_drop hN h, List.range_succ_eq_map, List.map_cons, List.map_map,
    List.drop_drop, Nat.zero_mul, List.drop_zero]
  congr 2
  funext j
  simp [Nat.succ_mul, Nat.add_comm]

theorem samplesAfterWindows_drop (hN : 1 ≤ N) (h : N ≤ l.length) :
    samplesAfterWindows N (l.drop N) = samplesAfterWindows N l := by
  simp only [samplesAfterWindows, length_div_eq_succ_drop hN h, List.drop_drop, Nat.succ_mul, Nat.add_comm]

end Windows

/-! ### R137: the consumer's run over a queue of chunks -/

/-- `s` with another queue and buffer, which the receiver neither reads nor writes. -/
def State.withSamples (s : State) (q : List Entry) (buf : List Sample) : State := { s with q := q, buf := buf }

theorem State.withSamples_withSamples (s : State) (q q' : List Entry) (buf buf' : List Sample) :
    (s.withSamples q buf).withSamples q' buf' = s.withSamples q' buf' := rfl

theorem State.fsmStep_withSamples (s : State) (q : List Entry) (buf : List Sample) (b : LineBit) :
    (s.withSamples q buf).fsmStep b = (s.fsmStep b).withSamples q buf := by
  have hsame : (s.withSamples q buf).fsm = s.fsm := rfl
  cases hfsm : s.fsm with
  | idle =>
    cases b with
    | false => rw [State.fsmStep_idle_space hfsm, State.fsmStep_idle_space (hsame.trans hfsm)]; rfl
    | true => rw [State.fsmStep_idle_mark hfsm, State.fsmStep_idle_mark (hsame.trans hfsm)]
  | collectingData => rw [State.fsmStep_collecting hfsm, State.fsmStep_collecting (hsame.trans hfsm)]; rfl
  | awaitingStop =>
    cases b with
    | false => rw [State.fsmStep_awaiting_space hfsm, State.fsmStep_awaiting_space (hsame.trans hfsm)]; rfl
    | true => rw [State.fsmStep_awaiting_mark hfsm, State.fsmStep_awaiting_mark (hsame.trans hfsm)]; rfl

/-- The receiver fed the windows of `l`, with the samples after them left in the buffer and the queue used up. -/
def State.feedWindows (s : State) (l : List Sample) : State :=
  feed ((windowsOf (spbOf s) l).map s.sliceWindow) (s.withSamples [] (samplesAfterWindows (spbOf s) l))

theorem State.consumerWin_eq_withSamples (s : State) :
    s.consumerWin = (s.fsmStep (s.sliceWindow (s.buf.take s.spb))).withSamples s.q (s.buf.drop s.spb) :=
  s.fsmStep_withSamples s.q (s.buf.drop s.spb) _

theorem State.consumerWin_sliceWindow (s : State) : s.consumerWin.sliceWindow = s.sliceWindow := by
  funext x
  simp [State.sliceWindow, State.markBin, State.spaceBin, State.spb, State.spaceFreq]

theorem State.feedWindows_of_short {s : State} {l : List Sample} (h : l.length < spbOf s) :
    s.feedWindows l = s.withSamples [] l := by
  rw [State.feedWindows, windowsOf_of_short h, samplesAfterWindows_of_short h]
  rfl

/-- A WIN step feeds the first window, and leaves the others to be fed (R132). -/
theorem State.feedWindows_consumerWin {s : State} (hspb : 1 ≤ spbOf s) (hwin : spbOf s ≤ s.buf.length)
    (l : List Sample) :
    s.consumerWin.feedWindows (s.consumerWin.buf ++ l) = s.feedWindows (s.buf ++ l) := by
  have hlen : spbOf s ≤ (s.buf ++ l).length := by rw [List.length_append]; omega
  have hspb' : spbOf s.consumerWin = spbOf s := by simp [spbOf]
  have hdrop : s.consumerWin.buf ++ l = (s.buf ++ l).drop (spbOf s) := by
    rw [State.consumerWin_buf, List.drop_append_of_le_length hwin, State.spbOf_eq]
  have hfirst : (s.buf ++ l).take (spbOf s) = s.buf.take s.spb := List.take_append_of_le_length hwin
  rw [State.feedWindows, State.feedWindows, hspb', hdrop, samplesAfterWindows_drop hspb hlen,
    windowsOf_eq_cons hspb hlen, List.map_cons, feed_cons, hfirst, State.consumerWin_sliceWindow]
  rw [State.consumerWin_eq_withSamples, State.withSamples_withSamples, State.fsmStep_withSamples]

/-- All samples the consumer has yet to slice, however they were chunked (R137). -/
def State.pendingSamples (s : State) : List Sample := s.buf ++ samplesOf s.q

/-- The consumer is open and no sentinel is queued. -/
def State.ChunksOnly (s : State) : Prop := s.closed = false ∧ ∀ e ∈ s.q, e ≠ .close

theorem State.ChunksOnly.consumerStep {s t : State} (h : s.ChunksOnly) (hstep : consumerStep s = some t) :
    t.ChunksOnly := by
  obtain ⟨hopen, hq⟩ := h
  obtain ⟨-, ⟨-, rfl⟩ | ⟨-, l, rest, hhead, rfl⟩ | ⟨-, rest, hhead, rfl⟩⟩ := consumerStep_cases hstep
  · exact ⟨by simpa using hopen, by simpa using hq⟩
  · exact ⟨hopen, fun e he => hq e (hhead ▸ List.mem_cons_of_mem _ he)⟩
  · exact absurd rfl (hq .close (hhead ▸ List.mem_cons_self))

/-- No consumer step changes what the pending samples come to: a WIN step feeds their first window, and a DEQ step
moves samples from the queue to the buffer (R131, R132). -/
theorem feedWindows_of_consumerStep {s t : State} (hspb : 1 ≤ spbOf s) (h : s.ChunksOnly)
    (hstep : consumerStep s = some t) : t.feedWindows t.pendingSamples = s.feedWindows s.pendingSamples := by
  obtain ⟨-, hq⟩ := h
  obtain ⟨-, ⟨hwin, rfl⟩ | ⟨-, l, rest, hhead, rfl⟩ | ⟨-, rest, hhead, rfl⟩⟩ := consumerStep_cases hstep
  · rw [State.pendingSamples, State.consumerWin_q, State.feedWindows_consumerWin hspb hwin, State.pendingSamples]
  · rw [State.pendingSamples, State.pendingSamples, hhead, samplesOf_chunk_cons, ← List.append_assoc]
    rfl
  · exact absurd rfl (hq .close (hhead ▸ List.mem_cons_self))

theorem feedWindows_of_waiting {s : State} (h : s.ChunksOnly) (hnone : consumerStep s = none) :
    s.feedWindows s.pendingSamples = s := by
  obtain ⟨hopen, -⟩ := h
  obtain ⟨hbuf, hempty⟩ := (consumerStep_eq_none.mp hnone).resolve_left (by simp [hopen])
  rw [State.pendingSamples, hempty, samplesOf_nil, List.append_nil, State.feedWindows_of_short hbuf, ← hempty]
  rfl

/-- A consumer with only chunks queued, run to its end, has fed the windows of its pending samples. -/
theorem consumerRun_of_chunksOnly {n : Nat} {s : State} (hspb : 1 ≤ spbOf s) (hn : workLeft s ≤ n)
    (h : s.ChunksOnly) : consumerRun n s = s.feedWindows s.pendingSamples :=
  consumerRun_induction (motive := fun s u => s.ChunksOnly → u = s.feedWindows s.pendingSamples)
    (fun _ hnone h => (feedWindows_of_waiting h hnone).symm)
    (fun _ _ _ hspb hstep ih h => (ih (h.consumerStep hstep)).trans (feedWindows_of_consumerStep hspb h hstep))
    hspb hn h

/-- Settles O35: the work left bounds the run, so it reaches its end, where it has fed every window. -/
theorem chunkingDoesNotMatter : Obligations.ChunkingDoesNotMatter := by
  intro s hopen hspb hq all windows
  rw [consumerRun_of_chunksOnly hspb le_rfl ⟨hopen, hq⟩, State.feedWindows, windowsOf, List.map_map]
  rfl

end Sys2Proof.Machine
end

section
/-! PROOFS. Configuration and control of 46_control.md: what CFG.WR writes and CFG.RD answers at each register index
(R142 to R144, R147), the exactness and positivity of `SPB` (R146), NOP (R148), and SYNC, which waits for the consumer
(R150) and ends under every schedule (R151). -/

namespace Sys2Proof.Machine

open Sys2Proof.Spec

/-! ### R14: the register map -/

/-- The index of each register in the map of R14. -/
def Reg.index : Reg → Nat
  | .mark => 0x0
  | .shift => 0x1
  | .baud => 0x2
  | .stopb => 0x3
  | .volume => 0x4
  | .ctrl => 0x5
  | .fs => 0x6
  | .spb => 0x7
  | .status => 0x8
  | .rxstate => 0x9
  | .fecnt => 0xA
  | .buflen => 0xB
  | .qlen => 0xC
  | .phase => 0xD

theorem Reg.ofIndex_eq_some_iff {i : BitVec 4} {r : Reg} : Reg.ofIndex i = some r ↔ i.toNat = r.index := by
  revert i
  cases r <;> decide

theorem Reg.ofIndex_eq_none_iff {i : BitVec 4} : Reg.ofIndex i = none ↔ 0xE ≤ i.toNat := by
  revert i
  decide

/-- Every index that is not reserved names a register (R14, R30). -/
theorem Reg.exists_ofIndex {i : BitVec 4} (h : i.toNat ≤ 0xD) : ∃ r, Reg.ofIndex i = some r ∧ i.toNat = r.index := by
  cases hr : Reg.ofIndex i with
  | none => have := Reg.ofIndex_eq_none_iff.mp hr; omega
  | some r => exact ⟨r, rfl, Reg.ofIndex_eq_some_iff.mp hr⟩

/-- The read-write registers come first in the map. -/
theorem Reg.writable_iff (r : Reg) : r.writable = true ↔ r.index ≤ 5 := by
  cases r <;> decide

/-! ### R142, R144, R147: CFG.WR -/

theorem legalAt_index (s : State) (r : Reg) (v : Word) : legalAt s r.index v.toNat = s.legalValue r v := by
  cases r <;> rfl

/-- An accepted write leaves the state that the tables of R142 and R147 give for its register's index. -/
theorem State.acceptWrite_eq_writtenAt (s : State) (r : Reg) (v : Word) :
    s.acceptWrite r v = { writtenAt s r.index v.toNat with pc := s.pc + 1 } := by
  cases r with
  | mark | shift | baud =>
    simp only [State.acceptWrite, Reg.isTone, Bool.true_and, State.flushOnReconf, writtenAt, Reg.index]
    split <;> rfl
  | stopb | volume | ctrl | fs | spb | status | rxstate | fecnt | buflen | qlen | phase => rfl

/-- An illegal value is refused with ERR_CFG (R142, R144). -/
theorem exec_cfgWr_illegal {reg : BitVec 4} {r : Reg} (h : Reg.ofIndex reg = some r) (hw : r.writable = true)
    {data : BitVec 24} {s : State} (hv : s.legalValue r (writeValue data) = false) :
    exec (.cfgWr reg data) s = .next (s.raiseFault .cfg) := by
  rw [exec_cfgWr_register h, if_pos hw, if_neg (by simp [hv])]

/-- A read-only or reserved index is refused with ERR_ILL (R142). -/
theorem exec_cfgWr_not_writable {reg : BitVec 4} (h : 6 ≤ reg.toNat) (data : BitVec 24) (s : State) :
    exec (.cfgWr reg data) s = .next (s.raiseFault .ill) := by
  cases hr : Reg.ofIndex reg with
  | none => exact exec_cfgWr_reserved hr data s
  | some r =>
    have hidx := Reg.ofIndex_eq_some_iff.mp hr
    have hw : ¬ r.writable = true := by rw [Reg.writable_iff]; omega
    rw [exec_cfgWr_register hr, if_neg hw]

/-- Settles O38: an index up to 5 names a read-write register, whose legal values and written state are the tables';
from 6 on no register can be written. -/
theorem cfgWrStoresOrFaults : Obligations.CfgWrStoresOrFaults := by
  intro s reg data
  refine ⟨fun hreg hlegal => ?_, fun hreg hlegal => ?_, fun hreg => exec_cfgWr_not_writable hreg data s⟩
  all_goals
    obtain ⟨r, hr, hidx⟩ := Reg.exists_ofIndex (i := reg) (by omega)
    have hw : r.writable = true := (Reg.writable_iff r).mpr (hidx ▸ hreg)
    rw [hidx, ← writeValue_toNat, legalAt_index] at hlegal
  · rw [exec_cfgWr_accepted hr hw hlegal, State.acceptWrite_eq_writtenAt, writeValue_toNat, hidx]
  · exact exec_cfgWr_illegal hr hw hlegal

/-! ### R143: CFG.RD -/

/-- A field placed above another one adds to its value. -/
theorem or_shiftLeft_toNat {x y : Word} {k : Nat} (hx : x.toNat < 2 ^ k) (hy : y.toNat * 2 ^ k < 2 ^ 32) :
    (x ||| y <<< k).toNat = x.toNat + 2 ^ k * y.toNat := by
  rw [BitVec.toNat_or, BitVec.toNat_shiftLeft, Nat.shiftLeft_eq, Nat.mod_eq_of_lt hy, ← Nat.shiftLeft_eq, Nat.or_comm,
    ← Nat.shiftLeft_add_eq_or_of_lt hx, Nat.shiftLeft_eq, Nat.add_comm, Nat.mul_comm]

theorem flagWord_toNat (b : Bool) : (flagWord b).toNat = b.toNat := by
  cases b <;> rfl

/-- `REG.STATUS` reads the sticky bits below the closed bit (R24). -/
theorem statusWord_toNat (s : State) : (statusWord s).toNat = s.faults.toNat + 16 * s.closed.toNat := by
  have hclosed := s.closed.toNat_le
  have hfaults := BitVec.toNat_setWidth_of_le (w' := 32) (b := s.faults) (by decide)
  have hflag := flagWord_toNat s.closed
  rw [statusWord, or_shiftLeft_toNat, hfaults, hflag] <;> omega

theorem FsmState.code_toNat (f : FsmState) : f.code.toNat = fsmCode f := by
  cases f <;> rfl

/-- `RXSTATE` reads the state, the count above it and the accumulator above that (R25). -/
theorem rxStateWord_toNat (s : State) :
    (rxStateWord s).toNat = fsmCode s.fsm + 4 * s.count.toNat + 32 * s.acc.toNat := by
  have hcode := BitVec.toNat_setWidth_of_le (w' := 32) (b := s.fsm.code) (by decide)
  have hcount := BitVec.toNat_setWidth_of_le (w' := 32) (b := s.count) (by decide)
  have hacc := BitVec.toNat_setWidth_of_le (w' := 32) (b := s.acc) (by decide)
  have hlow : (s.fsm.code.setWidth 32 ||| s.count.setWidth 32 <<< 2).toNat = s.fsm.code.toNat + 4 * s.count.toNat := by
    rw [or_shiftLeft_toNat, hcode, hcount] <;> omega
  rw [rxStateWord, or_shiftLeft_toNat, hlow, hacc, FsmState.code_toNat] <;> omega

/-- A register reads as the table of R14 says for its index. -/
theorem State.readReg_toNat (s : State) (r : Reg) : (s.readReg r).toNat = valueAt s r.index % 2 ^ 32 := by
  cases r with
  | mark | shift | baud | stopb | volume | ctrl | fecnt => exact BitVec.toNat_setWidth ..
  | fs | spb | buflen | qlen | phase => exact BitVec.toNat_ofNat ..
  | status =>
    show (statusWord s).toNat = (s.faults.toNat + 16 * s.closed.toNat) % 2 ^ 32
    rw [← statusWord_toNat, Nat.mod_eq_of_lt (statusWord s).isLt]
  | rxstate =>
    show (rxStateWord s).toNat = (fsmCode s.fsm + 4 * s.count.toNat + 32 * s.acc.toNat) % 2 ^ 32
    rw [← rxStateWord_toNat, Nat.mod_eq_of_lt (rxStateWord s).isLt]

/-- Settles O39: an index up to 0xD names a register, whose read answers the table's value; the two above are
reserved. -/
theorem cfgRdAnswersRegister : Obligations.CfgRdAnswersRegister := by
  intro s reg
  refine ⟨fun hreg => ?_, fun hreg => exec_cfgRd_reserved (Reg.ofIndex_eq_none_iff.mpr hreg) s⟩
  obtain ⟨r, hr, hidx⟩ := Reg.exists_ofIndex hreg
  exact ⟨s.readReg r, exec_cfgRd_register hr s, hidx ▸ s.readReg_toNat r⟩

/-! ### R146: `SPB` -/

theorem State.Inv.spb_pos {s : State} (h : s.Inv) : 1 ≤ s.spb := by
  obtain ⟨hpos, hle⟩ := h.baud_range
  exact Nat.div_pos (by omega) hpos

/-- Power-on reset with legal parameters has the invariant (R171). -/
theorem State.Inv.resetWith {p : Params} (hp : p.legal = true) : (State.resetWith p).Inv where
  params_legal := hp
  shift_range := by simp [State.resetWith]
  shift_lt_mark := by simp [State.resetWith]
  baud_range := by
    have := (Params.fs_range hp).1
    show 1 ≤ 4545 ∧ 4545 ≤ 100 * p.fs
    omega
  stopb_pos := by simp [State.resetWith]
  volume_le := by simp [State.resetWith]
  collecting := nofun
  awaiting := nofun
  count_le := by simp [State.resetWith]
  phase_lt := Nat.zero_lt_of_lt (Params.fs_range hp).1
  queue_cap := by simp [State.resetWith]
  queue_chunks := by simp [State.resetWith]
  buf_samples := by simp [State.resetWith]
  buf_length := by simp [State.resetWith]

/-- No clause of the invariant speaks of the host's stream or of the schedule (R12). -/
theorem State.Initial.inv {s : State} (h : s.Initial) : s.Inv := by
  obtain ⟨p, stream, sched, epoch, hp, rfl⟩ := h
  exact { State.Inv.resetWith hp with }

theorem Reachable.inv {s : State} (h : Reachable s) : s.Inv := by
  induction h with
  | start h => exact h.inv
  | next _ hs ih => exact stepKeepsInvariant _ _ ih hs

theorem exec_cfgWr_baud {s : State} {data : BitVec 24} (hlo : 1 ≤ data.toNat) (hhi : data.toNat ≤ 65535)
    (hfs : data.toNat ≤ 100 * s.cfg.fs) :
    exec (.cfgWr 2 data) s = .next (s.acceptWrite .baud (writeValue data)) :=
  exec_cfgWr_accepted (r := .baud) rfl rfl (by simp [State.legalValue, hlo, hhi, hfs])

/-- Settles O45: the invariant bounds BAUD from both sides in every reachable state, and an accepted write puts the
whole value into BAUD. -/
theorem spbIsPositiveAndExact : Obligations.SpbIsPositiveAndExact := by
  refine ⟨fun s h => h.inv.spb_pos, fun s t data hlo hhi hfs ht => ?_⟩
  obtain rfl := Host.Outcome.next.inj ((exec_cfgWr_baud hlo hhi hfs).symm.trans ht)
  rw [State.spb, State.acceptWrite_cfg, State.acceptWrite_baud, State.writeReg_baud_baud, writeValue_setWidth_toNat hhi]

/-! ### R148: NOP -/

/-- Settles O41: the meaning of NOP is `pc <- pc + 1`. -/
theorem nopOnlyAdvances : Obligations.NopOnlyAdvances := fun _ => rfl

/-! ### R150: SYNC waits for the consumer -/

@[simp] theorem drawTurn_quiescent (s : State) : (drawTurn s).2.quiescent = s.quiescent := by
  rw [drawTurn_snd_eq]
  rfl

@[simp] theorem drawTurn_spbOf (s : State) : spbOf (drawTurn s).2 = spbOf s := by
  rw [drawTurn_snd_eq]
  rfl

@[simp] theorem drawTurn_workLeft (s : State) : workLeft (drawTurn s).2 = workLeft s := by
  rw [drawTurn_snd_eq]
  rfl

theorem exec_sync_of_quiescent {s : State} (h : s.quiescent = true) : exec .sync s = .next s.advance :=
  congrArg _ (if_pos h)

theorem exec_sync_of_waiting {s : State} (h : s.quiescent = false) : exec .sync s = .next s :=
  congrArg _ (if_neg (by simp [h]))

/-- SYNC's word at the head of a stream is fetched with no payload. -/
theorem fetch_sync (rest : List Item) : fetch (.word 0xC0000000#32 :: rest) = some ⟨0xC0000000#32, [], rest⟩ :=
  fetch_encode (bits := 0) (i := .sync) rfl rest

theorem decode_sync : decode 0xC0000000#32 [] = .ok .sync := decode_encodeWord .sync

theorem exists_consumerStep_of_not_quiescent {s : State} (h : s.quiescent = false) :
    ∃ t, consumerStep s = some t :=
  Option.ne_none_iff_exists'.mp fun hnone => by simp [consumerStep_eq_none_iff_quiescent.mp hnone] at h

/-- While the host waits, the consumer takes the step, whichever agent is offered it (R47). -/
theorem turn_of_host_waiting {s t : State} (hhost : hostReady s = none) (hc : consumerStep s = some t) (a : Agent) :
    turn a s = .next t := by
  cases a <;> simp [turn, hhost, hc]

/-- While the consumer waits, the host takes the step, whichever agent is offered it (R47). -/
theorem turn_of_consumer_waiting {s : State} {f : Fetched} (hhost : hostReady s = some f) (hc : consumerStep s = none)
    (a : Agent) : turn a s = hostStep f s := by
  cases a <;> simp [turn, hhost, hc]

section SyncNext

variable {s : State} {rest : List Item} (hstream : s.stream = .word 0xC0000000#32 :: rest)
include hstream

theorem hostReady_sync_of_quiescent (hq : s.quiescent = true) : hostReady s = some ⟨0xC0000000#32, [], rest⟩ :=
  hostReady_eq_some.mpr ⟨hstream ▸ fetch_sync rest, .inr hq⟩

theorem hostReady_sync_of_waiting (hq : s.quiescent = false) : hostReady s = none := by
  have hwaits : Fetched.waits ⟨0xC0000000#32, [], rest⟩ = true := (Fetched.waits_iff decode_sync).mpr rfl
  simp [hostReady, hstream, fetch_sync, hwaits, hq]

theorem step_sync_of_waiting (hq : s.quiescent = false) :
    ∃ t, consumerStep (drawTurn s).2 = some t ∧ step s = .next t := by
  have hq' : (drawTurn s).2.quiescent = false := by simpa using hq
  obtain ⟨t, ht⟩ := exists_consumerStep_of_not_quiescent hq'
  exact ⟨t, ht, turn_of_host_waiting (hostReady_sync_of_waiting (by simpa using hstream) hq') ht _⟩

theorem step_sync_of_quiescent (hq : s.quiescent = true) :
    step s = .next { (drawTurn s).2.advance with stream := rest } := by
  have hq' : (drawTurn s).2.quiescent = true := by simpa using hq
  rw [step, turn_of_consumer_waiting (hostReady_sync_of_quiescent (by simpa using hstream) hq')
    (consumerStep_eq_none_iff_quiescent.mpr hq'), hostStep_of_decode decode_sync (exec_sync_of_quiescent hq')]

end SyncNext

/-- Settles O42: a SYNC is ready just when the consumer is quiescent, and a consumer that is not has a step. -/
theorem syncWaitsForQuiescence : Obligations.SyncWaitsForQuiescence := fun _ =>
  ⟨exec_sync_of_quiescent, fun hq =>
    ⟨exec_sync_of_waiting hq, fun _ hstream =>
      ⟨hostReady_sync_of_waiting hstream hq, step_sync_of_waiting hstream hq⟩⟩⟩

/-! ### R151: the consumer becomes quiescent, and SYNC ends -/

/-- Settles O36: the run is given as many steps as there is work, so it ends where the consumer waits. -/
theorem consumerReachesQuiescence : Obligations.ConsumerReachesQuiescence := fun _ hspb =>
  consumerRun_induction (motive := fun _ u => u.quiescent = true)
    (fun _ hnone => consumerStep_eq_none_iff_quiescent.mp hnone) (fun _ _ _ _ _ ih => ih) hspb le_rfl

theorem runSteps_succ_of_next {s t : State} (h : step s = .next t) (n : Nat) :
    runSteps (n + 1) s = runSteps n t := by
  simp [runSteps, h]

/-- Settles O37: by induction on the consumer's work. While the consumer is not quiescent, each step is its own and uses
up some of the work; then the next step takes the SYNC. -/
theorem syncEndsUnderEverySchedule : Obligations.SyncEndsUnderEverySchedule := by
  intro s rest hspb hstream
  induction hwork : workLeft s using Nat.strong_induction_on generalizing s with
  | _ work ih =>
    subst hwork
    cases hq : s.quiescent with
    | true =>
      refine ⟨0, Nat.zero_le _, _, runSteps_succ_of_next (step_sync_of_quiescent hstream hq) 0, ?_, rfl, ?_⟩
      · simp
      · exact (drawTurn_quiescent s).trans hq
    | false =>
      obtain ⟨t, hc, hstep⟩ := step_sync_of_waiting hstream hq
      obtain ⟨hpc, hstreamt⟩ := consumerStep_pc_stream hc
      have hspbt : spbOf t = spbOf s := (consumerStep_spbOf hc).trans (drawTurn_spbOf s)
      have hlt : workLeft t < workLeft s := by simpa using workLeft_lt_of_consumerStep (by simpa using hspb) hc
      obtain ⟨n, hn, u, hrun, hupc, hustream, huq⟩ :=
        ih _ hlt t (hspbt ▸ hspb) (by simpa [hstreamt] using hstream) rfl
      exact ⟨n + 1, by omega, u, (runSteps_succ_of_next hstep _).trans hrun, by simpa [hpc] using hupc, hustream, huq⟩

end Sys2Proof.Machine
end

section
/-! PROOFS. The faults of 60_exceptions.md: which command raises which fault (R158 to R161, R163), a command that
raises one has no other effect (R156), and only RESET clears a fault bit (R157). -/

namespace Sys2Proof.Machine

open Sys2Proof.Spec

/-! ### R156, R158 to R161: the fault of a command -/

/-- The fault that a legal command raises at a state, if any (R158 items 3 and 4, R159 to R161). -/
def State.faultCause (s : State) : Instr → Option Cause
  | .cfgWr reg data =>
    if 6 ≤ reg.toNat then some .ill else if legalAt s reg.toNat data.toNat then none else some .cfg
  | .cfgRd reg => if 0xE ≤ reg.toNat then some .ill else none
  | .slice payload => if payload.length = spbOf s then none else some .len
  | .push _ | .close => if s.queueFull then some .ovf else none
  | .nop | .enc _ | .dec _ | .frame _ | .txBit _ | .txChar _ | .rxBit _ | .sync | .reset => none

/-- No condition for a fault reads the fault bits. -/
theorem State.faultCause_withFaults (s : State) (faults : BitVec 4) (i : Instr) :
    State.faultCause { s with faults := faults } i = s.faultCause i := by
  cases i <;> rfl

/-- How a command can end: it raises its fault, which is all it does, or it has none to raise, and then the fault bits
stay, but for RESET (R156, R157). -/
def EndsWithItsFault (i : Instr) (s : State) : Prop :=
  (∃ e, s.faultCause i = some e ∧ exec i s = .next (s.raiseFault e)) ∨
  (s.faultCause i = none ∧ ∃ t, exec i s = .next t ∧ t.faults = if i = .reset then 0 else s.faults)

theorem endsWithItsFault_cfgWr (reg : BitVec 4) (data : BitVec 24) (s : State) :
    EndsWithItsFault (.cfgWr reg data) s := by
  by_cases hreg : 6 ≤ reg.toNat
  · exact .inl ⟨.ill, if_pos hreg, exec_cfgWr_not_writable hreg data s⟩
  · obtain ⟨r, hr, hidx⟩ := Reg.exists_ofIndex (i := reg) (by omega)
    have hw : r.writable = true := (Reg.writable_iff r).mpr (by omega)
    have hlegal : legalAt s reg.toNat data.toNat = s.legalValue r (writeValue data) := by
      rw [hidx, ← writeValue_toNat, legalAt_index]
    cases hv : s.legalValue r (writeValue data) with
    | false => exact .inl ⟨.cfg, by simp [State.faultCause, hreg, hlegal, hv], exec_cfgWr_illegal hr hw hv⟩
    | true =>
      exact .inr ⟨by simp [State.faultCause, hlegal, hv, hreg], _, exec_cfgWr_accepted hr hw hv, by simp⟩

theorem endsWithItsFault_cfgRd (reg : BitVec 4) (s : State) : EndsWithItsFault (.cfgRd reg) s := by
  cases hr : Reg.ofIndex reg with
  | none => exact .inl ⟨.ill, if_pos (Reg.ofIndex_eq_none_iff.mp hr), exec_cfgRd_reserved hr s⟩
  | some r =>
    have hreg : ¬ 0xE ≤ reg.toNat := fun h => absurd (hr.symm.trans (Reg.ofIndex_eq_none_iff.mpr h)) nofun
    exact .inr ⟨if_neg hreg, _, exec_cfgRd_register hr s, rfl⟩

theorem endsWithItsFault_slice (payload : List SampleBits) (s : State) : EndsWithItsFault (.slice payload) s := by
  by_cases hlen : payload.length = spbOf s
  · exact .inr ⟨if_pos hlen, _, exec_slice_window hlen, rfl⟩
  · exact .inl ⟨.len, if_neg hlen, exec_slice_otherLength hlen⟩

/-- PUSH and CLOSE, which offer an entry to the queue. -/
theorem endsWithItsFault_of_offer {i : Instr} {s : State} {e : Entry}
    (hcause : s.faultCause i = if s.queueFull then some .ovf else none) (hexec : exec i s = .next (s.offer e))
    (hi : i ≠ .reset) : EndsWithItsFault i s := by
  rcases s.offer_cases e with ⟨hfull, ho⟩ | ⟨hroom, ho⟩ <;> rw [ho] at hexec
  · exact .inl ⟨.ovf, by simp [hcause, hfull], hexec⟩
  · exact .inr ⟨by simp [hcause, hroom], _, hexec, (if_neg hi).symm⟩

/-- Every command at every state. -/
theorem endsWithItsFault (i : Instr) (s : State) : EndsWithItsFault i s := by
  cases i with
  | cfgWr reg data => exact endsWithItsFault_cfgWr reg data s
  | cfgRd reg => exact endsWithItsFault_cfgRd reg s
  | slice payload => exact endsWithItsFault_slice payload s
  | push payload => exact endsWithItsFault_of_offer rfl (exec_push payload s) nofun
  | close => exact endsWithItsFault_of_offer rfl (exec_close s) nofun
  | rxBit bit => exact .inr ⟨rfl, _, exec_rxBit bit s, by simp⟩
  | sync =>
    cases hq : s.quiescent with
    | true => exact .inr ⟨rfl, _, exec_sync_of_quiescent hq, rfl⟩
    | false => exact .inr ⟨rfl, _, exec_sync_of_waiting hq, rfl⟩
  | nop | enc char | dec code | frame char | txBit bit | txChar char | reset => exact .inr ⟨rfl, _, rfl, rfl⟩

theorem exec_of_faultCause {i : Instr} {s : State} {e : Cause} (h : s.faultCause i = some e) :
    exec i s = .next (s.raiseFault e) := by
  rcases endsWithItsFault i s with ⟨e', he', hexec⟩ | ⟨hnone, -⟩
  · obtain rfl := Option.some.inj (h.symm.trans he')
    exact hexec
  · exact absurd (h.symm.trans hnone) nofun

/-- A command that leaves a bit set where all were clear has a fault to raise, and that is the bit. -/
theorem exists_faultCause_of_faults_ne_zero {i : Instr} {s u : State} (hclear : s.faults = 0)
    (hexec : exec i s = .next u) (hu : u.faults ≠ 0) : ∃ e, s.faultCause i = some e ∧ u.faults = e.mask := by
  rcases endsWithItsFault i s with ⟨e, he, hfault⟩ | ⟨-, t, ht, hkept⟩
  · obtain rfl := Host.Outcome.next.inj (hexec.symm.trans hfault)
    exact ⟨e, he, by simp [hclear]⟩
  · obtain rfl := Host.Outcome.next.inj (hexec.symm.trans ht)
    rw [hclear, ite_self] at hkept
    exact absurd hkept hu

/-- Whether a command has a fault to raise does not depend on the bits already set, and raising it is all it does. -/
theorem exec_raises_only_its_fault {i : Instr} {s u : State} (hexec : exec i { s with faults := 0 } = .next u)
    (hu : u.faults ≠ 0) : ∃ e : Cause, u.faults = e.mask ∧ exec i s = .next (s.raiseFault e) := by
  obtain ⟨e, he, hbit⟩ := exists_faultCause_of_faults_ne_zero rfl hexec hu
  exact ⟨e, hbit, exec_of_faultCause (s.faultCause_withFaults 0 i ▸ he)⟩

theorem hostStep_of_illegal {f : Fetched} {d : DecodeError} (h : decode f.word f.payload = .error d) (s : State) :
    hostStep f s = .next { s.raiseFault .ill with stream := f.rest } := by
  simp [hostStep, h, withStream]

/-- Settles O47: a word that decodes raises its command's fault, and an illegal word ERR_ILL; the stream moves past the
word in both cases. -/
theorem faultHasNoOtherEffect : Obligations.FaultHasNoOtherEffect := by
  refine ⟨fun _ _ _ => exec_raises_only_its_fault, fun f s u hstep hu => ?_⟩
  rcases hostStep_cases f { s with faults := 0 } with ⟨i, t, hi, hexec, ht⟩ | ⟨d, hd, ht⟩ <;>
    obtain rfl := Host.Outcome.next.inj (hstep.symm.trans ht)
  · obtain ⟨e, hbit, hfault⟩ := exec_raises_only_its_fault hexec hu
    exact ⟨e, hbit, hostStep_of_decode hi hfault⟩
  · exact ⟨.ill, BitVec.zero_or, hostStep_of_illegal hd s⟩

/-! ### R157: the fault bits only grow -/

/-- The fault bits that a command adds. -/
def causeBits : Option Cause → BitVec 4
  | none => 0
  | some e => e.mask

/-- Every command but RESET adds its fault's bit, if it raises one, to the fault bits. -/
theorem exec_faults {i : Instr} {s t : State} (hi : i ≠ .reset) (h : exec i s = .next t) :
    t.faults = s.faults ||| causeBits (s.faultCause i) := by
  rcases endsWithItsFault i s with ⟨e, he, hexec⟩ | ⟨hnone, u, hexec, hkept⟩ <;>
    obtain rfl := Host.Outcome.next.inj (h.symm.trans hexec)
  · rw [he]
    rfl
  · rw [hkept, if_neg hi, hnone]
    exact BitVec.or_zero.symm

@[simp] theorem drawTurn_faults (s : State) : (drawTurn s).2.faults = s.faults := by rw [drawTurn_snd_eq]

/-- No consumer step raises or clears a fault (R140). -/
theorem consumerStep_faults {s t : State} (h : consumerStep s = some t) : t.faults = s.faults := by
  rw [consumerStep_writes_receive h]
  rfl

theorem bitVec_and_or_self {n : Nat} (a b : BitVec n) : a &&& (a ||| b) = a := by
  ext j hj
  simp +contextual

/-- Settles O49: a consumer step leaves the fault bits, and every word that the host takes, but a RESET, only adds to
them. -/
theorem faultBitsAreSticky : Obligations.FaultBitsAreSticky := by
  intro s t h hreset
  rcases step_cases h with hc | ⟨f, i, u, hf, hi, hu, rfl⟩ | ⟨f, -, rfl⟩
  · rw [consumerStep_faults hc, drawTurn_faults, BitVec.and_self]
  · have hne : i ≠ .reset := fun heq => hreset f hf rfl (heq ▸ hi)
    have hgrow := exec_faults hne hu
    rw [drawTurn_faults] at hgrow
    exact (congrArg (s.faults &&& ·) hgrow).trans (bitVec_and_or_self _ _)
  · rw [State.raiseFault_faults, drawTurn_faults, bitVec_and_or_self]

/-! ### R158 to R163: the table of the causes -/

theorem faultOf_of_illegal {s : State} {w : Nat} (h : 0xE ≤ w / 2 ^ 28 ∨ w &&& reservedBits (w / 2 ^ 28) ≠ 0) :
    faultOf s w = 1 := if_pos h

section LegalWord

variable {s : State} {w : Nat} (hlegal : ¬ (0xE ≤ w / 2 ^ 28 ∨ w &&& reservedBits (w / 2 ^ 28) ≠ 0))
include hlegal

theorem faultOf_cfgWr (hop : w / 2 ^ 28 = 0x1) :
    faultOf s w = if 6 ≤ w / 2 ^ 24 % 16 then 1 else if legalAt s (w / 2 ^ 24 % 16) (w % 2 ^ 24) then 0 else 2 := by
  simp only [faultOf, if_neg hlegal]
  simp [hop, -Nat.reducePow]

theorem faultOf_cfgRd (hop : w / 2 ^ 28 = 0x2) : faultOf s w = if 0xE ≤ w / 2 ^ 24 % 16 then 1 else 0 := by
  simp only [faultOf, if_neg hlegal]
  simp [hop, -Nat.reducePow]

theorem faultOf_slice (hop : w / 2 ^ 28 = 0x8) : faultOf s w = if w % 2 ^ 24 = spbOf s then 0 else 4 := by
  simp only [faultOf, if_neg hlegal]
  simp [hop, -Nat.reducePow]

/-- PUSH and CLOSE. -/
theorem faultOf_offer (hop : w / 2 ^ 28 = 0xA ∨ w / 2 ^ 28 = 0xB) : faultOf s w = if s.queueFull then 8 else 0 := by
  simp only [faultOf, if_neg hlegal]
  rcases hop with hop | hop <;> cases hcap : s.cfg.queueCap <;> simp [hop, State.queueFull, hcap, -Nat.reducePow]

/-- The opcodes for which R158 to R161 list no cause. -/
theorem faultOf_of_no_cause (hop : w / 2 ^ 28 ∉ [0x1, 0x2, 0x8, 0xA, 0xB]) : faultOf s w = 0 := by
  simp only [List.mem_cons, List.not_mem_nil, or_false, not_or] at hop
  obtain ⟨h1, h2, h8, hA, hB⟩ := hop
  simp only [faultOf, if_neg hlegal]
  simp [h1, h2, h8, hA, hB, -Nat.reducePow]

end LegalWord

theorem opcode_plainWord (op : BitVec 4) (x : BitVec 24) : (plainWord op x).toNat / 2 ^ 28 = op.toNat := by
  rw [← opField_toNat, opField_plainWord]

theorem opcode_regWord (op reg : BitVec 4) (data : BitVec 24) :
    (op ++ reg ++ data : Word).toNat / 2 ^ 28 = op.toNat := by
  rw [← opField_toNat, opField_regWord]

/-- A command raises the fault that the table of R158 to R161 lists for its word, and none where it lists none. -/
theorem causeBits_faultCause {i : Instr} (hlen : i.payload.length = lenOf (encodeWord i).toNat) (s : State) :
    causeBits (s.faultCause i) = faultOf s (encodeWord i).toNat := by
  have hlegal : ¬ (0xE ≤ (encodeWord i).toNat / 2 ^ 28 ∨
      (encodeWord i).toNat &&& reservedBits ((encodeWord i).toNat / 2 ^ 28) ≠ 0) := fun h => by
    obtain ⟨d, hd⟩ := (decoderRejectsExactlyReservedWords _ i.payload).mpr h
    exact absurd ((decode_encodeWord i).symm.trans hd) nofun
  cases i with
  | cfgWr reg data =>
    have hop : (encodeWord (.cfgWr reg data)).toNat / 2 ^ 28 = 0x1 := opcode_regWord 0x1 reg data
    have hreg : (encodeWord (.cfgWr reg data)).toNat / 2 ^ 24 % 16 = reg.toNat := by
      rw [← regField_toNat, encodeWord, regField_regWord]
    have hdata : (encodeWord (.cfgWr reg data)).toNat % 2 ^ 24 = data.toNat := by
      rw [← dataField_toNat, encodeWord, dataField_regWord]
    rw [faultOf_cfgWr hlegal hop, hreg, hdata, State.faultCause, apply_ite causeBits, apply_ite causeBits]
    rfl
  | cfgRd reg =>
    have hop : (encodeWord (.cfgRd reg)).toNat / 2 ^ 28 = 0x2 := opcode_regWord 0x2 reg 0
    have hreg : (encodeWord (.cfgRd reg)).toNat / 2 ^ 24 % 16 = reg.toNat := by
      rw [← regField_toNat, encodeWord, regField_regWord]
    rw [faultOf_cfgRd hlegal hop, hreg, State.faultCause, apply_ite causeBits]
    rfl
  | slice payload =>
    have hop : (encodeWord (.slice payload)).toNat / 2 ^ 28 = 0x8 := opcode_plainWord 0x8 _
    rw [lenOf_of_lenWord (.inl hop)] at hlen
    rw [faultOf_slice hlegal hop, ← hlen, State.faultCause, apply_ite causeBits]
    rfl
  | push payload =>
    rw [faultOf_offer hlegal (.inl (opcode_plainWord 0xA _)), State.faultCause, apply_ite causeBits]
    rfl
  | close =>
    rw [faultOf_offer hlegal (.inr (opcode_plainWord 0xB _)), State.faultCause, apply_ite causeBits]
    rfl
  | nop | enc char | dec code | frame char | txBit bit | txChar char | rxBit bit | sync | reset =>
    rw [faultOf_of_no_cause hlegal (by rw [encodeWord, opcode_plainWord]; decide)]
    rfl

/-- RESET's word, whatever payload is read with it. -/
theorem decode_resetWord (payload : List SampleBits) : decode 0xD0000000#32 payload = .ok .reset := rfl

/-- Settles O48: a legal word is the word of the command it decodes to, which raises the fault listed for it; an illegal
word raises ERR_ILL, which comes first in the table. -/
theorem hostStepRaisesExactlyItsFault : Obligations.HostStepRaisesExactlyItsFault := by
  intro s t f hfetch hstep
  have hlen : f.payload.length = lenOf f.word.toNat :=
    (fetch_eq_some.mp hfetch).1.trans (payloadLen_eq_lenOf f.word)
  rcases hostStep_cases f s with ⟨i, u, hi, hexec, hu⟩ | ⟨d, hd, hu⟩ <;>
    obtain rfl := Host.Outcome.next.inj (hstep.symm.trans hu)
  · obtain ⟨hword, hpayload⟩ := decodedWordEncodesBack f.word f.payload i hlen hi
    refine ⟨fun hreset => ?_, fun hreset => ?_⟩
    · obtain rfl : i = .reset := Except.ok.inj (hi.symm.trans (hreset ▸ decode_resetWord f.payload))
      exact (Host.Outcome.next.inj hexec) ▸ rfl
    · have hne : i ≠ .reset := fun heq => hreset (hword ▸ heq ▸ rfl)
      rw [← hword, ← causeBits_faultCause (by rw [hpayload, hword, hlen])]
      exact (exec_faults hne hexec : u.faults = _)
  · refine ⟨fun hreset => ?_, fun _ => ?_⟩
    · rw [hreset, decode_resetWord] at hd
      exact absurd hd nofun
    · rw [faultOf_of_illegal ((decoderRejectsExactlyReservedWords f.word f.payload).mp ⟨d, hd⟩)]
      rfl

end Sys2Proof.Machine
end

section
/-! PROOFS. Reset and the run's end, of 70_reset_and_hazards.md: no step changes the parameters (R174), what RESET
restores and what it keeps (R171, R172), the invariant at the start of a run (R173), and where a run stops (R176). -/

namespace Sys2Proof.Machine

open Sys2Proof.Spec

/-! ### R174: the parameters are fixed -/

@[simp] theorem drawTurn_cfg (s : State) : (drawTurn s).2.cfg = s.cfg := by rw [drawTurn_snd_eq]

@[simp] theorem State.offer_cfg (s : State) (e : Entry) : (s.offer e).cfg = s.cfg := by
  rcases s.offer_cases e with ⟨-, h⟩ | ⟨-, h⟩ <;> rw [h]
  exact s.raiseFault_cfg .ovf

/-- CFG.WR reaches the configuration registers only: `FS` and the other parameters are no target of it (R142). -/
theorem exec_cfgWr_cfg {reg : BitVec 4} {data : BitVec 24} {s t : State} (h : exec (.cfgWr reg data) s = .next t) :
    t.cfg = s.cfg := by
  cases hr : Reg.ofIndex reg with
  | none =>
    obtain rfl := Host.Outcome.next.inj ((exec_cfgWr_reserved hr data s).symm.trans h)
    exact s.raiseFault_cfg .ill
  | some r =>
    obtain rfl := Host.Outcome.next.inj ((exec_cfgWr_register hr data s).symm.trans h)
    split_ifs
    · exact s.acceptWrite_cfg r _
    · exact s.raiseFault_cfg .cfg
    · exact s.raiseFault_cfg .ill

/-- No command writes a parameter, RESET included (R174). -/
theorem exec_cfg {i : Instr} {s t : State} (h : exec i s = .next t) : t.cfg = s.cfg := by
  cases i with
  | cfgWr reg data => exact exec_cfgWr_cfg h
  | cfgRd reg | slice payload | sync =>
    cases h
    split <;> rfl
  | rxBit bit =>
    cases h
    exact s.fsmStep_cfg bit
  | push payload | close =>
    cases h
    exact s.offer_cfg _
  | nop | enc char | dec code | frame char | txBit bit | txChar char | reset =>
    cases h
    rfl

/-- Settles O51: the draw keeps the parameters, and so does each of the three kinds of step. -/
theorem parametersNeverChange : Obligations.ParametersNeverChange := by
  intro s t h
  refine Eq.trans ?_ (drawTurn_cfg s)
  rcases step_cases h with hc | ⟨f, i, u, -, -, hu, rfl⟩ | ⟨f, -, rfl⟩
  · exact consumerStep_cfg hc
  · exact (exec_cfg hu : u.cfg = _)
  · exact State.raiseFault_cfg _ .ill

/-! ### R176: where a run stops -/

/-- A host step never ends a run: every command word has a result in every state (93_implementation_defined.md). -/
theorem hostStep_eq_next (f : Fetched) (s : State) : ∃ t, hostStep f s = .next t := by
  rcases hostStep_cases f s with ⟨i, t, -, -, h⟩ | ⟨e, -, h⟩ <;> exact ⟨_, h⟩

/-- A turn is taken, or the run stops because neither agent has a step. -/
theorem turn_eq_next_or_fault (a : Agent) (s : State) :
    (∃ t, turn a s = .next t ∧ ¬ (hostReady s = none ∧ consumerStep s = none)) ∨
    (turn a s = .fault (stuck s) ∧ hostReady s = none ∧ consumerStep s = none) := by
  rcases turn_cases a s with ⟨f, hf, h⟩ | ⟨t, ht, h⟩ | ⟨hhost, hc, h⟩
  · obtain ⟨t, ht⟩ := hostStep_eq_next f s
    exact .inl ⟨t, h.trans ht, by simp [hf]⟩
  · exact .inl ⟨t, h, by simp [ht]⟩
  · exact .inr ⟨h, hhost, hc⟩

theorem turn_ne_refused (a : Agent) (s : State) (r : Refusal) : turn a s ≠ .refused r := by
  rcases turn_eq_next_or_fault a s with ⟨t, h, -⟩ | ⟨h, -⟩ <;> rw [h] <;> nofun

theorem turn_eq_fault_iff {a : Agent} {s : State} {f : Fault} :
    turn a s = .fault f ↔ (hostReady s = none ∧ consumerStep s = none) ∧ f = stuck s := by
  rcases turn_eq_next_or_fault a s with ⟨t, h, henabled⟩ | ⟨h, hnone⟩
  · simp [h, henabled]
  · simp [h, hnone, eq_comm]

/-- Beside a quiescent consumer no command waits, a SYNC neither (R150). -/
theorem hostReady_of_quiescent {s : State} (hq : s.quiescent = true) : hostReady s = fetch s.stream :=
  Option.ext fun _ => hostReady_eq_some.trans (by simp [hq])

/-- Neither agent has a step: the consumer is quiescent, and the host's stream has no whole command (R47). -/
theorem neitherEnabled_iff {s : State} :
    (hostReady s = none ∧ consumerStep s = none) ↔ s.quiescent = true ∧ fetch s.stream = none := by
  rw [consumerStep_eq_none_iff_quiescent, and_comm]
  exact and_congr_right fun hq => by rw [hostReady_of_quiescent hq]

theorem stuck_eq (s : State) : stuck s = if s.stream = [] then .runFinished else .streamIncomplete := by
  simp [stuck]

/-- Settles O55: a turn stops just where neither agent has a step, and the draw changes nothing that this turns on. -/
theorem stopsOnlyWithoutEnabledStep : Obligations.StopsOnlyWithoutEnabledStep := by
  refine ⟨fun s => turn_ne_refused _ _, fun s f => ?_⟩
  rw [step, turn_eq_fault_iff, neitherEnabled_iff, stuck_eq, drawTurn_quiescent, drawTurn_stream, and_assoc]

/-! ### R171, R172: the reset values -/

theorem exec_reset (s : State) : exec .reset s = .next s.resetCore.advance := rfl

/-- RESET is power-on reset with the parameters kept, but for `pc`, the output streams and the model's own fields. -/
theorem State.resetCore_eq_resetWith (s : State) :
    s.resetCore = { State.resetWith s.cfg with
      pc := s.pc, rsp := s.rsp, tx := s.tx, rx := s.rx, stream := s.stream, sched := s.sched, epoch := s.epoch } := rfl

/-- Settles O43: what RESET restores is the power-on state, and advancing past itself changes `pc` only. -/
theorem resetRestoresResetValues : Obligations.ResetRestoresResetValues := by
  intro s
  rw [exec_reset, s.resetCore_eq_resetWith]
  rfl

theorem State.resetCore_resetWith (p : Params) : (State.resetWith p).resetCore = State.resetWith p := rfl

/-- What RESET restores is the table of R171: each register index is read off, and from 14 on none is a register. -/
theorem atReset_resetCore (s : State) : atReset s.resetCore := by
  refine ⟨fun reg => ?_, rfl, rfl, rfl, rfl, rfl, rfl, rfl⟩
  match reg with
  | 0 | 1 | 2 | 3 | 4 | 5 | 6 | 7 | 8 | 9 | 10 | 11 | 12 | 13 => rfl
  | _ + 14 => rfl

/-- The table of R171 leaves `pc` out. -/
theorem atReset_advance {s : State} (h : atReset s) : atReset s.advance := h

theorem atReset_resetWith (p : Params) : atReset (State.resetWith p) :=
  State.resetCore_resetWith p ▸ atReset_resetCore _

/-- Settles O44: power-on reset and RESET restore the same values, and RESET then advances `pc`. -/
theorem powerOnResetValues : Obligations.PowerOnResetValues :=
  ⟨atReset_resetWith _, rfl, fun s => ⟨_, exec_reset s, atReset_advance (atReset_resetCore s), rfl⟩⟩

/-! ### R171, R175: the invariant where a run starts -/

theorem Config.sampleRate_range : 46 ≤ Config.sampleRate ∧ Config.sampleRate ≤ 16777215 := by
  unfold Config.sampleRate
  omega

/-- This hardware has legal parameters, whatever its open sample rate is (R5). -/
theorem Params.thisHardware_legal : Params.thisHardware.legal = true := by
  obtain ⟨hlo, hhi⟩ := Config.sampleRate_range
  obtain ⟨-, hlegal, -⟩ := defaultTableIsLegal
  simp [Params.legal, Params.thisHardware, hlo, hhi, hlegal]

/-- Settles O54: power-on reset with legal parameters has the invariant, whatever the host's stream and the schedule. -/
theorem initialStatesHaveInvariant : Obligations.InitialStatesHaveInvariant :=
  ⟨State.Inv.resetWith Params.thisHardware_legal, fun _ => State.Initial.inv⟩

end Sys2Proof.Machine
end
